-- ==== Sys2Proof/Word.lean ====
section
/-! DEFINITION. The two bit-vector types of RS-CORE: the byte every datum is (00_scope.md R13, 20_memory.md R67) and
the 12-bit byte address of the host bus (20_memory.md R60). -/

namespace Sys2Proof

/-- A byte: a field element, a register value, a buffer entry, a command (R13, R67). -/
abbrev Byte := BitVec 8

/-- A byte address of the host bus, 0x000 to 0xFFF (R60). -/
abbrev Addr := BitVec 12

end Sys2Proof
end

