-- ==== Sys2Proof/Syntax.lean ====
section
/-! DEFINITION. The commands of RS-CORE, one constructor per row of spec/opcode_table.json (30_encoding.md R92). A command
carries no register field and no immediate (R90, R93), so no constructor has an argument. FSUB, PSUB and ISVALID are other
names of FADD, PADD and CHECK (R97). -/

namespace Sys2Proof

/-- The 26 commands, in the order of the opcode map (R92). -/
inductive Instr where
  /-- 0x00, 40_system.md R120. -/
  | nop
  /-- 0x01, 40_system.md R121. -/
  | sreset
  /-- 0x10, 41_field.md R141. -/
  | fadd
  /-- 0x11, 41_field.md R142. -/
  | fmul
  /-- 0x12, 41_field.md R143. -/
  | fdiv
  /-- 0x13, 41_field.md R144. -/
  | finv
  /-- 0x14, 41_field.md R145. -/
  | fpow
  /-- 0x15, 41_field.md R146. -/
  | fexp
  /-- 0x16, 41_field.md R147. -/
  | flog
  /-- 0x20, 42_poly.md R167. -/
  | peval
  /-- 0x21, 42_poly.md R168. -/
  | pcoef
  /-- 0x22, 42_poly.md R169. -/
  | pscale
  /-- 0x23, 42_poly.md R170. -/
  | padd
  /-- 0x24, 42_poly.md R171. -/
  | pmul
  /-- 0x25, 42_poly.md R172. -/
  | pdiv
  /-- 0x26, 42_poly.md R173. -/
  | pderiv
  /-- 0x30, 43_codec.md R194. -/
  | genpoly
  /-- 0x31, 43_codec.md R195. -/
  | encode
  /-- 0x32, 43_codec.md R196. -/
  | syndromes
  /-- 0x33, 43_codec.md R197. -/
  | check
  /-- 0x34, 43_codec.md R198. -/
  | strip
  /-- 0x40, 44_decoder.md R226. -/
  | locator
  /-- 0x41, 44_decoder.md R227. -/
  | positions
  /-- 0x42, 44_decoder.md R228. -/
  | magnitudes
  /-- 0x43, 44_decoder.md R229. -/
  | repair
  /-- 0x44, 44_decoder.md R230. -/
  | decode
  deriving DecidableEq, Repr

end Sys2Proof
end

