-- ==== Sys2Proof/WellFormed.lean ====
section
/-! DEFINITION. Which command bytes are defined. A command has no operand field (30_encoding.md R90, R93), so every Instr
is well-formed as it stands; what can be ill-formed is the byte a host writes to CMD: its UNIT may be reserved (R90) or
its FUNC beyond the last operation of its unit (R92, R94). -/

namespace Sys2Proof

/-- The number of operations of each unit, FUNC 0 upwards (R92); the units 5 to 15 are reserved and have none (R90). -/
def WellFormed.operationsOf : Nat → Nat
  | 0 => 2
  | 1 => 7
  | 2 => 7
  | 3 => 5
  | 4 => 5
  | _ => 0

/-- UNIT is one of the five units (R90). -/
def WellFormed.unitDefined (v : Byte) : Bool := decide (v.toNat / 16 ≤ 4)

/-- FUNC is below the number of operations of the byte's unit (R92). -/
def WellFormed.funcDefined (v : Byte) : Bool := decide (v.toNat % 16 < WellFormed.operationsOf (v.toNat / 16))

/-- The byte is a defined command: both checks pass (R92, R94). -/
def WellFormed.commandByte (v : Byte) : Bool := WellFormed.unitDefined v && WellFormed.funcDefined v

end Sys2Proof
end

