-- ==== Sys2Proof/Decode.lean ====
section
/-! DEFINITION. The command decoder, total on every byte and rejecting reserved bytes by name (30_encoding.md R90, R92,
R94, R95), and after it the encoder, written from the same opcode map. -/

namespace Sys2Proof

/-- Why a byte is no command. Raised by the decoder; the bus turns it into the ILLEGAL_COMMAND fault record (R94, R309),
which is a next state. -/
inductive DecodeError where
  /-- The byte is reserved (R94). -/
  | reservedOpcode (v : Byte)
  deriving DecidableEq, Repr

/-- Field UNIT, bits 7:4 (R90). -/
def unitOf (v : Byte) : BitVec 4 := BitVec.ofNat 4 (v.toNat / 16)

/-- Field FUNC, bits 3:0 (R90). -/
def funcOf (v : Byte) : BitVec 4 := BitVec.ofNat 4 (v.toNat % 16)

/-- The opcode map, unit by unit (R92); every other byte is reserved (R94). -/
def decode (v : Byte) : Except DecodeError Instr :=
  match (unitOf v).toNat, (funcOf v).toNat with
  | 0, 0x0 => .ok .nop
  | 0, 0x1 => .ok .sreset
  | 1, 0x0 => .ok .fadd
  | 1, 0x1 => .ok .fmul
  | 1, 0x2 => .ok .fdiv
  | 1, 0x3 => .ok .finv
  | 1, 0x4 => .ok .fpow
  | 1, 0x5 => .ok .fexp
  | 1, 0x6 => .ok .flog
  | 2, 0x0 => .ok .peval
  | 2, 0x1 => .ok .pcoef
  | 2, 0x2 => .ok .pscale
  | 2, 0x3 => .ok .padd
  | 2, 0x4 => .ok .pmul
  | 2, 0x5 => .ok .pdiv
  | 2, 0x6 => .ok .pderiv
  | 3, 0x0 => .ok .genpoly
  | 3, 0x1 => .ok .encode
  | 3, 0x2 => .ok .syndromes
  | 3, 0x3 => .ok .check
  | 3, 0x4 => .ok .strip
  | 4, 0x0 => .ok .locator
  | 4, 0x1 => .ok .positions
  | 4, 0x2 => .ok .magnitudes
  | 4, 0x3 => .ok .repair
  | 4, 0x4 => .ok .decode
  | _, _ => .error (.reservedOpcode v)

/-- The decoder on an instruction word numbered as spec/opcode_table.json numbers it: a command is one byte (R90), the
low 8 of the word's `nbits` bits. -/
def decodeTableWord (nbits w : Nat) : Option Instr :=
  (decode (BitVec.ofNat 8 (w % 2 ^ nbits))).toOption

/-- The opcode of a command (R92). -/
def encode : Instr → Byte
  | .nop => 0x00
  | .sreset => 0x01
  | .fadd => 0x10
  | .fmul => 0x11
  | .fdiv => 0x12
  | .finv => 0x13
  | .fpow => 0x14
  | .fexp => 0x15
  | .flog => 0x16
  | .peval => 0x20
  | .pcoef => 0x21
  | .pscale => 0x22
  | .padd => 0x23
  | .pmul => 0x24
  | .pdiv => 0x25
  | .pderiv => 0x26
  | .genpoly => 0x30
  | .encode => 0x31
  | .syndromes => 0x32
  | .check => 0x33
  | .strip => 0x34
  | .locator => 0x40
  | .positions => 0x41
  | .magnitudes => 0x42
  | .repair => 0x43
  | .decode => 0x44

end Sys2Proof
end

