-- ==== Sys2Proof/Config.lean ====
section
/-! DEFINITION. What one RS-CORE fixes (00_scope.md R11, 10_state.md R23) and its free value `logt0_value` (R12, R66).
The two other named parameters of R12 are no constants: `poweron_buffer_contents` is an argument of State.powerOn
(log entry 3), `exec_latency` is State's list `latencies` (log entry 2). -/

namespace Sys2Proof

/-- The constant the read-only register ID reads (R23). -/
def Config.idValue : Byte := 0x52

/-- The constant the read-only register VER reads: command set version 1 (R3, R23). -/
def Config.verValue : Byte := 0x01

/-- The order of the multiplicative group of GF(2^8), and the maximum codeword length (R11). -/
def Config.groupOrder : Nat := 255

/-- The number of entries of a buffer or table window (R42). -/
def Config.bufferSize : Nat := 256

/-- FREE VALUE `logt0_value` (R66, D18; log entry 4): the byte the n-th read of LOGT entry 0 returns. It has no body, so
nothing is known of any of its values, nor that two of them agree. -/
opaque Config.logt0Value : Nat → Byte

end Sys2Proof
end

