-- ==== Sys2Proof/Machine/State.lean ====
section
/-! DEFINITION. The state of RS-CORE as plain data (10_state.md R20 to R58), the names its parts go by, the reasons a
step can stop, and the state after power-on reset (70_reset_and_hazards.md R341). -/

namespace Sys2Proof.Machine

/-- The scalar registers with storage (R22). ID and VER are constants without storage (R23): see `Loc`. -/
inductive Reg where
  | cmd | status | cause | t | k | n | a | b | pw | y | lp | lq | lr | lr2 | kd | ldeg | npos
  deriving DecidableEq, Repr

/-- The ten buffers of 256 bytes (R42 to R52). -/
inductive Buf where
  | buf | syn | lam | pos | emag | gen | p | q | r | r2
  deriving DecidableEq, Repr

/-- What stands at an address of the host bus (20_memory.md R61). -/
inductive Loc where
  /-- The constant register ID (R23). -/
  | ident
  /-- The constant register VER (R23). -/
  | version
  /-- A scalar register with storage (R22). -/
  | reg (r : Reg)
  /-- Entry `i` of a buffer (R42). -/
  | entry (b : Buf) (i : Nat)
  /-- Entry `i` of the EXP table window (R53). -/
  | expt (i : Nat)
  /-- Entry `i` of the LOG table window (R54). -/
  | logt (i : Nat)
  /-- No register and no buffer (R41, R64). -/
  | reserved
  deriving DecidableEq, Repr

/-- The cause codes a command can raise (60_exceptions.md R302). Raising one is a next state with the fault record
written (R301), not the end of the run. -/
inductive Cause where
  | configurationError
  | uncorrectable
  | divisionByZero
  | magnitudeUndefined
  | logOfZero
  | lengthError
  | illegalCommand
  deriving DecidableEq, Repr

/-- One thing the host does on the bus (30_encoding.md R96 to R98, 70_reset_and_hazards.md R351). -/
inductive Transaction where
  /-- `W aaa dd`: write the byte `v` at address `a` (20_memory.md R63). -/
  | write (a : Addr) (v : Byte)
  /-- `R aaa`: read the byte at address `a` (R62). -/
  | read (a : Addr)
  /-- `WAIT`: read STATUS, again and again until the byte read has DONE = 1 (R97). -/
  | wait
  deriving DecidableEq, Repr

/-- The bytes of the ten buffers, as (address, byte) pairs in the canonical form of `Memory.wf`. -/
abbrev Memory := List Host.Cell

/-- What an address that is not listed reads as (log entry 3: DESIGN CHOICE, unsafe for claims about State.reset). -/
def Memory.unlisted : Byte := 0x00

/-- The canonical form: addresses strictly rising, no entry equal to what an unlisted address reads as. -/
def Memory.wf : Memory → Bool
  | [] => true
  | c :: m => (c.2 != Memory.unlisted) && m.all (fun d => decide (c.1 < d.1)) && Memory.wf m

/-- The state of RS-CORE (R20) with the host's side of its bus (R60). -/
structure State where
  /-- CMD (R24): the opcode last written by the host. -/
  cmd : Byte
  /-- STATUS (R25) as it reads when no command executes; while `busy` is not 0 it reads 0x01. -/
  status : Byte
  /-- CAUSE (R26): the cause code of the last command. -/
  cause : Byte
  /-- T (R27): the number of check symbols. -/
  t : Byte
  /-- K (R28): the message length. -/
  k : Byte
  /-- N (R29): the length of the word in BUF. -/
  n : Byte
  /-- A (R30): first field-element operand. -/
  a : Byte
  /-- B (R31): second field-element operand. -/
  b : Byte
  /-- PW (R32): the exponent of FPOW. -/
  pw : Byte
  /-- Y (R33): the scalar result. -/
  y : Byte
  /-- LP (R34): the length of the polynomial in P. -/
  lp : Byte
  /-- LQ (R35): the length of the polynomial in Q. -/
  lq : Byte
  /-- LR (R36): the length of the polynomial in R. -/
  lr : Byte
  /-- LR2 (R37): the length of the remainder in R2. -/
  lr2 : Byte
  /-- KD (R38): the degree PCOEF asks for. -/
  kd : Byte
  /-- LDEG (R39): the degree of the locator in LAM. -/
  ldeg : Byte
  /-- NPOS (R40): the number of positions in POS. -/
  npos : Byte
  /-- The buffers of R42 at their bus addresses 0x100 to 0xAFF. -/
  mem : Memory
  /-- How many more bus cycles STATUS.BUSY reads 1 (R25, R345); 0 when no command executes. -/
  busy : Nat
  /-- The `exec_latency` of each command still to come (R12, R350); a command beyond the list takes 0 (log entry 2). -/
  latencies : List Nat
  /-- The host's accesses still to come, the next one first (R60, R70; log entry 1). -/
  bus : List Transaction
  /-- The bytes the host has read, the last one first (R62, R351). -/
  reads : List Byte
  /-- How many reads of LOGT entry 0 there have been: the index of the next draw of `logt0_value` (R66; log entry 4). -/
  draws : Nat
  deriving DecidableEq, Repr

/-- Reasons for which the machine stops with a fault: NONE. No behaviour of RS-CORE is stuck (93_implementation_defined.md
Part 1), every access is allowed (20_memory.md R73), and a fault of a command is a next state (R301). -/
inductive Fault where
  deriving DecidableEq, Repr

/-- Reasons for which a step has no meaning. -/
inductive Refusal where
  /-- Raised by an arm of `exec` for an instruction that has no meaning yet. Safe. No arm raises it. -/
  | notModelled (mnemonic : String)
  /-- Raised by the bus for a host access other than a read of STATUS while BUSY = 1, which the spec tells a model to
  refuse for the whole state (70_reset_and_hazards.md R345, U14; log entry 5). Safe. -/
  | busyAccess
  deriving DecidableEq, Repr

/-- The state after power-on reset (R341), for any `poweron_buffer_contents`, any `exec_latency` of the commands to come
(R12), and any program of the host. -/
def State.powerOn (contents : Memory) (latencies : List Nat) (program : List Transaction) : State where
  cmd := 0x00
  status := 0x00
  cause := 0x00
  t := 0x00
  k := 0x00
  n := 0x00
  a := 0x00
  b := 0x00
  pw := 0x00
  y := 0x00
  lp := 0x00
  lq := 0x00
  lr := 0x00
  lr2 := 0x00
  kd := 0x00
  ldeg := 0x00
  npos := 0x00
  mem := contents
  busy := 0
  latencies := latencies
  bus := program
  reads := []
  draws := 0

/-- Right after power-on reset, idle and waiting for a host access (R341); the buffers unlisted (log entry 3), no host
access pending (log entry 1), no latency given (log entry 2). -/
def State.reset : State := State.powerOn [] [] []

end Sys2Proof.Machine
end

