-- ==== Sys2Proof/Machine/Field.lean ====
section
/-! DEFINITION. The field GF(2^8) of RS-CORE and its functions (41_field.md R130 to R140): elements are bytes, bit i the
coefficient of z^i, reduced modulo z^8+z^4+z^3+z^2+1 (0x11D), with generator 2. The tables stand as data, row by row
as 95_test_vectors.md section 2 prints them (log entry 6). -/

namespace Sys2Proof.Machine

/-- Multiplication by the generator: shift left within 8 bits, then XOR 0x1D if bit 7 was set (R131, 90_conflicts.md C3). -/
def xtime (v : Byte) : Byte := (v <<< 1) ^^^ (if v.toNat < 128 then 0x00 else 0x1D)

/-- Entry `i` of a row of 16 bytes written as one hexadecimal number, entry 0 first. -/
def rowEntry (row i : Nat) : Byte := BitVec.ofNat 8 (row >>> (8 * (15 - i)))

/-- The 16 rows of the EXP table (R132; section 2 of 95_test_vectors.md), the last entry of the last row being that of
index 255 = EXP[0] (R53). -/
def expRow : Nat → Nat
  | 0 => 0x01020408102040801D3A74E8CD871326
  | 1 => 0x4C982D5AB475EAC98F03060C183060C0
  | 2 => 0x9D274E9C254A94356AD4B577EEC19F23
  | 3 => 0x468C050A142850A05DBA69D2B96FDEA1
  | 4 => 0x5FBE61C2992F5EBC65CA890F1E3C78F0
  | 5 => 0xFDE7D3BB6BD6B17FFEE1DFA35BB671E2
  | 6 => 0xD9AF4386112244880D1A3468D0BD67CE
  | 7 => 0x811F3E7CF8EDC7933B76ECC5973366CC
  | 8 => 0x85172E5CB86DDAA94F9E214284152A54
  | 9 => 0xA84D9A2952A455AA49923972E4D5B773
  | 10 => 0xE6D1BF63C6913F7EFCE5D7B37BF6F1FF
  | 11 => 0xE3DBAB4B963162C495376EDCA557AE41
  | 12 => 0x82193264C88D070E1C3870E0DDA753A6
  | 13 => 0x51A259B279F2F9EFC39B2B56AC458A09
  | 14 => 0x122448903D7AF4F5F7F3FBEBCB8B0B16
  | 15 => 0x2C58B07DFAE9CF831B366CD8AD478E01
  | _ => 0

/-- The 16 rows of the LOG table (R133; section 2 of 95_test_vectors.md). Entry 0 of the first row stands for the
undefined LOG[0], which no definition reads (R140; 20_memory.md R66). -/
def logRow : Nat → Nat
  | 0 => 0x0000011902321AC603DF33EE1B68C74B
  | 1 => 0x0464E00E348DEF811CC169F8C8084C71
  | 2 => 0x058A652FE1240F2135938EDAF0128245
  | 3 => 0x1DB5C27D6A27F9B9C99A09784DE472A6
  | 4 => 0x06BF8B6266DD30FDE29825B310912288
  | 5 => 0x36D094CE8F96DBBDF1D2135C83384640
  | 6 => 0x1E42B6A3C3487E6E6B3A2854FA85BA3D
  | 7 => 0xCA5E9B9F0A15792B4ED4E5AC73F3A757
  | 8 => 0x0770C0F78C80630D674ADEED31C5FE18
  | 9 => 0xE3A5997726B8B47C114492D92320892E
  | 10 => 0x373FD15B95BCCFCD908797B2DCFCBE61
  | 11 => 0xF256D3AB142A5D9E843C3953476D41A2
  | 12 => 0x1F2D43D8B77BA476C41749EC7F0C6FF6
  | 13 => 0x6CA13B52299D55AAFB6086B1BBCC3E5A
  | 14 => 0xCB595FB09CA9A0510BF516EB7A752CD7
  | 15 => 0x4FAED5E9E6E7ADE874D6F4EAA85058AF
  | _ => 0

/-- EXP[i] for i in 0..254 (R132). -/
def expTable (i : Nat) : Byte := rowEntry (expRow (i / 16)) (i % 16)

/-- LOG[x] for x in 0x01..0xFF, a natural number 0..254 (R133). -/
def logTable (x : Byte) : Nat := (rowEntry (logRow (x.toNat / 16)) (x.toNat % 16)).toNat

/-- `gexp(i)` = EXP[i mod 255], also written `alpha(i)`: the generator to the power i (R133, R139, D16). -/
def gexp (i : Nat) : Byte := expTable (i % Config.groupOrder)

/-- `gadd(x, y)`; subtraction is the same function (R134). -/
def gadd (x y : Byte) : Byte := x ^^^ y

/-- `gmul(x, y)` (R135), on unbounded indices (R148). -/
def gmul (x y : Byte) : Byte :=
  if x = 0x00 then 0x00
  else if y = 0x00 then 0x00
  else expTable ((logTable x + logTable y) % Config.groupOrder)

/-- The quotient `gdiv(x, y)` gives when it does not fault (R136): for x = 0, or for y ≠ 0. -/
def gquot (x y : Byte) : Byte :=
  if x = 0x00 then 0x00 else expTable ((logTable x + 255 - logTable y) % Config.groupOrder)

/-- `gdiv(x, y)`: the test for x = 0 comes first (R136, 90_conflicts.md C5). -/
def gdiv (x y : Byte) : Except Cause Byte :=
  if x = 0x00 then .ok 0x00
  else if y = 0x00 then .error .divisionByZero
  else .ok (gquot x y)

/-- The inverse `ginv(x)` = gdiv(1, x) of a nonzero x (R137). -/
def ginvOf (x : Byte) : Byte := expTable ((255 - logTable x) % Config.groupOrder)

/-- `ginv(x)` (R137). -/
def ginv (x : Byte) : Except Cause Byte :=
  if x = 0x00 then .error .divisionByZero else .ok (ginvOf x)

/-- `gpow(x, p)`, with 0^0 = 1 and 0^p = 0 (R138, D15). -/
def gpow (x : Byte) (p : Nat) : Byte :=
  if x = 0x00 then (if p = 0 then 0x01 else 0x00)
  else expTable ((logTable x * p) % Config.groupOrder)

/-- `glog(x)` (R140, D17): the logarithm of zero faults. -/
def glog (x : Byte) : Except Cause Nat :=
  if x = 0x00 then .error .logOfZero else .ok (logTable x)

end Sys2Proof.Machine
end

