-- ==== Sys2Proof/Machine/Flags.lean ====
section
/-! DEFINITION. The fields of STATUS, the codes of CAUSE and the Boolean of Y (10_state.md R25, R26, R33;
60_exceptions.md R302). RS-CORE has no other flag (R57). -/

namespace Sys2Proof.Machine

/-- A STATUS byte from its fields ERR (bit 2), DONE (bit 1) and BUSY (bit 0); bits 7:3 are 0 (R25). -/
def statusByte (err done busy : Bool) : Byte :=
  BitVec.ofNat 8 (4 * err.toNat + 2 * done.toNat + busy.toNat)

/-- STATUS after a command that succeeded: DONE = 1 (R25, R91). -/
def statusDone : Byte := statusByte false true false

/-- STATUS after a command that faulted: DONE = 1, ERR = 1 (R25, R301). -/
def statusFault : Byte := statusByte true true false

/-- STATUS while a command executes: BUSY = 1 (R25, R91). -/
def statusBusy : Byte := statusByte false false true

/-- Bit 0 of a STATUS byte (R25). -/
def busyBit (v : Byte) : Bool := v.getLsbD 0

/-- Bit 1 of a STATUS byte (R25). -/
def doneBit (v : Byte) : Bool := v.getLsbD 1

/-- Bit 2 of a STATUS byte (R25). -/
def errBit (v : Byte) : Bool := v.getLsbD 2

/-- The code of a cause (R302). -/
def Cause.code : Cause → Byte
  | .configurationError => 0x01
  | .uncorrectable => 0x02
  | .divisionByZero => 0x03
  | .magnitudeUndefined => 0x04
  | .logOfZero => 0x05
  | .lengthError => 0x06
  | .illegalCommand => 0x07

/-- CAUSE after a success and after reset: NONE (R26, R302). -/
def causeNone : Byte := 0x00

/-- A Boolean result as Y holds it (R33, D38). -/
def boolByte (c : Bool) : Byte := if c then 0x01 else 0x00

end Sys2Proof.Machine
end

