-- ==== Sys2Proof/Machine/Ops.lean ====
section
/-! DEFINITION. The named operations on memory and registers, the success and the fault of a command (30_encoding.md R91,
60_exceptions.md R301), and its issue. -/

namespace Sys2Proof.Machine

/-- The byte at an address: the listed one, or what an unlisted address reads as. -/
def Memory.read : Memory → Nat → Byte
  | [], _ => Memory.unlisted
  | c :: m, a => if c.1 = a then c.2 else Memory.read m a

/-- Writes one byte, keeping the canonical form. -/
def Memory.write : Memory → Nat → Byte → Memory
  | [], a, v => if v = Memory.unlisted then [] else [(a, v)]
  | c :: m, a, v =>
    if a < c.1 then (if v = Memory.unlisted then c :: m else (a, v) :: c :: m)
    else if c.1 = a then (if v = Memory.unlisted then m else (a, v) :: m)
    else c :: Memory.write m a v

/-- The listed entries of `vs` standing from address `a` on. -/
def Memory.listed : Nat → List Byte → Memory
  | _, [] => []
  | a, v :: vs => if v = Memory.unlisted then Memory.listed (a + 1) vs else (a, v) :: Memory.listed (a + 1) vs

/-- Writes the whole window of 256 bytes from `base` on: first `vs`, then 0x00 to its end (the tail rule, 10_state.md
R55). -/
def Memory.fill (m : Memory) (base : Nat) (vs : List Byte) : Memory :=
  m.filter (fun c => decide (c.1 < base)) ++
    (Memory.listed base (vs.take Config.bufferSize) ++ m.filter (fun c => decide (base + Config.bufferSize ≤ c.1)))

/-- The bus address of entry 0 of a buffer (R42). -/
def Buf.base : Buf → Nat
  | .buf => 0x100
  | .syn => 0x200
  | .lam => 0x300
  | .pos => 0x400
  | .emag => 0x500
  | .gen => 0x600
  | .p => 0x700
  | .q => 0x800
  | .r => 0x900
  | .r2 => 0xA00

/-- The buffers the host may write: the RW ones of R42; the others ignore writes (20_memory.md R65). -/
def Buf.hostWritable : Buf → Bool
  | .buf | .syn | .lam | .pos | .p | .q => true
  | .emag | .gen | .r | .r2 => false

/-- The registers the host may write: the RW ones of R22; the others ignore writes (20_memory.md R65). -/
def Reg.hostWritable : Reg → Bool
  | .cmd | .t | .k | .n | .a | .b | .pw | .lp | .lq | .kd | .ldeg | .npos => true
  | .status | .cause | .y | .lr | .lr2 => false

/-- `x[NAME]` (00_scope.md R14). -/
def State.reg (s : State) : Reg → Byte
  | .cmd => s.cmd
  | .status => s.status
  | .cause => s.cause
  | .t => s.t
  | .k => s.k
  | .n => s.n
  | .a => s.a
  | .b => s.b
  | .pw => s.pw
  | .y => s.y
  | .lp => s.lp
  | .lq => s.lq
  | .lr => s.lr
  | .lr2 => s.lr2
  | .kd => s.kd
  | .ldeg => s.ldeg
  | .npos => s.npos

/-- `x[NAME] <- v` (R14). -/
def State.setReg (s : State) (r : Reg) (v : Byte) : State :=
  match r with
  | .cmd => { s with cmd := v }
  | .status => { s with status := v }
  | .cause => { s with cause := v }
  | .t => { s with t := v }
  | .k => { s with k := v }
  | .n => { s with n := v }
  | .a => { s with a := v }
  | .b => { s with b := v }
  | .pw => { s with pw := v }
  | .y => { s with y := v }
  | .lp => { s with lp := v }
  | .lq => { s with lq := v }
  | .lr => { s with lr := v }
  | .lr2 => { s with lr2 := v }
  | .kd => { s with kd := v }
  | .ldeg => { s with ldeg := v }
  | .npos => { s with npos := v }

/-- `BUFNAME[i]` (R14): the byte at the buffer's base address plus i. -/
def State.entry (s : State) (b : Buf) (i : Nat) : Byte := Memory.read s.mem (b.base + i)

/-- `BUFNAME[i] <- v` (R14). -/
def State.setEntry (s : State) (b : Buf) (i : Nat) (v : Byte) : State :=
  { s with mem := Memory.write s.mem (b.base + i) v }

/-- `BUFNAME[0..n-1]`. -/
def State.entries (s : State) (b : Buf) (n : Nat) : List Byte := (List.range n).map (fun i => s.entry b i)

/-- A result written into a buffer: every entry of it, 0x00 beyond the result (R55). -/
def State.setBuf (s : State) (b : Buf) (vs : List Byte) : State := { s with mem := Memory.fill s.mem b.base vs }

/-- The success of a command: CAUSE 0x00, STATUS 0x02 (30_encoding.md R91). -/
def complete (s : State) : State := (s.setReg .cause causeNone).setReg .status statusDone

/-- TAKING A FAULT, the one operation for every command (60_exceptions.md R301, R312): CAUSE gets the code, STATUS 0x06,
nothing else is written. There is no return from it: the next command writes its own record (R313). -/
def raise (c : Cause) (s : State) : State := (s.setReg .cause c.code).setReg .status statusFault

/-- The end of a command issued in `s` whose rule gives `result`: its writes are committed and it succeeds, or nothing of
it is and it faults (R91, R301). -/
def conclude (s : State) (result : Except Cause State) : Host.Outcome State Fault Refusal :=
  match result with
  | .ok u => .next (complete u)
  | .error c => .next (raise c s)

/-- The start of a command's BUSY time: the next `exec_latency` (70_reset_and_hazards.md R345, R350; log entry 2). -/
def startBusy (s : State) : State := { s with busy := s.latencies.headD 0, latencies := s.latencies.tail }

/-- One bus cycle of BUSY time passes (R350). -/
def State.tick (s : State) : State := { s with busy := s.busy - 1 }

/-- A reserved opcode: the fault ILLEGAL_COMMAND (30_encoding.md R94, 60_exceptions.md R309). -/
def illegalCommand (s : State) : Host.Outcome State Fault Refusal := conclude s (.error .illegalCommand)

end Sys2Proof.Machine
end

