-- ==== Sys2Proof/Machine/Bus.lean ====
section
/-! DEFINITION. The host bus (20_memory.md R60 to R66, R69): the address map, the read and the write of one byte, the
BUSY hazard (70_reset_and_hazards.md R345), and what the host's next access asks of RS-CORE. -/

namespace Sys2Proof.Machine

/-- What stands in the register page 0x000 to 0x0FF (10_state.md R22, R41). -/
def Loc.ofRegisterPage : Nat → Loc
  | 0x00 => .ident
  | 0x01 => .version
  | 0x02 => .reg .cmd
  | 0x03 => .reg .status
  | 0x04 => .reg .cause
  | 0x05 => .reg .t
  | 0x06 => .reg .k
  | 0x07 => .reg .n
  | 0x08 => .reg .a
  | 0x09 => .reg .b
  | 0x0A => .reg .pw
  | 0x0B => .reg .y
  | 0x0C => .reg .lp
  | 0x0D => .reg .lq
  | 0x0E => .reg .lr
  | 0x0F => .reg .lr2
  | 0x10 => .reg .kd
  | 0x11 => .reg .ldeg
  | 0x12 => .reg .npos
  | _ => .reserved

/-- What stands at page `page` (address bits 11:8), offset `i` (bits 7:0) (R42, R61). -/
def Loc.ofPage (page i : Nat) : Loc :=
  match page with
  | 0x0 => Loc.ofRegisterPage i
  | 0x1 => .entry .buf i
  | 0x2 => .entry .syn i
  | 0x3 => .entry .lam i
  | 0x4 => .entry .pos i
  | 0x5 => .entry .emag i
  | 0x6 => .entry .gen i
  | 0x7 => .entry .p i
  | 0x8 => .entry .q i
  | 0x9 => .entry .r i
  | 0xA => .entry .r2 i
  | 0xB => .expt i
  | 0xC => .logt i
  | _ => .reserved

/-- The address map (R61). -/
def Loc.ofAddr (a : Addr) : Loc := Loc.ofPage (a.toNat / 256) (a.toNat % 256)

/-- STATUS as the host reads it: 0x01 while a command executes (10_state.md R25, R345). -/
def State.statusView (s : State) : Byte := if s.busy = 0 then s.reg .status else statusBusy

/-- The value a register reads as. -/
def State.readReg (s : State) (r : Reg) : Byte := if r = .status then s.statusView else s.reg r

/-- The byte a read returns (R62): EXPT entry 255 is EXP[0] (R53); LOGT entry 0 is the next draw of `logt0_value` (R66). -/
def Loc.read (l : Loc) (s : State) : Byte :=
  match l with
  | .ident => Config.idValue
  | .version => Config.verValue
  | .reg r => s.readReg r
  | .entry b i => s.entry b i
  | .expt i => gexp i
  | .logt i => if i = 0 then Config.logt0Value s.draws else BitVec.ofNat 8 (logTable (BitVec.ofNat 8 i))
  | .reserved => 0x00

/-- What a read leaves: no side effect (R62), except that a read of LOGT entry 0 uses up its draw (R66). -/
def Loc.afterRead (l : Loc) (s : State) : State := if l = .logt 0 then { s with draws := s.draws + 1 } else s

/-- `MemRead(a, 1)`: the byte read joins those the host has got (R62, R351). -/
def busRead (a : Addr) (s : State) : State :=
  let u := (Loc.ofAddr a).afterRead s
  { u with reads := (Loc.ofAddr a).read s :: u.reads }

/-- What a write stores: a writable register or buffer entry takes the byte, everything else ignores it (R63 to R65). -/
def Loc.write (l : Loc) (v : Byte) (s : State) : State :=
  match l with
  | .reg r => if r.hostWritable then s.setReg r v else s
  | .entry b i => if b.hostWritable then s.setEntry b i v else s
  | .ident | .version | .expt _ | .logt _ | .reserved => s

/-- `MemWrite(a, 1, v)` but for the issue of a command (R63). -/
def busWrite (a : Addr) (v : Byte) (s : State) : State := (Loc.ofAddr a).write v s

/-- The access is a read of STATUS, the only access admitted while BUSY = 1 (R345). -/
def Transaction.readsStatus : Transaction → Bool
  | .write _ _ => false
  | .read a => decide (Loc.ofAddr a = .reg .status)
  | .wait => true

/-- The address of STATUS (10_state.md R22). -/
def statusAddr : Addr := 0x003

/-- The address of CMD (10_state.md R22). -/
def cmdAddr : Addr := 0x002

/-- What the host's next access asks for. -/
inductive Access where
  /-- The access is done and RS-CORE is in this state. -/
  | done (s : State)
  /-- CMD was written: the command with this opcode is issued in this state (R91). -/
  | issue (v : Byte) (s : State)
  /-- The access is not admitted while BUSY = 1 (R345). -/
  | notAdmitted
  deriving DecidableEq, Repr

/-- An admitted access, the accesses after it being `rest`. -/
def admitted (x : Transaction) (rest : List Transaction) (s : State) : Access :=
  match x with
  | .write a v =>
    let u := busWrite a v { s with bus := rest }
    if Loc.ofAddr a = .reg .cmd then .issue v (startBusy u) else .done u
  | .read a => .done (busRead a { s with bus := rest }).tick
  | .wait =>
    if doneBit s.statusView then .done (busRead statusAddr { s with bus := rest }).tick
    else .done (busRead statusAddr s).tick

/-- The host's next access (R60, R70); with none pending the bus is idle for a cycle (log entry 1). -/
def hostAccess (s : State) : Access :=
  match s.bus with
  | [] => .done s.tick
  | x :: rest => if s.busy = 0 ∨ x.readsStatus = true then admitted x rest s else .notAdmitted

/-- The state with a write of `v` to CMD as the host's next access, admitted because no command executes. -/
def State.withCommand (s : State) (v : Byte) : State := { s with busy := 0, bus := .write cmdAddr v :: s.bus }

/-- The state in which the command written by `State.withCommand` executes: its write stored in CMD, its BUSY time
started (R91). -/
def State.issued (s : State) (v : Byte) : State := startBusy (s.setReg .cmd v)

end Sys2Proof.Machine
end

