-- ==== Sys2Proof/Machine/Poly.lean ====
section
/-! DEFINITION. Polynomials over the field and their functions (00_scope.md R15, 42_poly.md R160 to R166). A polynomial is
the list of its coefficients, most significant first; its length, not its true degree, sets the lengths of results. -/

namespace Sys2Proof.Machine

/-- A polynomial array, entry 0 first, which is the coefficient of the highest degree (R15). -/
abbrev Poly := List Byte

/-- `coef(p, j)`: the coefficient of x^j, 0 beyond the array (R15). -/
def coef (p : Poly) (j : Nat) : Byte := if j < p.length then p.getD (p.length - 1 - j) 0x00 else 0x00

/-- `peval(p, x)`, Horner's rule, highest coefficient first (R160). -/
def peval (p : Poly) (x : Byte) : Byte := p.foldl (fun acc c => gadd (gmul acc x) c) 0x00

/-- `pscale(p, x)` (R161). -/
def pscale (p : Poly) (x : Byte) : Poly := p.map (fun c => gmul c x)

/-- `padd(p, q)`: aligned at the low-order end, nothing trimmed (R162). -/
def padd (p q : Poly) : Poly :=
  (List.range (max p.length q.length)).map (fun i =>
    gadd (coef p (max p.length q.length - 1 - i)) (coef q (max p.length q.length - 1 - i)))

/-- The array `r` with `xs` added entry by entry from entry `i` on: `r[i+j] <- gadd(r[i+j], xs[j])` for every j. What
would fall beyond `r` is dropped; no caller's does. -/
def addAt : Nat → List Byte → List Byte → List Byte
  | _, _, [] => []
  | 0, [], r => r
  | 0, x :: xs, c :: r => gadd c x :: addAt 0 xs r
  | i + 1, xs, c :: r => c :: addAt i xs r

/-- The loops of `pmul`: for each entry `p[i]` from entry `i` on, add `p[i]·q` into `r` at entry `i` (R163). -/
def pmulLoop : Nat → Poly → Poly → Poly → Poly
  | _, [], _, r => r
  | i, c :: p, q, r => pmulLoop (i + 1) p q (addAt i (q.map (fun d => gmul c d)) r)

/-- `pmul(p, q)`, the full convolution; empty if an operand is (R163, D19). -/
def pmul (p q : Poly) : Poly :=
  if p.length = 0 ∨ q.length = 0 then []
  else pmulLoop 0 p q (List.replicate (p.length + q.length - 1) 0x00)

/-- XOR over j in 0..n-1 of `f j`. -/
def xorSum (n : Nat) (f : Nat → Byte) : Byte := (List.range n).foldl (fun acc j => gadd acc (f j)) 0x00

/-- `pcoefat(p, q, k)`, the coefficient of degree k of p·q without the product (R164). -/
def pcoefat (p q : Poly) (k : Nat) : Byte := xorSum (k + 1) (fun j => gmul (coef p j) (coef q (k - j)))

/-- The loop of `pdivmod` (R165), `n` steps on the array `out`: each step divides the entry it stands on by the divisor's
leading entry `q0`, adds its product with the divisor's other entries `qs` into the entries after it, and moves on.
The results are the entries passed (the quotient) and the entries left. -/
def pdivLoop (q0 : Byte) (qs : Poly) : Nat → Poly → Poly × Poly
  | 0, out => ([], out)
  | _ + 1, [] => ([], [])
  | n + 1, c :: out =>
    let d := gquot c q0
    let rest := pdivLoop q0 qs n (addAt 0 (qs.map (fun e => gmul e d)) out)
    (d :: rest.1, rest.2)

/-- `pdivmod(p, q)`: quotient of max(len p - len q + 1, 0) entries, remainder of exactly len q - 1 entries aligned at the
low-order end; an empty or zero-led divisor faults (R165, D20). -/
def pdivmod (p : Poly) : Poly → Except Cause (Poly × Poly)
  | [] => .error .divisionByZero
  | q0 :: qs =>
    if q0 = 0x00 then .error .divisionByZero
    else
      let r := pdivLoop q0 qs (p.length + 1 - (qs.length + 1)) p
      .ok (r.1, (List.range qs.length).map (fun i => coef r.2 (qs.length - 1 - i)))

/-- `pderiv(p)`: entry i keeps p[i] where its exponent is odd, 0 elsewhere; one entry fewer (R166, 90_conflicts.md C10). -/
def pderiv (p : Poly) : Poly :=
  (List.range (p.length - 1)).map (fun i => if (p.length - 1 - i) % 2 = 1 then p.getD i 0x00 else 0x00)

end Sys2Proof.Machine
end

