-- ==== Sys2Proof/Machine/ReedSolomon.lean ====
section
/-! DEFINITION. The functions of the codec and of the decoder: generator polynomial and syndromes (43_codec.md R190, R193),
Berlekamp-Massey, position search, Forney and repair (44_decoder.md R220 to R225). -/

namespace Sys2Proof.Machine

/-- `alpha(i)`, the generator to the power i (41_field.md R133). -/
def alpha (i : Nat) : Byte := gexp i

/-- `generatorPoly(t)`: the product of (x + alpha^i) for i in 1..t (R190, 90_conflicts.md C4). -/
def generatorPoly : Nat → Poly
  | 0 => [0x01]
  | i + 1 => pmul (generatorPoly i) [0x01, alpha (i + 1)]

/-- `syndromes(r, t)`: entry j is r(alpha^(j+1)) (R193, D42). -/
def syndromes (r : Poly) (t : Nat) : List Byte := (List.range t).map (fun j => peval r (alpha (j + 1)))

/-- Every entry is 0x00 (R197, R225). -/
def allZero (s : List Byte) : Bool := s.all (fun v => v == 0x00)

/-- What Berlekamp-Massey carries from one iteration to the next: Λ and B by degree, coefficient of x^0 first, and L
(R220). -/
structure BMState where
  lam : List Byte
  b : List Byte
  len : Nat
  deriving DecidableEq, Repr

/-- The state before iteration 0: Λ = B = 1 over t + 1 entries, L = 0 (R220). -/
def bmStart (t : Nat) : BMState where
  lam := 0x01 :: List.replicate t 0x00
  b := 0x01 :: List.replicate t 0x00
  len := 0

/-- B shifted by one degree: a zero low-order term comes in, the entry of degree t goes out (R220). -/
def shiftUp (b : List Byte) : List Byte := 0x00 :: b.dropLast

/-- Δ of iteration i: XOR over j in 0..i of Λ_j·S_(i-j+1) (R220). -/
def discrepancy (lam syn : List Byte) (i : Nat) : Byte :=
  xorSum (i + 1) (fun j => gmul (lam.getD j 0x00) (syn.getD (i - j) 0x00))

/-- Iteration i (R220): the update of Λ uses B shifted and before its replacement; the swap's new B is the old Λ scaled by
the inverse of Δ, which is not zero there. -/
def bmStep (syn : List Byte) (st : BMState) (i : Nat) : BMState :=
  let b := shiftUp st.b
  let delta := discrepancy st.lam syn i
  if delta = 0x00 then { st with b := b }
  else
    let lam := List.zipWith (fun l c => gadd l (gmul delta c)) st.lam b
    if 2 * st.len ≤ i then
      { lam := lam, b := st.lam.map (fun c => gmul c (ginvOf delta)), len := i + 1 - st.len }
    else { lam := lam, b := b, len := st.len }

/-- `bm(syn, t)`: iterations 0..t-1 (R220). -/
def bm (syn : List Byte) (t : Nat) : BMState := (List.range t).foldl (bmStep syn) (bmStart t)

/-- `trim(lam, L)`: exactly L + 1 entries, most significant first (R221, D39, 90_conflicts.md C11). -/
def trim (st : BMState) : Poly := (List.range (st.len + 1)).map (fun i => st.lam.getD (st.len - i) 0x00)

/-- `findPositions(lam)`: the positions p in 0..254, increasing, whose element alpha^(255-p) is a root (R222, D24). -/
def findPositions (lam : Poly) : List Nat :=
  (List.range Config.groupOrder).filter (fun p => peval lam (alpha (255 - p)) == 0x00)

/-- `positionsValid(pos, npos, ldeg, n)` (R223, 90_conflicts.md C1), the positions given as the list of `npos` entries. -/
def positionsValid (pos : List Nat) (npos ldeg n : Nat) : Bool :=
  decide (npos = ldeg) && pos.all (fun p => decide (p < n))

/-- Ω(x) = (S(x)·Λ(x)) mod x^t, with S_1 the lowest-order term of S(x) (R224, 90_conflicts.md C14). -/
def errorEvaluator (syn : List Byte) (t : Nat) (lam : Poly) : Poly :=
  let prod := pmul ((List.range t).map (fun i => syn.getD (t - 1 - i) 0x00)) lam
  (List.range t).map (fun i => coef prod (t - 1 - i))

/-- The loop of `forney` over the positions: the magnitude at p goes to entry n-1-p; a zero derivative value faults before
the division, whatever the numerator (R224, 90_conflicts.md C5). -/
def forneyLoop (omega dl : Poly) (n : Nat) : List Nat → List Byte → Except Cause (List Byte)
  | [], e => .ok e
  | p :: pos, e =>
    let xinv := ginvOf (alpha p)
    let den := peval dl xinv
    if den = 0x00 then .error .magnitudeUndefined
    else forneyLoop omega dl n pos (e.set (n - 1 - p) (gquot (peval omega xinv) den))

/-- `forney(syn, t, lam, pos, npos, n)`: the error-magnitude polynomial e(x), n entries (R224). -/
def forney (syn : List Byte) (t : Nat) (lam : Poly) (pos : List Nat) (n : Nat) : Except Cause (List Byte) :=
  forneyLoop (errorEvaluator syn t lam) (pderiv lam) n pos (List.replicate n 0x00)

/-- MAGNITUDE_UNDEFINED is reported as UNCORRECTABLE inside repair (R225, D26, 90_conflicts.md C9). -/
def asDecodeFailure : Cause → Cause
  | .magnitudeUndefined => .uncorrectable
  | c => c

/-- The end of `repair`: the word with e(x) XORed in, if its syndromes are all zero (R225). -/
def finalCheck (r : List Byte) (t : Nat) (e : List Byte) : Except Cause (List Byte) :=
  let c := List.zipWith gadd r e
  if allZero (syndromes c t) then .ok c else .error .uncorrectable

/-- `repair(r, t)`, the decode orchestration (R225). -/
def repairWord (r : List Byte) (t : Nat) : Except Cause (List Byte) :=
  let s := syndromes r t
  if allZero s then .ok r
  else
    let st := bm s t
    let lam := trim st
    let pos := findPositions lam
    if positionsValid pos pos.length st.len r.length then
      match forney s t lam pos r.length with
      | .error c => .error (asDecodeFailure c)
      | .ok e => finalCheck r t e
    else .error .uncorrectable

end Sys2Proof.Machine
end

