-- ==== Sys2Proof/Machine/Operands.lean ====
section
/-! DEFINITION. The operands of the commands, each a fixed register or buffer read when the command executes
(30_encoding.md R93), and the configuration checks (43_codec.md R191, R192). -/

namespace Sys2Proof.Machine

/-- A register as an unsigned count (R93). -/
def State.count (s : State) (r : Reg) : Nat := (s.reg r).toNat

/-- Polynomial operand p = P[0..LP-1] (10_state.md R34, R49). -/
def polyP (s : State) : Poly := s.entries .p (s.count .lp)

/-- Polynomial operand q = Q[0..LQ-1] (R35, R50). -/
def polyQ (s : State) : Poly := s.entries .q (s.count .lq)

/-- The message BUF[0..K-1] (R28, R43). -/
def message (s : State) : List Byte := s.entries .buf (s.count .k)

/-- The received word BUF[0..N-1] (R29, R43). -/
def receivedWord (s : State) : List Byte := s.entries .buf (s.count .n)

/-- The syndrome vector SYN[0..T-1] (R44, D44). -/
def syndromeVector (s : State) : List Byte := s.entries .syn (s.count .t)

/-- The locator LAM[0..LDEG], LDEG + 1 entries (R39, R45). -/
def locatorPoly (s : State) : Poly := s.entries .lam (s.count .ldeg + 1)

/-- The positions POS[0..NPOS-1] as integers (R40, R46). -/
def positionList (s : State) : List Nat := (s.entries .pos (s.count .npos)).map (fun v => v.toNat)

/-- A count as a register holds it; every count a command writes is at most 255 (42_poly.md R174, 44_decoder.md R226). -/
def countByte (n : Nat) : Byte := BitVec.ofNat 8 n

/-- `check_t()`, then the rest of the command (43_codec.md R191). -/
def checkT (s : State) (rest : Except Cause State) : Except Cause State :=
  if s.count .t = 0 then .error .configurationError else rest

/-- `check_n()`, then the rest of the command (R192). -/
def checkN (s : State) (rest : Except Cause State) : Except Cause State :=
  if s.count .n < s.count .t then .error .configurationError else rest

end Sys2Proof.Machine
end

