-- ==== Sys2Proof/Machine/CodecUnit.lean ====
section
/-! DEFINITION. The codec commands (43_codec.md R194 to R198). -/

namespace Sys2Proof.Machine

/-- GENPOLY (R194). -/
def execGenpoly (s : State) : Host.Outcome State Fault Refusal :=
  conclude s (checkT s (.ok (s.setBuf .gen (generatorPoly (s.count .t)))))

/-- The codeword `m ‖ remainder` of a message, the remainder of `m ‖ 0^t` divided by the generator polynomial (R195). -/
def encodeWord (m : List Byte) (t : Nat) : Except Cause (List Byte) :=
  (pdivmod (m ++ List.replicate t 0x00) (generatorPoly t)).map (fun d => m ++ d.2)

/-- ENCODE (R195). -/
def execEncode (s : State) : Host.Outcome State Fault Refusal :=
  conclude s (checkT s
    (if 255 < s.count .k + s.count .t then .error .configurationError
     else (encodeWord (message s) (s.count .t)).map
       (fun c => (s.setBuf .buf c).setReg .n (countByte (s.count .k + s.count .t)))))

/-- SYNDROMES (R196). -/
def execSyndromes (s : State) : Host.Outcome State Fault Refusal :=
  conclude s (checkT s (checkN s (.ok (s.setBuf .syn (syndromes (receivedWord s) (s.count .t))))))

/-- CHECK (R197). -/
def execCheck (s : State) : Host.Outcome State Fault Refusal :=
  conclude s (checkT s (checkN s
    (.ok (s.setReg .y (boolByte (allZero (syndromes (receivedWord s) (s.count .t))))))))

/-- The word without its last t symbols in BUF, its length in K (R198, 44_decoder.md R230). -/
def toMessage (s : State) (word : List Byte) : State :=
  (s.setBuf .buf (word.take (s.count .n - s.count .t))).setReg .k (countByte (s.count .n - s.count .t))

/-- STRIP (R198). -/
def execStrip (s : State) : Host.Outcome State Fault Refusal :=
  conclude s (checkT s (checkN s (.ok (toMessage s (receivedWord s)))))

end Sys2Proof.Machine
end

