-- ==== Sys2Proof/Machine/DecoderUnit.lean ====
section
/-! DEFINITION. The decoder commands (44_decoder.md R226 to R230). -/

namespace Sys2Proof.Machine

/-- A locator in LAM and its degree L in LDEG (R226). -/
def toLocator (s : State) (st : BMState) : State := (s.setBuf .lam (trim st)).setReg .ldeg (countByte st.len)

/-- LOCATOR (R226). -/
def execLocator (s : State) : Host.Outcome State Fault Refusal :=
  conclude s (checkT s (.ok (toLocator s (bm (syndromeVector s) (s.count .t)))))

/-- Positions in POS, their number in NPOS, their validity in Y (R227). -/
def toPositions (s : State) (pos : List Nat) : State :=
  ((s.setBuf .pos (pos.map countByte)).setReg .npos (countByte pos.length)).setReg .y
    (boolByte (positionsValid pos pos.length (s.count .ldeg) (s.count .n)))

/-- POSITIONS (R227): no fault, and T is not read. -/
def execPositions (s : State) : Host.Outcome State Fault Refusal :=
  conclude s (.ok (toPositions s (findPositions (locatorPoly s))))

/-- MAGNITUDES (R228). -/
def execMagnitudes (s : State) : Host.Outcome State Fault Refusal :=
  conclude s (checkT s (checkN s
    (if positionsValid (positionList s) (s.count .npos) (s.count .ldeg) (s.count .n) then
       (forney (syndromeVector s) (s.count .t) (locatorPoly s) (positionList s) (s.count .n)).map
         (fun e => s.setBuf .emag e)
     else .error .uncorrectable)))

/-- REPAIR (R229). -/
def execRepair (s : State) : Host.Outcome State Fault Refusal :=
  conclude s (checkT s (checkN s
    ((repairWord (receivedWord s) (s.count .t)).map (fun c => s.setBuf .buf c))))

/-- DECODE (R230). -/
def execDecode (s : State) : Host.Outcome State Fault Refusal :=
  conclude s (checkT s (checkN s
    ((repairWord (receivedWord s) (s.count .t)).map (fun c => toMessage s c))))

end Sys2Proof.Machine
end

