-- ==== Sys2Proof/Machine/FieldUnit.lean ====
section
/-! DEFINITION. The field commands (41_field.md R141 to R147): operands A, B, PW; result Y. -/

namespace Sys2Proof.Machine

/-- The result of a field command goes to Y; a fault writes no result. -/
def toY (s : State) (v : Except Cause Byte) : Except Cause State := v.map (fun w => s.setReg .y w)

/-- FADD (R141). -/
def execFadd (s : State) : Host.Outcome State Fault Refusal := conclude s (toY s (.ok (gadd (s.reg .a) (s.reg .b))))

/-- FMUL (R142). -/
def execFmul (s : State) : Host.Outcome State Fault Refusal := conclude s (toY s (.ok (gmul (s.reg .a) (s.reg .b))))

/-- FDIV (R143): DIVISION_BY_ZERO when A ≠ 0 and B = 0. -/
def execFdiv (s : State) : Host.Outcome State Fault Refusal := conclude s (toY s (gdiv (s.reg .a) (s.reg .b)))

/-- FINV (R144): DIVISION_BY_ZERO when A = 0. -/
def execFinv (s : State) : Host.Outcome State Fault Refusal := conclude s (toY s (ginv (s.reg .a)))

/-- FPOW (R145). -/
def execFpow (s : State) : Host.Outcome State Fault Refusal :=
  conclude s (toY s (.ok (gpow (s.reg .a) (s.count .pw))))

/-- FEXP (R146). -/
def execFexp (s : State) : Host.Outcome State Fault Refusal := conclude s (toY s (.ok (gexp (s.count .a))))

/-- FLOG (R147): LOG_OF_ZERO when A = 0. -/
def execFlog (s : State) : Host.Outcome State Fault Refusal :=
  conclude s (toY s ((glog (s.reg .a)).map countByte))

end Sys2Proof.Machine
end

