-- ==== Sys2Proof/Machine/PolyUnit.lean ====
section
/-! DEFINITION. The polynomial commands (42_poly.md R167 to R174): operands P, LP, Q, LQ, A, KD; results Y, or R, LR, R2,
LR2 with the tail rule (10_state.md R55). -/

namespace Sys2Proof.Machine

/-- A polynomial result in R, its length in LR (R36, R51). -/
def toR (s : State) (r : Poly) : State := (s.setBuf .r r).setReg .lr (countByte r.length)

/-- A remainder in R2, its length in LR2 (R37, R52). -/
def toR2 (s : State) (r : Poly) : State := (s.setBuf .r2 r).setReg .lr2 (countByte r.length)

/-- PEVAL (R167). -/
def execPeval (s : State) : Host.Outcome State Fault Refusal :=
  conclude s (.ok (s.setReg .y (peval (polyP s) (s.reg .a))))

/-- PCOEF (R168). -/
def execPcoef (s : State) : Host.Outcome State Fault Refusal :=
  conclude s (.ok (s.setReg .y (pcoefat (polyP s) (polyQ s) (s.count .kd))))

/-- PSCALE (R169). -/
def execPscale (s : State) : Host.Outcome State Fault Refusal :=
  conclude s (.ok (toR s (pscale (polyP s) (s.reg .a))))

/-- PADD (R170). -/
def execPadd (s : State) : Host.Outcome State Fault Refusal := conclude s (.ok (toR s (padd (polyP s) (polyQ s))))

/-- PMUL (R171): LENGTH_ERROR when the product of two operands that are not empty would exceed 255 entries. -/
def execPmul (s : State) : Host.Outcome State Fault Refusal :=
  conclude s
    (if 1 ≤ s.count .lp ∧ 1 ≤ s.count .lq ∧ 255 < s.count .lp + s.count .lq - 1 then .error .lengthError
     else .ok (toR s (pmul (polyP s) (polyQ s))))

/-- PDIV (R172): quotient in R, remainder in R2; DIVISION_BY_ZERO before any write. -/
def execPdiv (s : State) : Host.Outcome State Fault Refusal :=
  conclude s ((pdivmod (polyP s) (polyQ s)).map (fun d => toR2 (toR s d.1) d.2))

/-- PDERIV (R173). -/
def execPderiv (s : State) : Host.Outcome State Fault Refusal := conclude s (.ok (toR s (pderiv (polyP s))))

end Sys2Proof.Machine
end

