-- ==== Sys2Proof/Machine/SystemUnit.lean ====
section
/-! DEFINITION. The system commands (40_system.md R120, R121). -/

namespace Sys2Proof.Machine

/-- NOP (R120): nothing but the success, which clears an earlier fault record. -/
def execNop (s : State) : Host.Outcome State Fault Refusal := conclude s (.ok s)

/-- Every scalar register other than ID, VER and CMD at its reset value 0x00 (R121, 70_reset_and_hazards.md R342). -/
def clearRegisters (s : State) : State :=
  { s with
    status := 0x00, cause := 0x00, t := 0x00, k := 0x00, n := 0x00, a := 0x00, b := 0x00, pw := 0x00, y := 0x00,
    lp := 0x00, lq := 0x00, lr := 0x00, lr2 := 0x00, kd := 0x00, ldeg := 0x00, npos := 0x00 }

/-- SRESET (R121): the registers cleared, then STATUS 0x02; buffers and tables kept. -/
def execSreset (s : State) : Host.Outcome State Fault Refusal := conclude s (.ok (clearRegisters s))

end Sys2Proof.Machine
end

