-- ==== Sys2Proof/Machine/Dispatch.lean ====
section
/-! DEFINITION. One arm per command (30_encoding.md R92). -/

namespace Sys2Proof.Machine

open Sys2Proof

/-- `execute(v)` with its commit (30_encoding.md R91). -/
def exec (i : Instr) (s : State) : Host.Outcome State Fault Refusal :=
  match i with
  | .nop => Sys2Proof.Machine.execNop s
  | .sreset => Sys2Proof.Machine.execSreset s
  | .fadd => Sys2Proof.Machine.execFadd s
  | .fmul => Sys2Proof.Machine.execFmul s
  | .fdiv => Sys2Proof.Machine.execFdiv s
  | .finv => Sys2Proof.Machine.execFinv s
  | .fpow => Sys2Proof.Machine.execFpow s
  | .fexp => Sys2Proof.Machine.execFexp s
  | .flog => Sys2Proof.Machine.execFlog s
  | .peval => Sys2Proof.Machine.execPeval s
  | .pcoef => Sys2Proof.Machine.execPcoef s
  | .pscale => Sys2Proof.Machine.execPscale s
  | .padd => Sys2Proof.Machine.execPadd s
  | .pmul => Sys2Proof.Machine.execPmul s
  | .pdiv => Sys2Proof.Machine.execPdiv s
  | .pderiv => Sys2Proof.Machine.execPderiv s
  | .genpoly => Sys2Proof.Machine.execGenpoly s
  | .encode => Sys2Proof.Machine.execEncode s
  | .syndromes => Sys2Proof.Machine.execSyndromes s
  | .check => Sys2Proof.Machine.execCheck s
  | .strip => Sys2Proof.Machine.execStrip s
  | .locator => Sys2Proof.Machine.execLocator s
  | .positions => Sys2Proof.Machine.execPositions s
  | .magnitudes => Sys2Proof.Machine.execMagnitudes s
  | .repair => Sys2Proof.Machine.execRepair s
  | .decode => Sys2Proof.Machine.execDecode s

end Sys2Proof.Machine
end

