-- ==== Sys2Proof/Machine/Step.lean ====
section
/-! DEFINITION. One step of the machine: the host's next bus access, which is a whole command where it writes CMD
(30_encoding.md R91), and the placing of a command where the next step takes it. -/

namespace Sys2Proof.Machine

/-- One step: an access done, a command issued and executed (a reserved one faults, R94), or an access that is not
admitted and is refused (70_reset_and_hazards.md R345). -/
def step (s : State) : Host.Outcome State Fault Refusal :=
  match hostAccess s with
  | .done u => .next u
  | .issue v u =>
    match decode v with
    | .ok i => exec i u
    | .error _ => illegalCommand u
  | .notAdmitted => .refused .busyAccess

/-- `s` with the command whose byte is the low byte of the word placed where the next step takes it: as the host's next
access, a write to CMD (R91; log entry 1). -/
def State.withFetchWord (s : State) (nbits w : Nat) : State := s.withCommand (BitVec.ofNat 8 (w % 2 ^ nbits))

end Sys2Proof.Machine
end

