-- ==== Sys2Proof/Machine/HostProgram.lean ====
section
/-! DEFINITION. The host program lines and pseudo-instructions and the bus accesses they stand for (30_encoding.md R96 to
R98). A host program is the list of its accesses; its control flow is the host's own and no part of RS-CORE (R96, R99). -/

namespace Sys2Proof.Machine

/-- The bus address of a register (10_state.md R22). -/
def Reg.addr : Reg → Addr
  | .cmd => 0x002
  | .status => 0x003
  | .cause => 0x004
  | .t => 0x005
  | .k => 0x006
  | .n => 0x007
  | .a => 0x008
  | .b => 0x009
  | .pw => 0x00A
  | .y => 0x00B
  | .lp => 0x00C
  | .lq => 0x00D
  | .lr => 0x00E
  | .lr2 => 0x00F
  | .kd => 0x010
  | .ldeg => 0x011
  | .npos => 0x012

/-- The bus address of a buffer entry (R42). -/
def Buf.addr (b : Buf) (i : Nat) : Addr := BitVec.ofNat 12 (b.base + i)

/-- `WR <reg>, <imm8>` (R96). -/
def hostWr (r : Reg) (v : Byte) : Transaction := .write r.addr v

/-- `WR <buf>[<i>], <imm8>` (R96). -/
def hostWrEntry (b : Buf) (i : Nat) (v : Byte) : Transaction := .write (b.addr i) v

/-- `RD <reg>` (R96). -/
def hostRd (r : Reg) : Transaction := .read r.addr

/-- `RD <buf>[<i>]` (R96). -/
def hostRdEntry (b : Buf) (i : Nat) : Transaction := .read (b.addr i)

/-- A mnemonic alone: `WR CMD, <opcode>` (R96). -/
def hostCommand (i : Instr) : Transaction := hostWr .cmd (encode i)

/-- `WRBUF <buf>, <i>, b0 b1 ... bm` (R97). -/
def hostWrBuf (b : Buf) (i : Nat) (vs : List Byte) : List Transaction :=
  vs.zipIdx.map (fun c => hostWrEntry b (i + c.2) c.1)

/-- `RDBUF <buf>, <i>, <m>` (R97). -/
def hostRdBuf (b : Buf) (i m : Nat) : List Transaction := (List.range m).map (fun j => hostRdEntry b (i + j))

/-- `FSUB` is FADD (R97). -/
def hostFsub : Transaction := hostCommand .fadd

/-- `PSUB` is PADD (R97). -/
def hostPsub : Transaction := hostCommand .padd

/-- `ISVALID` is CHECK (R97). -/
def hostIsvalid : Transaction := hostCommand .check

end Sys2Proof.Machine
end

