-- ==== Sys2Proof/Safety.lean ====
section
/-! DEFINITION. The terms claims are stated in: what a command leaves unchanged, how it completes and how it faults, the
invariant every step keeps, and the launch premises of 70_reset_and_hazards.md R353. -/

namespace Sys2Proof.Machine

/-- Address `a` is one of the 256 bytes of buffer `b` (10_state.md R42). -/
def Buf.holds (b : Buf) (a : Nat) : Prop := b.base ≤ a ∧ a < b.base + 256

/-- Every register but those of `rs` reads the same. -/
def SameRegsBut (rs : List Reg) (s u : State) : Prop := ∀ r : Reg, r ∉ rs → u.reg r = s.reg r

/-- Every byte of memory outside the buffers of `bs` reads the same. -/
def SameBytesBut (bs : List Buf) (s u : State) : Prop :=
  ∀ a : Nat, (∀ b ∈ bs, ¬ b.holds a) → Memory.read u.mem a = Memory.read s.mem a

/-- The host's side of the bus and the BUSY time are the same. -/
def SameBus (s u : State) : Prop :=
  u.bus = s.bus ∧ u.reads = s.reads ∧ u.draws = s.draws ∧ u.busy = s.busy ∧ u.latencies = s.latencies

/-- FRAME OF A COMMAND THAT SUCCEEDS: it writes at most the registers `rs`, STATUS, CAUSE and the buffers `bs`. -/
def Frame (rs : List Reg) (bs : List Buf) (s u : State) : Prop :=
  SameRegsBut (.status :: .cause :: rs) s u ∧ SameBytesBut bs s u ∧ SameBus s u

/-- The command succeeds (30_encoding.md R91): STATUS = 0x02 and CAUSE = 0x00, and nothing is written but `rs` and `bs`. -/
def Succeeds (rs : List Reg) (bs : List Buf) (s u : State) : Prop :=
  u.reg .status = 0x02 ∧ u.reg .cause = 0x00 ∧ Frame rs bs s u

/-- The command faults (60_exceptions.md R301): the state before it, but for STATUS = 0x06 and the code in CAUSE. -/
def FaultsWith (code : Byte) (s u : State) : Prop := u = { s with status := 0x06, cause := code }

/-- The buffer holds `vs` and then 0x00 to its end (10_state.md R55). -/
def BufHolds (u : State) (b : Buf) (vs : List Byte) : Prop :=
  vs.length ≤ 256 ∧ ∀ i, i < 256 → u.entry b i = vs.getD i 0x00

/-- The memory invariant: canonical form, and nothing listed outside the ten buffers (R42). -/
def Memory.Inv (m : Memory) : Prop := Memory.wf m = true ∧ ∀ c ∈ m, 0x100 ≤ c.1 ∧ c.1 < 0xB00

/-- The record invariant: STATUS is 0x00, 0x02 or 0x06 when no command executes (R25), CAUSE is 0x00 to 0x07 (R26), and
CAUSE is 0x00 exactly when ERR is 0. -/
def RecordInv (s : State) : Prop :=
  (s.status = 0x00 ∨ s.status = 0x02 ∨ s.status = 0x06) ∧ s.cause.toNat ≤ 7 ∧ (s.cause = 0x00 ↔ s.status ≠ 0x06)

/-- The invariant every step keeps. -/
def Inv (s : State) : Prop := Memory.Inv s.mem ∧ RecordInv s

/-- The state after power-on reset (R341), for any canonical buffer contents. -/
def PowerOnReset (s : State) : Prop :=
  ∃ contents latencies program, Memory.Inv contents ∧ s = State.powerOn contents latencies program

/-- The state after SRESET (R342), its BUSY time over: BUSY = 0, CMD 0x01, STATUS 0x02, every other scalar register 0x00,
the buffers any contents. -/
def SoftReset (s : State) : Prop :=
  s.busy = 0 ∧ s.reg .cmd = 0x01 ∧ s.reg .status = 0x02 ∧ (∀ r : Reg, r ≠ .cmd → r ≠ .status → s.reg r = 0x00) ∧
    Memory.Inv s.mem

/-- Launch premise `clean_reset`: the state of R341, or of R342 after SRESET (R353). -/
def CleanReset (s : State) : Prop := PowerOnReset s ∨ SoftReset s

/-- Launch premise `configured(t)` (R353). -/
def Configured (t : Nat) (s : State) : Prop := s.count .t = t ∧ 1 ≤ t ∧ t ≤ 255

/-- Launch premise `not_busy` (R353). -/
def NotBusy (s : State) : Prop := s.busy = 0

/-- The step from `s` issues a command, a reserved one included (R91). -/
def commandIssued (s : State) : Bool :=
  match hostAccess s with
  | .issue _ _ => true
  | .done _ => false
  | .notAdmitted => false

/-- Launch premise `no_fault_recorded` (R353), for the run of `k` steps from `s`: no step of it is refused, and EVERY command
of it, not the last alone, ended with ERR = 0 (R352). -/
def NoFaultRecorded : Nat → State → Prop
  | 0, _ => True
  | k + 1, s => ∃ u, step s = .next u ∧ (commandIssued s = true → errBit (u.reg .status) = false) ∧ NoFaultRecorded k u

/-- The end of a run: no host access is pending and no command executes (R352). -/
def RunEnded (s : State) : Prop := s.bus = [] ∧ s.busy = 0

/-- A safe step: the host is not refused, so it kept to the BUSY rule (R345). -/
def SafeStep (s : State) : Prop := step s ≠ .refused .busyAccess

/-- The byte a host read of address `a` would return (20_memory.md R62). -/
def hostView (s : State) (a : Addr) : Byte := (Loc.ofAddr a).read s

/-- The registers a command reads (30_encoding.md R93). -/
def readsRegs : Instr → List Reg
  | .nop | .sreset => []
  | .fadd | .fmul | .fdiv => [.a, .b]
  | .finv | .fexp | .flog => [.a]
  | .fpow => [.a, .pw]
  | .peval | .pscale => [.lp, .a]
  | .pcoef => [.lp, .lq, .kd]
  | .padd | .pmul | .pdiv => [.lp, .lq]
  | .pderiv => [.lp]
  | .genpoly | .locator => [.t]
  | .encode => [.t, .k]
  | .syndromes | .check | .strip | .repair | .decode => [.t, .n]
  | .positions => [.ldeg, .n]
  | .magnitudes => [.t, .n, .ldeg, .npos]

/-- The buffers a command reads (R93). -/
def readsBufs : Instr → List Buf
  | .nop | .sreset | .fadd | .fmul | .fdiv | .finv | .fexp | .flog | .fpow | .genpoly => []
  | .peval | .pscale | .pderiv => [.p]
  | .pcoef | .padd | .pmul | .pdiv => [.p, .q]
  | .encode | .syndromes | .check | .strip | .repair | .decode => [.buf]
  | .locator => [.syn]
  | .positions => [.lam]
  | .magnitudes => [.syn, .lam, .pos]

/-- The registers a command writes on success, STATUS and CAUSE apart (R93). -/
def writesRegs : Instr → List Reg
  | .nop | .genpoly | .syndromes | .magnitudes | .repair => []
  | .sreset => [.t, .k, .n, .a, .b, .pw, .y, .lp, .lq, .lr, .lr2, .kd, .ldeg, .npos]
  | .fadd | .fmul | .fdiv | .finv | .fexp | .flog | .fpow | .peval | .pcoef | .check => [.y]
  | .pscale | .padd | .pmul | .pderiv => [.lr]
  | .pdiv => [.lr, .lr2]
  | .encode => [.n]
  | .strip | .decode => [.k]
  | .locator => [.ldeg]
  | .positions => [.npos, .y]

/-- The buffers a command writes on success (R93). -/
def writesBufs : Instr → List Buf
  | .nop | .sreset | .fadd | .fmul | .fdiv | .finv | .fexp | .flog | .fpow | .peval | .pcoef | .check => []
  | .pscale | .padd | .pmul | .pderiv => [.r]
  | .pdiv => [.r, .r2]
  | .genpoly => [.gen]
  | .encode | .strip | .repair | .decode => [.buf]
  | .syndromes => [.syn]
  | .locator => [.lam]
  | .positions => [.pos]
  | .magnitudes => [.emag]

/-- The cause codes a command can raise (60_exceptions.md R302). -/
def causesOf : Instr → List Byte
  | .nop | .sreset | .fadd | .fmul | .fpow | .fexp | .peval | .pcoef | .pscale | .padd | .pderiv | .positions => []
  | .fdiv | .finv | .pdiv => [0x03]
  | .flog => [0x05]
  | .pmul => [0x06]
  | .genpoly | .encode | .syndromes | .check | .strip | .locator => [0x01]
  | .magnitudes => [0x01, 0x02, 0x04]
  | .repair | .decode => [0x01, 0x02]

/-- The product of two elements as polynomials over GF(2), reduced by 0x11D (41_field.md R149): the sum of the shifted and
reduced multiples of `x` for the bits of `y`. It uses no table. -/
def carrylessProduct (x y : Byte) : Byte :=
  xorSum 8 (fun i => if y.getLsbD i then xtime^[i] x else 0x00)

/-- `x` multiplied with itself `p` times, starting from 1. -/
def repeatedProduct (x : Byte) (p : Nat) : Byte := (gmul x)^[p] 0x01

/-- A word whose syndromes at alpha^1..alpha^t are all zero: a valid codeword (43_codec.md R193, R197). -/
def ValidWord (w : List Byte) (t : Nat) : Prop := ∀ i, 1 ≤ i → i ≤ t → peval w (alpha i) = 0x00

/-- Λ'(X⁻¹) for the element X = alpha^p of position `p` (44_decoder.md R224): the denominator of its magnitude. -/
def derivativeAt (lam : Poly) (p : Nat) : Byte := peval (pderiv lam) (alpha (255 - p))

/-- Ω(X⁻¹) for the element X = alpha^p of position `p` (R224): the numerator of its magnitude; the coefficient of x^j in Ω is
that of the product of S(x), with S_1 its lowest-order term, and Λ(x), for j below t. -/
def evaluatorAt (syn : List Byte) (t : Nat) (lam : Poly) (p : Nat) : Byte :=
  xorSum t (fun j => gmul (pcoefat ((List.range t).map (fun i => syn.getD (t - 1 - i) 0x00)) lam j)
    (gpow (alpha (255 - p)) j))

/-- The locator repair finds for a received word (R225): its degree L and its L + 1 entries, most significant first. -/
def repairLocator (r : List Byte) (t : Nat) : Nat × Poly :=
  ((bm (syndromes r t) t).len, trim (bm (syndromes r t) t))

/-- The positions repair finds for a received word (R222, R225). -/
def repairPositions (r : List Byte) (t : Nat) : List Nat := findPositions (repairLocator r t).2

/-- The positions repair finds pass its check (R223, R225): as many as the locator's degree, all within the word. -/
def RepairPositionsValid (r : List Byte) (t : Nat) : Prop :=
  (repairPositions r t).length = (repairLocator r t).1 ∧ ∀ p ∈ repairPositions r t, p < r.length

/-- The number of entries of BUF below `n` in which the two states differ: the number of symbol errors (44_decoder.md R231). -/
def errorCount (n : Nat) (s u : State) : Nat := ((List.range n).filter (fun i => s.entry .buf i != u.entry .buf i)).length

end Sys2Proof.Machine
end

