-- ==== Sys2Proof/Certificates/Slice0/Obligations.lean ====
section
/-! DEFINITION. The statements for the provers, each from the numbered rules of spec/. `Succeeds`, `FaultsWith`, `Frame` and
the tables of 30_encoding.md R93 are in Safety.lean; a state's numbers are written `s.count`, its bytes `s.reg`. -/

open Sys2Proof Sys2Proof.Machine

/-! ### Encoding and step -/

/-- R92: the opcode map, row by row, and every other byte reserved. -/
def Obligations.OpcodeMapDecodes : Prop :=
  (decode 0x00 = .ok .nop ∧ decode 0x01 = .ok .sreset) ∧
  (decode 0x10 = .ok .fadd ∧ decode 0x11 = .ok .fmul ∧ decode 0x12 = .ok .fdiv ∧ decode 0x13 = .ok .finv ∧
    decode 0x14 = .ok .fpow ∧ decode 0x15 = .ok .fexp ∧ decode 0x16 = .ok .flog) ∧
  (decode 0x20 = .ok .peval ∧ decode 0x21 = .ok .pcoef ∧ decode 0x22 = .ok .pscale ∧ decode 0x23 = .ok .padd ∧
    decode 0x24 = .ok .pmul ∧ decode 0x25 = .ok .pdiv ∧ decode 0x26 = .ok .pderiv) ∧
  (decode 0x30 = .ok .genpoly ∧ decode 0x31 = .ok .encode ∧ decode 0x32 = .ok .syndromes ∧ decode 0x33 = .ok .check ∧
    decode 0x34 = .ok .strip) ∧
  (decode 0x40 = .ok .locator ∧ decode 0x41 = .ok .positions ∧ decode 0x42 = .ok .magnitudes ∧
    decode 0x43 = .ok .repair ∧ decode 0x44 = .ok .decode) ∧
  (∀ v : Byte, v ∉ ([0x00, 0x01, 0x10, 0x11, 0x12, 0x13, 0x14, 0x15, 0x16, 0x20, 0x21, 0x22, 0x23, 0x24, 0x25, 0x26,
      0x30, 0x31, 0x32, 0x33, 0x34, 0x40, 0x41, 0x42, 0x43, 0x44] : List Byte) →
    decode v = .error (.reservedOpcode v))

/-- R90, R92, R95: the encoder and the decoder are inverse to each other, so the same byte always selects the same command
and no two bytes select one; and a byte decodes exactly when its UNIT and FUNC are defined. -/
def Obligations.DecodeEncodeInverse : Prop :=
  (∀ i : Instr, decode (encode i) = .ok i) ∧ (∀ (v : Byte) (i : Instr), decode v = .ok i → encode i = v) ∧
  (∀ v : Byte, WellFormed.commandByte v = true ↔ ∃ i, decode v = .ok i)

/-- R91: a host write of v to CMD (0x002), admitted because BUSY = 0, executes the command v on the state in which CMD
holds v and the command's BUSY time has started; a command placed by withFetchWord is taken so. That the host's accesses
stand in a list of the state, and the latencies in another, is the model's form (log entries 1 and 2). -/
def Obligations.StepRunsDecodedCommand : Prop :=
  (∀ (s : State) (v : Byte) (rest : List Transaction) (i : Instr),
    s.busy = 0 → s.bus = .write 0x002 v :: rest → decode v = .ok i →
      step s = exec i { s with bus := rest, cmd := v, busy := s.latencies.headD 0, latencies := s.latencies.tail }) ∧
  (∀ (s : State) (w : Nat) (i : Instr), decodeTableWord 8 w = some i →
      step (s.withFetchWord 8 w) = exec i (s.issued (BitVec.ofNat 8 (w % 256))))

/-- R94: the reserved bytes are those in these five ranges, and writing one to CMD while BUSY = 0 faults with
ILLEGAL_COMMAND (0x07) and changes nothing but CMD, STATUS and CAUSE. -/
def Obligations.ReservedOpcodeFaults : Prop :=
  (∀ v : Byte, decode v = .error (.reservedOpcode v) ↔
    ((0x02 ≤ v.toNat ∧ v.toNat ≤ 0x0F) ∨ (0x17 ≤ v.toNat ∧ v.toNat ≤ 0x1F) ∨ (0x27 ≤ v.toNat ∧ v.toNat ≤ 0x2F) ∨
      (0x35 ≤ v.toNat ∧ v.toNat ≤ 0x3F) ∨ (0x45 ≤ v.toNat ∧ v.toNat ≤ 0xFF))) ∧
  ∀ (s : State) (v : Byte) (rest : List Transaction), s.busy = 0 → s.bus = .write 0x002 v :: rest →
    ((0x02 ≤ v.toNat ∧ v.toNat ≤ 0x0F) ∨ (0x17 ≤ v.toNat ∧ v.toNat ≤ 0x1F) ∨ (0x27 ≤ v.toNat ∧ v.toNat ≤ 0x2F) ∨
      (0x35 ≤ v.toNat ∧ v.toNat ≤ 0x3F) ∨ (0x45 ≤ v.toNat ∧ v.toNat ≤ 0xFF)) →
    ∃ u : State, step s = .next u ∧ u.reg .cmd = v ∧ u.reg .status = 0x06 ∧ u.reg .cause = 0x07 ∧
      SameRegsBut [.cmd, .status, .cause] s u ∧ u.mem = s.mem ∧ u.bus = rest ∧ u.reads = s.reads ∧ u.draws = s.draws

/-! ### The host bus -/

/-- R62, R64, R66, with the map of R61 and the windows of R53 and R54: what a host read returns while BUSY = 0, and that it
leaves everything else as it was; the read of LOGT entry 0 returns the next draw of the free value (log entry 4). -/
def Obligations.HostReadReturns : Prop :=
  ∀ (s : State) (a : Addr) (rest : List Transaction), s.busy = 0 → s.bus = .read a :: rest →
    ∃ v : Byte,
      step s = .next { s with
        bus := rest, reads := v :: s.reads, draws := if a = 0xC00 then s.draws + 1 else s.draws } ∧
      (if a = 0x000 then v = 0x52 else if a = 0x001 then v = 0x01 else if a = 0x002 then v = s.cmd
       else if a = 0x003 then v = s.status else if a = 0x004 then v = s.cause else if a = 0x005 then v = s.t
       else if a = 0x006 then v = s.k else if a = 0x007 then v = s.n else if a = 0x008 then v = s.a
       else if a = 0x009 then v = s.b else if a = 0x00A then v = s.pw else if a = 0x00B then v = s.y
       else if a = 0x00C then v = s.lp else if a = 0x00D then v = s.lq else if a = 0x00E then v = s.lr
       else if a = 0x00F then v = s.lr2 else if a = 0x010 then v = s.kd else if a = 0x011 then v = s.ldeg
       else if a = 0x012 then v = s.npos else if a.toNat < 0x100 then v = 0x00
       else if a.toNat < 0xB00 then v = Memory.read s.mem a.toNat
       else if a.toNat < 0xC00 then v = gexp (a.toNat - 0xB00)
       else if a = 0xC00 then v = Config.logt0Value s.draws
       else if a.toNat < 0xD00 then gexp v.toNat = BitVec.ofNat 8 (a.toNat - 0xC00) ∧ v ≠ 0xFF
       else v = 0x00)

/-- R63, R64, R65: a host write to any address but CMD (0x002) while BUSY = 0 makes that address, where it is writable,
read as the byte written, and changes what no other address reads as; at a read-only or reserved address it changes
nothing. Every register but the one written, and everything else, is as before. -/
def Obligations.HostWriteStores : Prop :=
  ∀ (s : State) (a : Addr) (v : Byte) (rest : List Transaction), Memory.Inv s.mem → s.busy = 0 →
    s.bus = .write a v :: rest → a ≠ 0x002 →
    ∃ u : State, step s = .next u ∧ u.bus = rest ∧ u.reads = s.reads ∧ u.draws = s.draws ∧ u.busy = s.busy ∧
      u.latencies = s.latencies ∧ u.cmd = s.cmd ∧ u.status = s.status ∧ u.cause = s.cause ∧
      ∀ x : Addr, hostView u x =
        if x = a ∧ ((0x005 ≤ a.toNat ∧ a.toNat ≤ 0x00A) ∨ (0x00C ≤ a.toNat ∧ a.toNat ≤ 0x00D) ∨
            (0x010 ≤ a.toNat ∧ a.toNat ≤ 0x012) ∨ (0x100 ≤ a.toNat ∧ a.toNat < 0x500) ∨
            (0x700 ≤ a.toNat ∧ a.toNat < 0x900))
        then v else hostView s x

/-- R345: while BUSY = 1 a STATUS read returns 0x01 and takes a bus cycle, WAIT goes on polling, an idle cycle passes, and
every other access is refused; and no access is refused otherwise. That a bus cycle without an access passes BUSY time and
does nothing else is the model's choice (log entries 1 and 2), and so is the refusal's being one step's (log entry 5). -/
def Obligations.BusyAccessRefused : Prop :=
  (∀ (s : State) (rest : List Transaction), s.busy ≠ 0 → s.bus = .read 0x003 :: rest →
    step s = .next { s with bus := rest, reads := 0x01 :: s.reads, busy := s.busy - 1 }) ∧
  (∀ (s : State) (rest : List Transaction), s.busy ≠ 0 → s.bus = .wait :: rest →
    step s = .next { s with reads := 0x01 :: s.reads, busy := s.busy - 1 }) ∧
  (∀ s : State, s.bus = [] → step s = .next { s with busy := s.busy - 1 }) ∧
  (∀ (s : State) (r : Refusal), step s = .refused r ↔
    r = .busyAccess ∧ s.busy ≠ 0 ∧
      ((∃ a v rest, s.bus = .write a v :: rest) ∨ ∃ a rest, s.bus = .read a :: rest ∧ a ≠ 0x003))

/-- R91, R97, R345, R350: a command written to CMD and waited for with WAIT is done after its `exec_latency` k: after the
step of the write, k polls that read 0x01 and one that reads the command's STATUS, the registers and the memory are those
the command's execution leaves; and the same command under any other latencies, the state being otherwise the same, ends
with the same registers, the same memory and the same last byte read. For every opcode v, the reserved ones too. That a poll
takes one cycle of the BUSY time, and that WAIT is one pending access, is the model's form (log entries 1, 2 and 9). -/
def Obligations.CommandThenWaitCompletes : Prop :=
  ∀ (s : State) (v : Byte) (rest : List Transaction) (k : Nat) (ls : List Nat),
    s.busy = 0 → s.latencies = k :: ls → s.bus = .write 0x002 v :: .wait :: rest →
    ∃ u w : State, step s = .next u ∧ Host.Core.run core (k + 2) s = .next w ∧
      (∀ r, w.reg r = u.reg r) ∧ w.mem = u.mem ∧ w.bus = rest ∧ w.busy = 0 ∧ w.latencies = ls ∧
      w.draws = s.draws ∧ w.reads = u.status :: (List.replicate k 0x01 ++ s.reads) ∧
      ∀ (k' : Nat) (ls' : List Nat), ∃ w' : State,
        Host.Core.run core (k' + 2) { s with latencies := k' :: ls' } = .next w' ∧
        (∀ r, w'.reg r = w.reg r) ∧ w'.mem = w.mem ∧ w'.bus = w.bus ∧ w'.busy = w.busy ∧
        w'.reads.head? = w.reads.head?

/-! ### Reset and the whole machine -/

/-- R341: after power-on reset, for any buffer contents, latencies and host program (R12), what every address reads as: ID
0x52, VER 0x01, every other register and reserved address 0x00, the buffers their contents, the tables their constants, but
for LOGT entry 0, which reads the free value of the draw that comes next. That draw's form, that nothing has been read yet
and that the program and the latencies are what was given are the model's form (log entries 1, 2 and 4). -/
def Obligations.PowerOnState : Prop :=
  ∀ (contents : Memory) (latencies : List Nat) (program : List Transaction) (a : Addr),
    let s := State.powerOn contents latencies program
    s.bus = program ∧ s.reads = [] ∧ s.busy = 0 ∧ s.latencies = latencies ∧
    hostView s a =
      if a = 0x000 then 0x52 else if a = 0x001 then 0x01 else if a.toNat < 0x100 then 0x00
      else if a.toNat < 0xB00 then Memory.read contents a.toNat
      else if a.toNat < 0xC00 then gexp (a.toNat - 0xB00)
      else if a = 0xC00 then Config.logt0Value s.draws
      else if a.toNat < 0xD00 then BitVec.ofNat 8 (logTable (BitVec.ofNat 8 (a.toNat - 0xC00)))
      else 0x00

/-- The invariant holds at every clean reset of R353 (after power-on reset, R341, and after SRESET, R342, for any canonical
buffer contents) and at State.reset, whose buffers read 0x00 by the model's choice (log entry 3). -/
def Obligations.ResetMeetsInvariant : Prop := (∀ s : State, CleanReset s → Inv s) ∧ Inv State.reset

/-- Every step keeps the invariant: the memory in canonical form and inside the ten buffers (R42), STATUS 0x00, 0x02 or
0x06 (R25), CAUSE at most 0x07 (R26, R302), CAUSE 0x00 exactly when ERR is 0. -/
def Obligations.EveryStepKeepsInvariant : Prop := ∀ s u : State, Inv s → step s = .next u → Inv u

/-- R301: every command ends, in success (STATUS 0x02, CAUSE 0x00) or in a fault with a code of 0x01 to 0x06 that leaves
everything but STATUS and CAUSE as before the command. -/
def Obligations.EveryCommandSucceedsOrFaults : Prop :=
  ∀ (i : Instr) (s : State), ∃ u : State, exec i s = .next u ∧
    ((u.reg .status = 0x02 ∧ u.reg .cause = 0x00) ∨
      ∃ code : Byte, 1 ≤ code.toNat ∧ code.toNat ≤ 6 ∧ FaultsWith code s u)

/-- R302: a command raises no cause code but those the table of causes names it for. -/
def Obligations.CausesOfEachCommand : Prop :=
  ∀ (i : Instr) (s u : State), exec i s = .next u → u.reg .cause = 0x00 ∨ u.reg .cause ∈ causesOf i

/-- R93, the column "writes on success", as the frame of every command: no command writes a register, a buffer byte or
anything of the host's side beyond its row. -/
def Obligations.EveryCommandWritesOnlyItsRow : Prop :=
  ∀ (i : Instr) (s u : State), exec i s = .next u → Frame (writesRegs i) (writesBufs i) s u

/-- R93, the column "reads": two states that agree on the registers and buffers of a command's row give the same outcome and
the same results, whatever else they hold. -/
def Obligations.EveryCommandReadsOnlyItsRow : Prop :=
  ∀ (i : Instr) (s s' : State), (∀ r ∈ readsRegs i, s'.reg r = s.reg r) →
    (∀ b ∈ readsBufs i, ∀ k, k < 256 → s'.entry b k = s.entry b k) →
    ∃ u u' : State, exec i s = .next u ∧ exec i s' = .next u' ∧ u'.reg .status = u.reg .status ∧
      u'.reg .cause = u.reg .cause ∧
      (u.reg .status = 0x02 → (∀ r ∈ writesRegs i, u'.reg r = u.reg r) ∧
        ∀ b ∈ writesBufs i, ∀ k, k < 256 → u'.entry b k = u.entry b k)

/-- R57: no command's behaviour depends on STATUS, CAUSE, or Y as an earlier command left them: changing them before a
command changes nothing after it but a Y that the command leaves alone. -/
def Obligations.OutcomeIndependentOfRecord : Prop :=
  ∀ (i : Instr) (s u : State) (st ca v : Byte), exec i s = .next u →
    ∃ u' : State, exec i { s with status := st, cause := ca, y := v } = .next u' ∧ { u' with y := u.y } = u ∧
      (u'.y = u.y ∨ (u.y = s.y ∧ u'.y = v))

/-! ### System commands -/

/-- R120: NOP is 0x00, writes STATUS 0x02 and CAUSE 0x00 and nothing else; after a fault of FDIV with B = 0 and A ≠ 0
(STATUS 0x06, CAUSE 0x03) it leaves STATUS 0x02, CAUSE 0x00. -/
def Obligations.NopResult : Prop :=
  decode 0x00 = .ok .nop ∧ (∀ s : State, exec .nop s = .next { s with status := 0x02, cause := 0x00 }) ∧
  (∀ s u : State, s.reg .b = 0x00 → s.reg .a ≠ 0x00 → exec .fdiv s = .next u →
    u.reg .status = 0x06 ∧ u.reg .cause = 0x03 ∧ exec .nop u = .next { u with status := 0x02, cause := 0x00 })

/-- R121: SRESET is 0x01; every scalar register but ID, VER and CMD becomes 0x00, then STATUS 0x02; CMD, every byte of the
buffers and the host's side are kept; every codec and decoder command that checks T then faults with CONFIGURATION_ERROR.
POSITIONS is none of them, although R121 speaks of every codec and decoder command: R227 and R302 say that it reads no T and
never faults (log entry 11). -/
def Obligations.SresetResult : Prop :=
  decode 0x01 = .ok .sreset ∧
  ∀ s : State, ∃ u : State, exec .sreset s = .next u ∧ u.reg .status = 0x02 ∧ u.reg .cmd = s.reg .cmd ∧
    (∀ r : Reg, r ≠ .cmd → r ≠ .status → u.reg r = 0x00) ∧ u.mem = s.mem ∧ SameBus s u ∧
    ∀ i ∈ ([.genpoly, .encode, .syndromes, .check, .strip, .locator, .magnitudes, .repair, .decode] : List Instr),
      ∃ w : State, exec i u = .next w ∧ FaultsWith 0x01 u w

/-! ### Field commands -/

/-- R131, R132, R133: xtime is the shift within 8 bits with 0x1D XORed in, which is the 9-bit value reduced by 0x11D; the
EXP table starts at 0x01 and goes on by xtime, and holds every nonzero byte exactly once; LOG is its inverse, with values
0..254; alpha(i) is EXP[i mod 255]. -/
def Obligations.TablesFollowConstruction : Prop :=
  (∀ v : Byte, (xtime v).toNat = (2 * v.toNat) % 256 ^^^ (if 128 ≤ v.toNat then 0x1D else 0)) ∧
  (∀ v : Byte, (xtime v).toNat = 2 * v.toNat ^^^ (if 128 ≤ v.toNat then 0x11D else 0)) ∧
  expTable 0 = 0x01 ∧ (∀ i : Nat, i < 254 → expTable (i + 1) = xtime (expTable i)) ∧
  (∀ v : Byte, v ≠ 0x00 → ∃! i : Nat, i < 255 ∧ expTable i = v) ∧ (∀ i : Nat, i < 255 → expTable i ≠ 0x00) ∧
  (∀ i : Nat, i < 255 → logTable (expTable i) = i) ∧
  (∀ v : Byte, v ≠ 0x00 → logTable v ≤ 254 ∧ expTable (logTable v) = v) ∧
  (∀ i : Nat, alpha i = expTable (i % 255)) ∧ expTable 1 = 0x02 ∧ expTable 8 = 0x1D ∧ expTable 25 = 0x03 ∧ expTable 254 = 0x8E

/-- R149: the 256 elements are a field under gadd and gmul, with 0 and 1, every element its own additive inverse and ginv
the inverse of a nonzero one; and gmul, read from the tables, is the product of polynomials over GF(2) reduced by 0x11D. -/
def Obligations.FieldLaws : Prop :=
  (∀ x y : Byte, gadd x y = gadd y x ∧ gmul x y = gmul y x) ∧
  (∀ x y z : Byte, gadd (gadd x y) z = gadd x (gadd y z) ∧ gmul (gmul x y) z = gmul x (gmul y z) ∧
    gmul x (gadd y z) = gadd (gmul x y) (gmul x z)) ∧
  (∀ x : Byte, gadd x 0x00 = x ∧ gmul x 0x01 = x ∧ gadd x x = 0x00) ∧
  (∀ x : Byte, x ≠ 0x00 → ∃ z : Byte, ginv x = .ok z ∧ gmul x z = 0x01) ∧
  (∀ x y : Byte, gmul x y = carrylessProduct x y)

/-- R141: FADD is 0x10, and so is FSUB; Y becomes A xor B; A = B gives 0x00, B = 0 gives A; 0x53 and 0xCA give 0x99. -/
def Obligations.FaddResult : Prop :=
  decode 0x10 = .ok .fadd ∧ hostFsub = .write 0x002 0x10 ∧
  ∀ s : State, ∃ u : State, exec .fadd s = .next u ∧ Succeeds [.y] [] s u ∧ u.reg .y = s.reg .a ^^^ s.reg .b ∧
    (s.reg .a = s.reg .b → u.reg .y = 0x00) ∧ (s.reg .b = 0x00 → u.reg .y = s.reg .a) ∧
    (s.reg .a = 0x53 → s.reg .b = 0xCA → u.reg .y = 0x99)

/-- R142: FMUL is 0x11 and Y becomes the product of A and B, which is their product as polynomials over GF(2) reduced by
0x11D; A = 0 or B = 0 gives 0x00, A = 1 gives B; the rule's examples. -/
def Obligations.FmulResult : Prop :=
  decode 0x11 = .ok .fmul ∧
  ∀ s : State, ∃ u : State, exec .fmul s = .next u ∧ Succeeds [.y] [] s u ∧
    u.reg .y = gmul (s.reg .a) (s.reg .b) ∧ u.reg .y = carrylessProduct (s.reg .a) (s.reg .b) ∧
    (s.reg .a = 0x00 ∨ s.reg .b = 0x00 → u.reg .y = 0x00) ∧ (s.reg .a = 0x01 → u.reg .y = s.reg .b) ∧
    (s.reg .a = 0x80 → s.reg .b = 0x02 → u.reg .y = 0x1D) ∧ (s.reg .a = 0xFF → s.reg .b = 0xFF → u.reg .y = 0xE2) ∧
    (s.reg .a = 0x53 → s.reg .b = 0xCA → u.reg .y = 0x8F)

/-- R143: FDIV is 0x12; A = 0 gives 0x00 for every B without a fault; for A ≠ 0 and B ≠ 0 the quotient times B is A, and
A = B gives 0x01; A ≠ 0 and B = 0 faults with DIVISION_BY_ZERO (0x03), Y unchanged; 0x01 / 0x02 is 0x8E. -/
def Obligations.FdivResult : Prop :=
  decode 0x12 = .ok .fdiv ∧
  ∀ s : State,
    (s.reg .a = 0x00 → ∃ u : State, exec .fdiv s = .next u ∧ Succeeds [.y] [] s u ∧ u.reg .y = 0x00) ∧
    (s.reg .a ≠ 0x00 → s.reg .b ≠ 0x00 → ∃ u : State, exec .fdiv s = .next u ∧ Succeeds [.y] [] s u ∧
      gmul (u.reg .y) (s.reg .b) = s.reg .a ∧ (s.reg .a = s.reg .b → u.reg .y = 0x01) ∧
      (s.reg .a = 0x01 → s.reg .b = 0x02 → u.reg .y = 0x8E)) ∧
    (s.reg .a ≠ 0x00 → s.reg .b = 0x00 → ∃ u : State, exec .fdiv s = .next u ∧ FaultsWith 0x03 s u)

/-- R144: FINV is 0x13; for A ≠ 0, Y becomes the inverse of A, whose inverse is A again; A = 0 faults with
DIVISION_BY_ZERO (0x03); the rule's examples. -/
def Obligations.FinvResult : Prop :=
  decode 0x13 = .ok .finv ∧
  ∀ s : State,
    (s.reg .a ≠ 0x00 → ∃ u : State, exec .finv s = .next u ∧ Succeeds [.y] [] s u ∧ ginv (s.reg .a) = .ok (u.reg .y) ∧
      gmul (s.reg .a) (u.reg .y) = 0x01 ∧ ginv (u.reg .y) = .ok (s.reg .a) ∧ (s.reg .a = 0x01 → u.reg .y = 0x01) ∧
      (s.reg .a = 0x02 → u.reg .y = 0x8E) ∧ (s.reg .a = 0x53 → u.reg .y = 0x8C)) ∧
    (s.reg .a = 0x00 → ∃ u : State, exec .finv s = .next u ∧ FaultsWith 0x03 s u)

/-- R145: FPOW is 0x14 and Y becomes A multiplied with itself PW times; PW = 0 gives 0x01 for every A; A = 0 and PW ≥ 1
gives 0x00; PW = 255 gives 0x01 for A ≠ 0; the rule's examples. -/
def Obligations.FpowResult : Prop :=
  decode 0x14 = .ok .fpow ∧
  ∀ s : State, ∃ u : State, exec .fpow s = .next u ∧ Succeeds [.y] [] s u ∧
    u.reg .y = gpow (s.reg .a) (s.count .pw) ∧ u.reg .y = repeatedProduct (s.reg .a) (s.count .pw) ∧
    (s.reg .pw = 0x00 → u.reg .y = 0x01) ∧ (s.reg .a = 0x00 → 1 ≤ s.count .pw → u.reg .y = 0x00) ∧
    (s.count .pw = 255 → s.reg .a ≠ 0x00 → u.reg .y = 0x01) ∧
    (s.reg .a ≠ 0x00 → u.reg .y = expTable ((logTable (s.reg .a) * s.count .pw) % 255)) ∧
    (s.reg .a = 0x02 → s.count .pw = 8 → u.reg .y = 0x1D) ∧ (s.reg .a = 0x53 → s.count .pw = 254 → u.reg .y = 0x8C)

/-- R146: FEXP is 0x15 and Y becomes EXP[A mod 255], the generator multiplied with itself A times; 0 and 255 give 0x01, 254
gives 0x8E, 8 gives 0x1D. -/
def Obligations.FexpResult : Prop :=
  decode 0x15 = .ok .fexp ∧
  ∀ s : State, ∃ u : State, exec .fexp s = .next u ∧ Succeeds [.y] [] s u ∧
    u.reg .y = expTable (s.count .a % 255) ∧ u.reg .y = repeatedProduct 0x02 (s.count .a) ∧
    (s.count .a = 0 → u.reg .y = 0x01) ∧ (s.count .a = 255 → u.reg .y = 0x01) ∧
    (s.count .a = 254 → u.reg .y = 0x8E) ∧ (s.count .a = 8 → u.reg .y = 0x1D)

/-- R147: FLOG is 0x16; for A ≠ 0, Y becomes LOG[A], the exponent below 255 whose power of the generator is A; A = 0 faults
with LOG_OF_ZERO (0x05); the rule's examples; no result is 0xFF. -/
def Obligations.FlogResult : Prop :=
  decode 0x16 = .ok .flog ∧
  ∀ s : State,
    (s.reg .a ≠ 0x00 → ∃ u : State, exec .flog s = .next u ∧ Succeeds [.y] [] s u ∧
      (u.reg .y).toNat = logTable (s.reg .a) ∧ gexp (u.reg .y).toNat = s.reg .a ∧ u.reg .y ≠ 0xFF ∧
      (s.reg .a = 0x01 → u.reg .y = 0x00) ∧ (s.reg .a = 0x8E → u.reg .y = 0xFE) ∧ (s.reg .a = 0x03 → u.reg .y = 0x19)) ∧
    (s.reg .a = 0x00 → ∃ u : State, exec .flog s = .next u ∧ FaultsWith 0x05 s u)

/-! ### Polynomial commands -/

/-- R160, R167: PEVAL is 0x20 and leaves in Y the value at A of the polynomial P[0..LP-1]: the XOR over j of its coefficient of x^j
times A^j, for LP = 0 the value 0x00. -/
def Obligations.PevalResult : Prop :=
  decode 0x20 = .ok .peval ∧
  ∀ s : State, ∃ u : State, exec .peval s = .next u ∧ Succeeds [.y] [] s u ∧
    u.reg .y = xorSum (s.count .lp) (fun j => gmul (s.entry .p (s.count .lp - 1 - j)) (gpow (s.reg .a) j)) ∧
    (s.count .lp = 0 → u.reg .y = 0x00) ∧
    (s.reg .a = 0x00 → 1 ≤ s.count .lp → u.reg .y = s.entry .p (s.count .lp - 1)) ∧
    (s.reg .a = 0x01 → u.reg .y = xorSum (s.count .lp) (fun i => s.entry .p i))

/-- R164, R168: PCOEF is 0x21 and leaves in Y the coefficient of degree KD of the product P·Q, as the full product has it; 0x00 beyond
the product and for an empty operand. -/
def Obligations.PcoefResult : Prop :=
  decode 0x21 = .ok .pcoef ∧
  ∀ s : State, ∃ u : State, exec .pcoef s = .next u ∧ Succeeds [.y] [] s u ∧
    u.reg .y = coef (pmul (polyP s) (polyQ s)) (s.count .kd) ∧
    (s.count .lp + s.count .lq < s.count .kd + 2 → u.reg .y = 0x00) ∧
    (s.count .lp = 0 ∨ s.count .lq = 0 → u.reg .y = 0x00)

/-- R161, R169: PSCALE is 0x22 and leaves P[i]·A in R[i] for i below LP, 0x00 beyond, and LP in LR. -/
def Obligations.PscaleResult : Prop :=
  decode 0x22 = .ok .pscale ∧
  ∀ s : State, ∃ u : State, exec .pscale s = .next u ∧ Succeeds [.lr] [.r] s u ∧ u.reg .lr = s.reg .lp ∧
    ∀ i, i < 256 → u.entry .r i = if i < s.count .lp then gmul (s.entry .p i) (s.reg .a) else 0x00

/-- R162, R170: PADD is 0x23, and so is PSUB; it leaves in R the max(LP, LQ) coefficients of P + Q, aligned at the low-order
end and not trimmed: the coefficient of x^j is the XOR of the operands' coefficients of x^j. -/
def Obligations.PaddResult : Prop :=
  decode 0x23 = .ok .padd ∧ hostPsub = .write 0x002 0x23 ∧
  ∀ s : State, ∃ (u : State) (r : Poly), exec .padd s = .next u ∧ Succeeds [.lr] [.r] s u ∧ BufHolds u .r r ∧
    u.count .lr = r.length ∧ r.length = max (s.count .lp) (s.count .lq) ∧
    ∀ j, coef r j = coef (polyP s) j ^^^ coef (polyQ s) j

/-- R163, R171: PMUL is 0x24 and faults with LENGTH_ERROR (0x06) exactly when both operands are not empty and their product would
exceed 255 entries; otherwise R holds the product's LP + LQ - 1 coefficients (none for an empty operand), that of degree k
being the one the rule of PCOEF gives. -/
def Obligations.PmulResult : Prop :=
  decode 0x24 = .ok .pmul ∧
  ∀ s : State,
    (1 ≤ s.count .lp ∧ 1 ≤ s.count .lq ∧ 255 < s.count .lp + s.count .lq - 1 →
      ∃ u : State, exec .pmul s = .next u ∧ FaultsWith 0x06 s u) ∧
    (¬ (1 ≤ s.count .lp ∧ 1 ≤ s.count .lq ∧ 255 < s.count .lp + s.count .lq - 1) →
      ∃ (u : State) (r : Poly), exec .pmul s = .next u ∧ Succeeds [.lr] [.r] s u ∧ BufHolds u .r r ∧
        u.count .lr = r.length ∧
        r.length = (if s.count .lp = 0 ∨ s.count .lq = 0 then 0 else s.count .lp + s.count .lq - 1) ∧
        ∀ k, coef r k = pcoefat (polyP s) (polyQ s) k)

/-- R165, R172: PDIV is 0x25 and faults with DIVISION_BY_ZERO (0x03) for an empty or zero-led divisor; otherwise it leaves a quotient of
max(LP - LQ + 1, 0) entries in R and a remainder of exactly LQ - 1 entries in R2 with P = quotient·Q + remainder, coefficient
by coefficient. -/
def Obligations.PdivResult : Prop :=
  decode 0x25 = .ok .pdiv ∧
  ∀ s : State,
    (s.count .lq = 0 ∨ s.entry .q 0 = 0x00 → ∃ u : State, exec .pdiv s = .next u ∧ FaultsWith 0x03 s u) ∧
    (s.count .lq ≠ 0 → s.entry .q 0 ≠ 0x00 →
      ∃ (u : State) (qu rm : Poly), exec .pdiv s = .next u ∧ Succeeds [.lr, .lr2] [.r, .r2] s u ∧
        BufHolds u .r qu ∧ BufHolds u .r2 rm ∧ u.count .lr = qu.length ∧ u.count .lr2 = rm.length ∧
        qu.length = s.count .lp + 1 - s.count .lq ∧ rm.length = s.count .lq - 1 ∧
        ∀ j, coef (polyP s) j = coef (padd (pmul qu (polyQ s)) rm) j)

/-- R166, R173: PDERIV is 0x26 and leaves in R the LP - 1 coefficients of the formal derivative: that of x^j is P's
coefficient of x^(j+1) for even j and 0x00 for odd j. -/
def Obligations.PderivResult : Prop :=
  decode 0x26 = .ok .pderiv ∧
  ∀ s : State, ∃ (u : State) (r : Poly), exec .pderiv s = .next u ∧ Succeeds [.lr] [.r] s u ∧ BufHolds u .r r ∧
    u.count .lr = r.length ∧ r.length = s.count .lp - 1 ∧
    ∀ j, coef r j = if j % 2 = 0 then coef (polyP s) (j + 1) else 0x00

/-! ### Codec commands -/

/-- R190, R191, R194: GENPOLY is 0x30 and faults with CONFIGURATION_ERROR (0x01) when T = 0; otherwise GEN holds a monic polynomial of
T + 1 coefficients with the roots alpha^1..alpha^T, and it is the product of the T factors x + alpha^i: appending a factor
gives the next one. -/
def Obligations.GenpolyResult : Prop :=
  decode 0x30 = .ok .genpoly ∧
  ∀ s : State,
    (s.count .t = 0 → ∃ u : State, exec .genpoly s = .next u ∧ FaultsWith 0x01 s u) ∧
    (s.count .t ≠ 0 → ∃ (u : State) (g : Poly), exec .genpoly s = .next u ∧ Succeeds [] [.gen] s u ∧
      BufHolds u .gen g ∧ g.length = s.count .t + 1 ∧ u.entry .gen 0 = 0x01 ∧
      (∀ i, 1 ≤ i → i ≤ s.count .t → peval g (alpha i) = 0x00) ∧
      g = pmul (generatorPoly (s.count .t - 1)) [0x01, alpha (s.count .t)] ∧ generatorPoly 0 = [0x01])

/-- R195: ENCODE is 0x31 and faults with CONFIGURATION_ERROR (0x01) when T = 0 or K + T > 255; otherwise N becomes K + T and BUF holds
the codeword of K + T symbols: the message as it stood in BUF, then the remainder of the message with T zeros appended,
divided by the generator polynomial; it has the roots alpha^1..alpha^T, all its syndromes being zero. -/
def Obligations.EncodeResult : Prop :=
  decode 0x31 = .ok .encode ∧
  ∀ s : State,
    (s.count .t = 0 ∨ 255 < s.count .k + s.count .t → ∃ u : State, exec .encode s = .next u ∧ FaultsWith 0x01 s u) ∧
    (s.count .t ≠ 0 → s.count .k + s.count .t ≤ 255 →
      ∃ (u : State) (c : List Byte), exec .encode s = .next u ∧ Succeeds [.n] [.buf] s u ∧ BufHolds u .buf c ∧
        c.length = s.count .k + s.count .t ∧ u.count .n = s.count .k + s.count .t ∧
        (∀ i, i < s.count .k → u.entry .buf i = s.entry .buf i) ∧ ValidWord c (s.count .t) ∧
        ∃ d : Poly × Poly, c = message s ++ d.2 ∧
          pdivmod (message s ++ List.replicate (s.count .t) 0x00) (generatorPoly (s.count .t)) = .ok d)

/-- R193, R196: SYNDROMES is 0x32 and faults with CONFIGURATION_ERROR (0x01) when T = 0 or N < T; otherwise SYN[j] is the value of the
received word at alpha^(j+1) for j below T, and 0x00 beyond. -/
def Obligations.SyndromesResult : Prop :=
  decode 0x32 = .ok .syndromes ∧
  ∀ s : State,
    (s.count .t = 0 ∨ s.count .n < s.count .t → ∃ u : State, exec .syndromes s = .next u ∧ FaultsWith 0x01 s u) ∧
    (s.count .t ≠ 0 → s.count .t ≤ s.count .n → ∃ u : State, exec .syndromes s = .next u ∧ Succeeds [] [.syn] s u ∧
      ∀ j, j < 256 → u.entry .syn j =
        if j < s.count .t then
          xorSum (s.count .n) (fun d => gmul (s.entry .buf (s.count .n - 1 - d)) (gpow (alpha (j + 1)) d))
        else 0x00)

/-- R197: CHECK is 0x33, and so is ISVALID; it faults with CONFIGURATION_ERROR (0x01) when T = 0 or N < T; otherwise Y becomes 0x01 if the received word is
zero at alpha^1..alpha^T, and 0x00 if not; SYN is not written. -/
def Obligations.CheckResult : Prop :=
  decode 0x33 = .ok .check ∧ hostIsvalid = .write 0x002 0x33 ∧
  ∀ s : State,
    (s.count .t = 0 ∨ s.count .n < s.count .t → ∃ u : State, exec .check s = .next u ∧ FaultsWith 0x01 s u) ∧
    (s.count .t ≠ 0 → s.count .t ≤ s.count .n → ∃ u : State, exec .check s = .next u ∧ Succeeds [.y] [] s u ∧
      (u.reg .y = 0x01 ∨ u.reg .y = 0x00) ∧ (u.reg .y = 0x01 ↔ ValidWord (receivedWord s) (s.count .t)))

/-- R198: STRIP is 0x34; it faults with CONFIGURATION_ERROR (0x01) when T = 0 or N < T; otherwise K becomes N - T, and BUF
keeps its entries below N - T and is 0x00 from there on; N and Y are unchanged. -/
def Obligations.StripResult : Prop :=
  decode 0x34 = .ok .strip ∧
  ∀ s : State,
    (s.count .t = 0 ∨ s.count .n < s.count .t → ∃ u : State, exec .strip s = .next u ∧ FaultsWith 0x01 s u) ∧
    (s.count .t ≠ 0 → s.count .t ≤ s.count .n → ∃ u : State, exec .strip s = .next u ∧ Succeeds [.k] [.buf] s u ∧
      u.count .k = s.count .n - s.count .t ∧
      ∀ i, i < 256 → u.entry .buf i = if i < s.count .n - s.count .t then s.entry .buf i else 0x00)

/-- R193's guarantee: on a received word of N symbols with 1 ≤ T ≤ N, CHECK leaves Y = 0x01 exactly when the word is
divisible by the generator polynomial, the remainder of the division being all zero. -/
def Obligations.ValidExactlyWhenDivisible : Prop :=
  ∀ s u : State, s.count .t ≠ 0 → s.count .t ≤ s.count .n → exec .check s = .next u →
    ∃ qu rm : Poly, pdivmod (receivedWord s) (generatorPoly (s.count .t)) = .ok (qu, rm) ∧
      (u.reg .y = 0x01 ↔ ∀ c ∈ rm, c = 0x00)

/-! ### Decoder commands -/

/-- R220, R221, R226: LOCATOR is 0x40 and faults with CONFIGURATION_ERROR (0x01) when T = 0; otherwise LAM holds the LDEG + 1 entries of
the trimmed locator of SYN[0..T-1], most significant first, the last of them 0x01, LDEG is at most T, and it is 0 exactly
when all syndromes are zero. -/
def Obligations.LocatorResult : Prop :=
  decode 0x40 = .ok .locator ∧
  ∀ s : State,
    (s.count .t = 0 → ∃ u : State, exec .locator s = .next u ∧ FaultsWith 0x01 s u) ∧
    (s.count .t ≠ 0 → ∃ u : State, exec .locator s = .next u ∧ Succeeds [.ldeg] [.lam] s u ∧
      BufHolds u .lam (trim (bm (syndromeVector s) (s.count .t))) ∧
      u.count .ldeg = (bm (syndromeVector s) (s.count .t)).len ∧ u.count .ldeg ≤ s.count .t ∧
      (trim (bm (syndromeVector s) (s.count .t))).length = u.count .ldeg + 1 ∧
      u.entry .lam (u.count .ldeg) = 0x01 ∧
      (∀ j, u.count .ldeg < j → (bm (syndromeVector s) (s.count .t)).lam.getD j 0x00 = 0x00) ∧
      (u.count .ldeg = 0 ↔ ∀ j, j < s.count .t → s.entry .syn j = 0x00))

/-- R17's shift-register synthesis, for the algorithm of R220: with Λ_j = LAM[LDEG-j] as LOCATOR leaves it, every syndrome from
S_(LDEG+1) to S_T is the one the register generates: the XOR over j in 0..LDEG of Λ_j·S_(i-j+1) is zero for LDEG ≤ i < T. -/
def Obligations.LocatorGeneratesSyndromes : Prop :=
  ∀ s u : State, s.count .t ≠ 0 → exec .locator s = .next u →
    ∀ i, u.count .ldeg ≤ i → i < s.count .t →
      xorSum (u.count .ldeg + 1) (fun j => gmul (u.entry .lam (u.count .ldeg - j)) (s.entry .syn (i - j))) = 0x00

/-- R222, R223, R227: POSITIONS is 0x41 and never faults; POS holds, in increasing order, exactly the positions p in 0..254 at which
the locator LAM[0..LDEG] is zero at alpha^(255-p), NPOS their number, and Y is 0x01 if that number is LDEG and all of them
are below N, 0x00 if not. -/
def Obligations.PositionsResult : Prop :=
  decode 0x41 = .ok .positions ∧
  ∀ s : State, ∃ (u : State) (pos : List Nat), exec .positions s = .next u ∧ Succeeds [.npos, .y] [.pos] s u ∧
    BufHolds u .pos (pos.map (fun p => BitVec.ofNat 8 p)) ∧ u.count .npos = pos.length ∧ pos.Pairwise (· < ·) ∧
    (∀ p, p ∈ pos ↔ p < 255 ∧
      peval ((List.range (s.count .ldeg + 1)).map (fun i => s.entry .lam i)) (alpha (255 - p)) = 0x00) ∧
    (u.reg .y = 0x01 ∨ u.reg .y = 0x00) ∧
    (u.reg .y = 0x01 ↔ pos.length = s.count .ldeg ∧ ∀ p ∈ pos, p < s.count .n)

/-- R224, R228: MAGNITUDES is 0x42 and checks, in this order, T and N (CONFIGURATION_ERROR 0x01), the positions (UNCORRECTABLE 0x02),
and the derivative Λ' at each X_k⁻¹ = alpha^(255-p), p = POS[k] (MAGNITUDE_UNDEFINED 0x04); otherwise EMAG[N-1-p]·Λ'(X_k⁻¹)
is Ω(X_k⁻¹) for each position p, where Ω has the T low-order coefficients of S(x)·Λ(x), and every other entry is 0x00. -/
def Obligations.MagnitudesResult : Prop :=
  decode 0x42 = .ok .magnitudes ∧
  ∀ s : State,
    let lam := (List.range (s.count .ldeg + 1)).map (fun i => s.entry .lam i)
    let spoly := (List.range (s.count .t)).map (fun i => s.entry .syn (s.count .t - 1 - i))
    let p := fun k => (s.entry .pos k).toNat
    let den := fun k => peval (pderiv lam) (alpha (255 - p k))
    let num := fun k => xorSum (s.count .t) (fun j => gmul (pcoefat spoly lam j) (gpow (alpha (255 - p k)) j))
    (s.count .t = 0 ∨ s.count .n < s.count .t → ∃ u : State, exec .magnitudes s = .next u ∧ FaultsWith 0x01 s u) ∧
    (s.count .t ≠ 0 → s.count .t ≤ s.count .n →
      ¬ (s.count .npos = s.count .ldeg ∧ ∀ k, k < s.count .npos → p k < s.count .n) →
      ∃ u : State, exec .magnitudes s = .next u ∧ FaultsWith 0x02 s u) ∧
    (s.count .t ≠ 0 → s.count .t ≤ s.count .n → s.count .npos = s.count .ldeg →
      (∀ k, k < s.count .npos → p k < s.count .n) → (∃ k, k < s.count .npos ∧ den k = 0x00) →
      ∃ u : State, exec .magnitudes s = .next u ∧ FaultsWith 0x04 s u) ∧
    (s.count .t ≠ 0 → s.count .t ≤ s.count .n → s.count .npos = s.count .ldeg →
      (∀ k, k < s.count .npos → p k < s.count .n) → (∀ k, k < s.count .npos → den k ≠ 0x00) →
      ∃ u : State, exec .magnitudes s = .next u ∧ Succeeds [] [.emag] s u ∧
        (∀ k, k < s.count .npos → gmul (u.entry .emag (s.count .n - 1 - p k)) (den k) = num k) ∧
        (∀ i, i < 256 → (∀ k, k < s.count .npos → i ≠ s.count .n - 1 - p k) → u.entry .emag i = 0x00))

/-- R225, R229, R304: REPAIR is 0x43 and faults with CONFIGURATION_ERROR (0x01) when T = 0 or N < T; a word with all
syndromes zero is returned unchanged. Any other word faults with UNCORRECTABLE (0x02) where the positions found for it do
not pass the position check. Where they do, and the derivative is zero at none of them (RepairNeverUndefined), there is one
error word e: e·Λ' = Ω at X⁻¹ for every position found, and zero elsewhere; the received word with e XORed in replaces it
where that is a valid codeword, and the command faults with UNCORRECTABLE where it is not. A fault leaves BUF unchanged,
beyond N a repaired BUF is 0x00, and no step buffer or register is written. -/
def Obligations.RepairResult : Prop :=
  decode 0x43 = .ok .repair ∧
  ∀ s : State,
    let r := receivedWord s
    let t := s.count .t
    let syn := syndromes r t
    let lam := (repairLocator r t).2
    let pos := repairPositions r t
    (t = 0 ∨ s.count .n < t → ∃ u : State, exec .repair s = .next u ∧ FaultsWith 0x01 s u) ∧
    (t ≠ 0 → t ≤ s.count .n → ValidWord r t →
      ∃ u : State, exec .repair s = .next u ∧ Succeeds [] [.buf] s u ∧ BufHolds u .buf r) ∧
    (t ≠ 0 → t ≤ s.count .n → ¬ ValidWord r t →
      ∃ u : State, exec .repair s = .next u ∧
        ((Succeeds [] [.buf] s u ∧ BufHolds u .buf (receivedWord u) ∧ ValidWord (receivedWord u) t) ∨
          FaultsWith 0x02 s u)) ∧
    (t ≠ 0 → t ≤ s.count .n → ¬ ValidWord r t → ¬ RepairPositionsValid r t →
      ∃ u : State, exec .repair s = .next u ∧ FaultsWith 0x02 s u) ∧
    (t ≠ 0 → t ≤ s.count .n → ¬ ValidWord r t → RepairPositionsValid r t → (∀ p ∈ pos, derivativeAt lam p ≠ 0x00) →
      ∃ (e c : List Byte) (u : State), exec .repair s = .next u ∧ e.length = s.count .n ∧
        (∀ p ∈ pos, gmul (e.getD (s.count .n - 1 - p) 0x00) (derivativeAt lam p) = evaluatorAt syn t lam p) ∧
        (∀ i, (∀ p ∈ pos, i ≠ s.count .n - 1 - p) → e.getD i 0x00 = 0x00) ∧
        c.length = s.count .n ∧ (∀ i, i < s.count .n → c.getD i 0x00 = s.entry .buf i ^^^ e.getD i 0x00) ∧
        ((ValidWord c t ∧ Succeeds [] [.buf] s u ∧ BufHolds u .buf c) ∨ (¬ ValidWord c t ∧ FaultsWith 0x02 s u)))

/-- R225, R230: DECODE is 0x44 and faults with CONFIGURATION_ERROR (0x01) when T = 0 or N < T; on a word with all syndromes
zero, K becomes N - T and BUF keeps its entries below N - T and is 0x00 from there on, N and Y unchanged; on any other word
it succeeds so with the first N - T symbols of the word that repair gives, a valid codeword, where repair gives one, and
faults with UNCORRECTABLE (0x02), BUF and K unchanged, where repair faults. What repair gives is RepairResult's. -/
def Obligations.DecodeResult : Prop :=
  decode 0x44 = .ok .decode ∧
  ∀ s : State,
    (s.count .t = 0 ∨ s.count .n < s.count .t → ∃ u : State, exec .decode s = .next u ∧ FaultsWith 0x01 s u) ∧
    (s.count .t ≠ 0 → s.count .t ≤ s.count .n → ValidWord (receivedWord s) (s.count .t) →
      ∃ u : State, exec .decode s = .next u ∧ Succeeds [.k] [.buf] s u ∧ u.count .k = s.count .n - s.count .t ∧
        ∀ i, i < 256 → u.entry .buf i = if i < s.count .n - s.count .t then s.entry .buf i else 0x00) ∧
    (s.count .t ≠ 0 → s.count .t ≤ s.count .n → ¬ ValidWord (receivedWord s) (s.count .t) →
      ∃ u : State, exec .decode s = .next u ∧
        ((∃ c : List Byte, repairWord (receivedWord s) (s.count .t) = .ok c ∧ c.length = s.count .n ∧
            ValidWord c (s.count .t) ∧ Succeeds [.k] [.buf] s u ∧
            u.count .k = s.count .n - s.count .t ∧ BufHolds u .buf (c.take (s.count .n - s.count .t))) ∨
          (repairWord (receivedWord s) (s.count .t) = .error .uncorrectable ∧ FaultsWith 0x02 s u)))

/-- R230: decode(received) = removeCheckSymbols(repair(received)): DECODE ends in exactly the state that REPAIR, where it
succeeds, and then STRIP end in; and where REPAIR faults, DECODE faults alike. -/
def Obligations.DecodeIsRepairThenStrip : Prop :=
  ∀ s u : State, exec .repair s = .next u →
    (u.reg .status = 0x02 → exec .decode s = exec .strip u) ∧ (u.reg .status ≠ 0x02 → exec .decode s = .next u)

/-- R231 (a), the round trip: with T ≥ 1 and K + T ≤ 255, ENCODE and then DECODE succeed and give K and BUF[0..K-1] as they
were before. -/
def Obligations.EncodeDecodeRoundTrip : Prop :=
  ∀ s : State, s.count .t ≠ 0 → s.count .k + s.count .t ≤ 255 →
    ∃ u w : State, exec .encode s = .next u ∧ exec .decode u = .next w ∧ w.reg .status = 0x02 ∧
      w.reg .k = s.reg .k ∧ ∀ i, i < s.count .k → w.entry .buf i = s.entry .buf i

/-- R231 (b), zero-error idempotence: with T ≥ 1 and K + T ≤ 255, REPAIR of an ENCODE result succeeds and leaves every
register and every byte of every buffer as ENCODE left them. -/
def Obligations.EncodeRepairUnchanged : Prop :=
  ∀ s : State, s.count .t ≠ 0 → s.count .k + s.count .t ≤ 255 →
    ∃ u w : State, exec .encode s = .next u ∧ exec .repair u = .next w ∧ (∀ r : Reg, w.reg r = u.reg r) ∧
      ∀ a : Nat, Memory.read w.mem a = Memory.read u.mem a

/-- R225's and R228's derived claim: after a LOCATOR and a POSITIONS that returned Y = 0x01, MAGNITUDES on the same SYN, with
T ≥ 1 and N ≥ T, does not fault: the derivative is zero at no root. -/
def Obligations.StepChainNeverUndefined : Prop :=
  ∀ s u w x : State, s.count .t ≠ 0 → s.count .t ≤ s.count .n → exec .locator s = .next u → exec .positions u = .next w →
    w.reg .y = 0x01 → exec .magnitudes w = .next x → x.reg .status = 0x02 ∧ x.reg .cause = 0x00

/-- R231 (c) for one error: with T ≥ 2, a valid codeword of N symbols in which the symbol at one position is changed is
repaired by REPAIR: BUF holds the codeword again. -/
def Obligations.SingleErrorRepaired : Prop :=
  ∀ (s : State) (p : Nat) (v : Byte), Memory.Inv s.mem → 2 ≤ s.count .t → s.count .t ≤ s.count .n →
    ValidWord (receivedWord s) (s.count .t) → p < s.count .n → v ≠ s.entry .buf (s.count .n - 1 - p) →
    ∃ u : State, exec .repair (s.setEntry .buf (s.count .n - 1 - p) v) = .next u ∧ u.reg .status = 0x02 ∧
      ∀ i, i < s.count .n → u.entry .buf i = s.entry .buf i

/-- R231 (c), bounded correction: with T ≥ 1, let s hold a valid codeword of N symbols in BUF and s' a received word that
differs from it in at most floor(T/2) symbols, with the same T and N; then DECODE on s' succeeds and gives the message, the
codeword's first N - T symbols. -/
def Obligations.BoundedCorrection : Prop :=
  ∀ s s' : State, s.count .t ≠ 0 → s.count .t ≤ s.count .n → s'.reg .t = s.reg .t → s'.reg .n = s.reg .n →
    ValidWord (receivedWord s) (s.count .t) → 2 * errorCount (s.count .n) s s' ≤ s.count .t →
    ∃ u : State, exec .decode s' = .next u ∧ u.reg .status = 0x02 ∧ u.count .k = s.count .n - s.count .t ∧
      ∀ i, i < s.count .n - s.count .t → u.entry .buf i = s.entry .buf i

/-- R225's claim on repair itself: where the positions found for a word pass the position check, the derivative is zero at
none of them, so MAGNITUDE_UNDEFINED never arises inside repair. -/
def Obligations.RepairNeverUndefined : Prop :=
  ∀ (r : List Byte) (t : Nat), RepairPositionsValid r t →
    ∀ p ∈ repairPositions r t, derivativeAt (repairLocator r t).2 p ≠ 0x00

/-! ### Launch premises -/

/-- R342, R353: a host write of SRESET's opcode to CMD while BUSY = 0 leads to a clean reset in its SRESET form, from every
state whose memory is canonical: CMD 0x01, STATUS 0x02, every other scalar register 0x00, every byte of the buffers as it
was. The step of the write leaves that state but for the command's BUSY time, so it is there at once where that is 0; and
with a WAIT after the write it is there, BUSY = 0, when the WAIT has ended, whatever the latency k is. SRESET never faults.
That a poll takes one cycle of the BUSY time, and that WAIT is one pending access, is the model's form (log entries 1, 2
and 9). -/
def Obligations.SresetLeavesCleanReset : Prop :=
  (∀ (s : State) (rest : List Transaction), Memory.Inv s.mem → s.busy = 0 → s.bus = .write 0x002 0x01 :: rest →
    ∃ u : State, step s = .next u ∧ SoftReset { u with busy := 0 } ∧ u.busy = s.latencies.headD 0 ∧
      (u.busy = 0 → CleanReset u) ∧ u.mem = s.mem ∧ u.bus = rest ∧ u.reads = s.reads) ∧
  (∀ (s : State) (rest : List Transaction) (k : Nat) (ls : List Nat), Memory.Inv s.mem → s.busy = 0 →
    s.latencies = k :: ls → s.bus = .write 0x002 0x01 :: .wait :: rest →
    ∃ w : State, Host.Core.run core (k + 2) s = .next w ∧ SoftReset w ∧ CleanReset w ∧ w.mem = s.mem ∧ w.bus = rest)

/-- R352, R353: in a run from a clean reset of which every command ended with ERR = 0, the record shows no fault at its end:
ERR = 0 and CAUSE 0x00. The run is the model's run of k steps (log entries 1 and 2). -/
def Obligations.NoFaultRecordedLeavesNoCause : Prop :=
  ∀ (k : Nat) (s u : State), CleanReset s → NoFaultRecorded k s → Host.Core.run core k s = .next u →
    errBit (u.reg .status) = false ∧ u.reg .cause = 0x00
end

