-- ==== Sys2Proof/Laws/State.lean ====
section
/-! SUPPORT. One lemma per part of the state per update, so that no later proof unfolds a record update. -/

namespace Sys2Proof.Machine

@[simp] theorem reg_setReg (s : State) (r q : Reg) (v : Byte) :
    (s.setReg r v).reg q = if q = r then v else s.reg q := by
  cases r <;> cases q <;> rfl

@[simp] theorem mem_setReg (s : State) (r : Reg) (v : Byte) : (s.setReg r v).mem = s.mem := by cases r <;> rfl
@[simp] theorem busy_setReg (s : State) (r : Reg) (v : Byte) : (s.setReg r v).busy = s.busy := by cases r <;> rfl
@[simp] theorem latencies_setReg (s : State) (r : Reg) (v : Byte) : (s.setReg r v).latencies = s.latencies := by
  cases r <;> rfl
@[simp] theorem bus_setReg (s : State) (r : Reg) (v : Byte) : (s.setReg r v).bus = s.bus := by cases r <;> rfl
@[simp] theorem reads_setReg (s : State) (r : Reg) (v : Byte) : (s.setReg r v).reads = s.reads := by cases r <;> rfl
@[simp] theorem draws_setReg (s : State) (r : Reg) (v : Byte) : (s.setReg r v).draws = s.draws := by cases r <;> rfl

@[simp] theorem reg_setBuf (s : State) (b : Buf) (vs : List Byte) (q : Reg) : (s.setBuf b vs).reg q = s.reg q := by
  cases q <;> rfl
@[simp] theorem mem_setBuf (s : State) (b : Buf) (vs : List Byte) :
    (s.setBuf b vs).mem = Memory.fill s.mem b.base vs := rfl
@[simp] theorem busy_setBuf (s : State) (b : Buf) (vs : List Byte) : (s.setBuf b vs).busy = s.busy := rfl
@[simp] theorem latencies_setBuf (s : State) (b : Buf) (vs : List Byte) :
    (s.setBuf b vs).latencies = s.latencies := rfl
@[simp] theorem bus_setBuf (s : State) (b : Buf) (vs : List Byte) : (s.setBuf b vs).bus = s.bus := rfl
@[simp] theorem reads_setBuf (s : State) (b : Buf) (vs : List Byte) : (s.setBuf b vs).reads = s.reads := rfl
@[simp] theorem draws_setBuf (s : State) (b : Buf) (vs : List Byte) : (s.setBuf b vs).draws = s.draws := rfl

@[simp] theorem reg_setEntry (s : State) (b : Buf) (i : Nat) (v : Byte) (q : Reg) :
    (s.setEntry b i v).reg q = s.reg q := by cases q <;> rfl
@[simp] theorem mem_setEntry (s : State) (b : Buf) (i : Nat) (v : Byte) :
    (s.setEntry b i v).mem = Memory.write s.mem (b.base + i) v := rfl
@[simp] theorem busy_setEntry (s : State) (b : Buf) (i : Nat) (v : Byte) : (s.setEntry b i v).busy = s.busy := rfl
@[simp] theorem latencies_setEntry (s : State) (b : Buf) (i : Nat) (v : Byte) :
    (s.setEntry b i v).latencies = s.latencies := rfl
@[simp] theorem bus_setEntry (s : State) (b : Buf) (i : Nat) (v : Byte) : (s.setEntry b i v).bus = s.bus := rfl
@[simp] theorem reads_setEntry (s : State) (b : Buf) (i : Nat) (v : Byte) : (s.setEntry b i v).reads = s.reads := rfl
@[simp] theorem draws_setEntry (s : State) (b : Buf) (i : Nat) (v : Byte) : (s.setEntry b i v).draws = s.draws := rfl

@[simp] theorem reg_startBusy (s : State) (q : Reg) : (startBusy s).reg q = s.reg q := by cases q <;> rfl
@[simp] theorem mem_startBusy (s : State) : (startBusy s).mem = s.mem := rfl
@[simp] theorem busy_startBusy (s : State) : (startBusy s).busy = s.latencies.headD 0 := rfl
@[simp] theorem latencies_startBusy (s : State) : (startBusy s).latencies = s.latencies.tail := rfl
@[simp] theorem bus_startBusy (s : State) : (startBusy s).bus = s.bus := rfl
@[simp] theorem reads_startBusy (s : State) : (startBusy s).reads = s.reads := rfl
@[simp] theorem draws_startBusy (s : State) : (startBusy s).draws = s.draws := rfl

@[simp] theorem reg_tick (s : State) (q : Reg) : s.tick.reg q = s.reg q := by cases q <;> rfl
@[simp] theorem mem_tick (s : State) : s.tick.mem = s.mem := rfl
@[simp] theorem busy_tick (s : State) : s.tick.busy = s.busy - 1 := rfl
@[simp] theorem latencies_tick (s : State) : s.tick.latencies = s.latencies := rfl
@[simp] theorem bus_tick (s : State) : s.tick.bus = s.bus := rfl
@[simp] theorem reads_tick (s : State) : s.tick.reads = s.reads := rfl
@[simp] theorem draws_tick (s : State) : s.tick.draws = s.draws := rfl

@[simp] theorem reg_complete (s : State) (q : Reg) :
    (complete s).reg q = if q = .status then statusDone else if q = .cause then causeNone else s.reg q := by
  simp [complete]
@[simp] theorem mem_complete (s : State) : (complete s).mem = s.mem := rfl
@[simp] theorem busy_complete (s : State) : (complete s).busy = s.busy := rfl
@[simp] theorem latencies_complete (s : State) : (complete s).latencies = s.latencies := rfl
@[simp] theorem bus_complete (s : State) : (complete s).bus = s.bus := rfl
@[simp] theorem reads_complete (s : State) : (complete s).reads = s.reads := rfl
@[simp] theorem draws_complete (s : State) : (complete s).draws = s.draws := rfl

@[simp] theorem reg_raise (c : Cause) (s : State) (q : Reg) :
    (raise c s).reg q = if q = .status then statusFault else if q = .cause then c.code else s.reg q := by
  simp [raise]
@[simp] theorem mem_raise (c : Cause) (s : State) : (raise c s).mem = s.mem := rfl
@[simp] theorem busy_raise (c : Cause) (s : State) : (raise c s).busy = s.busy := rfl
@[simp] theorem latencies_raise (c : Cause) (s : State) : (raise c s).latencies = s.latencies := rfl
@[simp] theorem bus_raise (c : Cause) (s : State) : (raise c s).bus = s.bus := rfl
@[simp] theorem reads_raise (c : Cause) (s : State) : (raise c s).reads = s.reads := rfl
@[simp] theorem draws_raise (c : Cause) (s : State) : (raise c s).draws = s.draws := rfl

/-- Two states with the same registers and the same of everything else are the same. -/
theorem State.ext_reg {s u : State} (hr : ∀ r, u.reg r = s.reg r) (hm : u.mem = s.mem) (hb : u.busy = s.busy)
    (hl : u.latencies = s.latencies) (ht : u.bus = s.bus) (hd : u.reads = s.reads) (hw : u.draws = s.draws) : u = s := by
  have h := fun r => hr r
  cases s; cases u
  have h1 := h .cmd; have h2 := h .status; have h3 := h .cause; have h4 := h .t; have h5 := h .k
  have h6 := h .n; have h7 := h .a; have h8 := h .b; have h9 := h .pw; have h10 := h .y; have h11 := h .lp
  have h12 := h .lq; have h13 := h .lr; have h14 := h .lr2; have h15 := h .kd; have h16 := h .ldeg; have h17 := h .npos
  simp only [State.reg] at h1 h2 h3 h4 h5 h6 h7 h8 h9 h10 h11 h12 h13 h14 h15 h16 h17 hm hb hl ht hd hw
  subst_vars; rfl

end Sys2Proof.Machine
end

