-- ==== Sys2Proof/Laws/Memory.lean ====
section
/-! SUPPORT. The laws of memory: read after write, and the canonical form kept by every operation. -/

namespace Sys2Proof.Machine

theorem Memory.wf_cons (c : Host.Cell) (m : Memory) :
    Memory.wf (c :: m) = true ↔ c.2 ≠ Memory.unlisted ∧ (∀ d ∈ m, c.1 < d.1) ∧ Memory.wf m = true := by
  simp [Memory.wf, and_assoc]

theorem Memory.read_of_forall_ne {m : Memory} {a : Nat} (h : ∀ d ∈ m, d.1 ≠ a) :
    Memory.read m a = Memory.unlisted := by
  induction m with
  | nil => rfl
  | cons c m ih =>
    simp only [Memory.read]
    rw [if_neg (h c (by simp)), ih (fun d hd => h d (by simp [hd]))]

theorem Memory.read_append (m₁ m₂ : Memory) (a : Nat) :
    Memory.read (m₁ ++ m₂) a = if (∃ d ∈ m₁, d.1 = a) then Memory.read m₁ a else Memory.read m₂ a := by
  induction m₁ with
  | nil => simp
  | cons c m ih =>
    by_cases h : c.1 = a
    · simp [Memory.read, h]
    · simp [Memory.read, h, ih]

theorem Memory.mem_write {m : Memory} {a : Nat} {v : Byte} {d : Host.Cell} (h : d ∈ Memory.write m a v) :
    d ∈ m ∨ (d = (a, v) ∧ v ≠ Memory.unlisted) := by
  induction m with
  | nil =>
    simp only [Memory.write] at h
    split at h <;> simp_all
  | cons c m ih =>
    simp only [Memory.write] at h
    split_ifs at h with h1 h2 h3 h4
    · exact .inl h
    · rcases List.mem_cons.1 h with rfl | h
      · exact .inr ⟨rfl, h2⟩
      · exact .inl h
    · exact .inl (List.mem_cons_of_mem _ h)
    · rcases List.mem_cons.1 h with rfl | h
      · exact .inr ⟨rfl, h4⟩
      · exact .inl (List.mem_cons_of_mem _ h)
    · rcases List.mem_cons.1 h with rfl | h
      · exact .inl (by simp)
      · rcases ih h with h | h
        · exact .inl (List.mem_cons_of_mem _ h)
        · exact .inr h

/-- A write keeps the canonical form. -/
theorem Memory.wf_write {m : Memory} (hm : Memory.wf m = true) (a : Nat) (v : Byte) :
    Memory.wf (Memory.write m a v) = true := by
  induction m with
  | nil => by_cases h : v = Memory.unlisted <;> simp [Memory.write, Memory.wf, h]
  | cons c m ih =>
    obtain ⟨hc, hlt, hwf⟩ := (Memory.wf_cons c m).1 hm
    simp only [Memory.write]
    split_ifs with h1 h2 h3 h4
    · exact hm
    · refine (Memory.wf_cons _ _).2 ⟨h2, fun d hd => ?_, hm⟩
      rcases List.mem_cons.1 hd with rfl | hd
      · exact h1
      · exact lt_trans h1 (hlt d hd)
    · exact hwf
    · exact (Memory.wf_cons _ _).2 ⟨h4, fun d hd => h3 ▸ hlt d hd, hwf⟩
    · refine (Memory.wf_cons _ _).2 ⟨hc, fun d hd => ?_, ih hwf⟩
      rcases Memory.mem_write hd with hd | ⟨rfl, -⟩
      · exact hlt d hd
      · show c.1 < a
        omega

/-- Read after write: the byte written at its address, every other address as before. -/
theorem Memory.read_write {m : Memory} (hm : Memory.wf m = true) (a x : Nat) (v : Byte) :
    Memory.read (Memory.write m a v) x = if x = a then v else Memory.read m x := by
  induction m with
  | nil =>
    by_cases h : v = Memory.unlisted
    · simp [Memory.write, Memory.read, h]
    · by_cases hx : x = a
      · simp [Memory.write, Memory.read, h, hx]
      · simp [Memory.write, Memory.read, h, hx, Ne.symm hx]
  | cons c m ih =>
    obtain ⟨-, hlt, hwf⟩ := (Memory.wf_cons c m).1 hm
    have hrest : ∀ y, y ≤ c.1 → Memory.read m y = Memory.unlisted := fun y hy =>
      Memory.read_of_forall_ne (fun d hd => by have := hlt d hd; omega)
    rw [Memory.write]
    by_cases h1 : a < c.1
    · rw [if_pos h1]
      by_cases h2 : v = Memory.unlisted
      · rw [if_pos h2]
        by_cases h3 : x = a
        · rw [if_pos h3, h3, h2, Memory.read, if_neg (by omega), hrest a (by omega)]
        · rw [if_neg h3]
      · rw [if_neg h2, Memory.read]
        by_cases h3 : x = a
        · rw [if_pos h3, if_pos h3.symm]
        · rw [if_neg h3, if_neg (fun h => h3 h.symm)]
    · rw [if_neg h1]
      by_cases h3 : c.1 = a
      · rw [if_pos h3]
        by_cases h2 : v = Memory.unlisted
        · rw [if_pos h2, Memory.read]
          by_cases h4 : x = a
          · rw [if_pos h4, hrest x (by omega), h2]
          · rw [if_neg h4, if_neg (by omega)]
        · rw [if_neg h2, Memory.read, Memory.read]
          by_cases h4 : x = a
          · rw [if_pos h4, if_pos h4.symm]
          · rw [if_neg h4, if_neg (fun h => h4 h.symm), if_neg (by omega)]
      · rw [if_neg h3, Memory.read, Memory.read, ih hwf]
        by_cases h4 : c.1 = x
        · rw [if_pos h4, if_pos h4, if_neg (by omega)]
        · rw [if_neg h4, if_neg h4]

theorem Memory.mem_listed {vs : List Byte} {a : Nat} {d : Host.Cell} (h : d ∈ Memory.listed a vs) :
    a ≤ d.1 ∧ d.1 < a + vs.length ∧ d.2 ≠ Memory.unlisted := by
  induction vs generalizing a with
  | nil => simp [Memory.listed] at h
  | cons v vs ih =>
    simp only [Memory.listed] at h
    simp only [List.length_cons]
    split_ifs at h with h1
    · obtain ⟨h2, h3, h4⟩ := ih h
      exact ⟨by omega, by omega, h4⟩
    · rcases List.mem_cons.1 h with rfl | h
      · exact ⟨le_refl a, by show a < _; omega, h1⟩
      · obtain ⟨h2, h3, h4⟩ := ih h
        exact ⟨by omega, by omega, h4⟩

theorem Memory.wf_listed (a : Nat) (vs : List Byte) : Memory.wf (Memory.listed a vs) = true := by
  induction vs generalizing a with
  | nil => rfl
  | cons v vs ih =>
    simp only [Memory.listed]
    split_ifs with h1
    · exact ih _
    · exact (Memory.wf_cons _ _).2 ⟨h1, fun d hd => by
        have h := (Memory.mem_listed hd).1
        show a < d.1
        omega, ih _⟩

theorem Memory.read_listed (a x : Nat) (vs : List Byte) :
    Memory.read (Memory.listed a vs) x = if a ≤ x then vs.getD (x - a) Memory.unlisted else Memory.unlisted := by
  induction vs generalizing a with
  | nil => simp [Memory.listed, Memory.read]
  | cons v vs ih =>
    have hread : Memory.read (Memory.listed a (v :: vs)) x =
        if x = a then v else Memory.read (Memory.listed (a + 1) vs) x := by
      rw [Memory.listed]
      by_cases hv : v = Memory.unlisted
      · rw [if_pos hv]
        by_cases hx : x = a
        · rw [if_pos hx, ih, if_neg (by omega), hv]
        · rw [if_neg hx]
      · rw [if_neg hv, Memory.read]
        by_cases hx : x = a
        · rw [if_pos hx, if_pos hx.symm]
        · rw [if_neg hx, if_neg (fun h => hx h.symm)]
    rw [hread, ih]
    rcases lt_trichotomy x a with h | h | h
    · rw [if_neg (show ¬ a ≤ x by omega), if_neg (show ¬ x = a by omega), if_neg (show ¬ a + 1 ≤ x by omega)]
    · rw [if_pos h, if_pos (show a ≤ x by omega), h, Nat.sub_self, List.getD_cons_zero]
    · have hx : x - a = (x - (a + 1)) + 1 := by omega
      rw [if_neg (show ¬ x = a by omega), if_pos (show a + 1 ≤ x by omega), if_pos (show a ≤ x by omega), hx,
        List.getD_cons_succ]

theorem Memory.wf_append {m₁ m₂ : Memory} (h₁ : Memory.wf m₁ = true) (h₂ : Memory.wf m₂ = true)
    (h : ∀ c ∈ m₁, ∀ d ∈ m₂, c.1 < d.1) : Memory.wf (m₁ ++ m₂) = true := by
  induction m₁ with
  | nil => exact h₂
  | cons c m ih =>
    obtain ⟨hc, hlt, hwf⟩ := (Memory.wf_cons c m).1 h₁
    refine (Memory.wf_cons _ _).2 ⟨hc, fun d hd => ?_, ih hwf (fun e he => h e (by simp [he]))⟩
    rcases List.mem_append.1 hd with hd | hd
    · exact hlt d hd
    · exact h c (by simp) d hd

theorem Memory.wf_filter {m : Memory} (hm : Memory.wf m = true) (p : Host.Cell → Bool) :
    Memory.wf (m.filter p) = true := by
  induction m with
  | nil => rfl
  | cons c m ih =>
    obtain ⟨hc, hlt, hwf⟩ := (Memory.wf_cons c m).1 hm
    rw [List.filter_cons]
    split_ifs
    · exact (Memory.wf_cons _ _).2 ⟨hc, fun d hd => hlt d (List.mem_filter.1 hd).1, ih hwf⟩
    · exact ih hwf

/-- Filling a window keeps the canonical form. -/
theorem Memory.wf_fill {m : Memory} (hm : Memory.wf m = true) (base : Nat) (vs : List Byte) :
    Memory.wf (Memory.fill m base vs) = true := by
  have hlen : (vs.take Config.bufferSize).length ≤ Config.bufferSize := by simp
  refine Memory.wf_append (Memory.wf_filter hm _)
    (Memory.wf_append (Memory.wf_listed _ _) (Memory.wf_filter hm _) ?_) ?_
  · intro c hc d hd
    have h1 := Memory.mem_listed hc
    have h2 := of_decide_eq_true (List.mem_filter.1 hd).2
    omega
  · intro c hc d hd
    have h1 := of_decide_eq_true (List.mem_filter.1 hc).2
    rcases List.mem_append.1 hd with hd | hd
    · have h2 := Memory.mem_listed hd
      omega
    · have h2 := of_decide_eq_true (List.mem_filter.1 hd).2
      omega

theorem Memory.read_filter (m : Memory) (p : Nat → Bool) (x : Nat) :
    Memory.read (m.filter (fun c => p c.1)) x = if p x then Memory.read m x else Memory.unlisted := by
  induction m with
  | nil => simp [Memory.read]
  | cons c m ih =>
    rw [List.filter_cons]
    by_cases hp : p c.1
    · rw [if_pos hp]
      simp only [Memory.read]
      split_ifs with h1 h2 h2
      · rfl
      · rw [← h1] at h2; exact absurd hp h2
      · rw [ih, if_pos h2]
      · rw [ih, if_neg h2]
    · rw [if_neg hp, ih]
      by_cases h1 : c.1 = x
      · rw [← h1, if_neg hp, if_neg hp]
      · simp only [Memory.read, if_neg h1]

/-- Read after fill: the window holds `vs` (at most 256 bytes) and then 0x00; every other address is as before. -/
theorem Memory.read_fill (m : Memory) (base x : Nat) (vs : List Byte) :
    Memory.read (Memory.fill m base vs) x =
      if base ≤ x ∧ x < base + 256 then vs.getD (x - base) 0x00 else Memory.read m x := by
  have hlen : (vs.take Config.bufferSize).length ≤ Config.bufferSize := by simp
  have hsz : Config.bufferSize = 256 := rfl
  unfold Memory.fill
  rw [Memory.read_append, Memory.read_append, Memory.read_filter m (fun a => decide (a < base)) x,
    Memory.read_filter m (fun a => decide (base + Config.bufferSize ≤ a)) x]
  have hlow : (∃ d ∈ m.filter (fun c => decide (c.1 < base)), d.1 = x) ↔ x < base ∧ ∃ d ∈ m, d.1 = x := by
    simp only [List.mem_filter, decide_eq_true_eq]
    constructor
    · rintro ⟨d, ⟨hd, hl⟩, rfl⟩
      exact ⟨hl, d, hd, rfl⟩
    · rintro ⟨hl, d, hd, rfl⟩
      exact ⟨d, ⟨hd, hl⟩, rfl⟩
  have hmid : (∃ d ∈ Memory.listed base (vs.take Config.bufferSize), d.1 = x) → base ≤ x ∧ x < base + 256 := by
    rintro ⟨d, hd, rfl⟩
    have := Memory.mem_listed hd
    omega
  have hun : ∀ m' : Memory, (¬ ∃ d ∈ m', d.1 = x) → Memory.read m' x = Memory.unlisted := fun m' h =>
    Memory.read_of_forall_ne (fun d hd he => h ⟨d, hd, he⟩)
  by_cases h1 : x < base
  · rw [if_neg (show ¬ (base ≤ x ∧ x < base + 256) by omega)]
    by_cases h2 : ∃ d ∈ m, d.1 = x
    · rw [if_pos (hlow.2 ⟨h1, h2⟩), if_pos (decide_eq_true h1)]
    · rw [if_neg (fun h => h2 (hlow.1 h).2), if_neg (fun h => by have := hmid h; omega), hun m h2]
      split_ifs <;> rfl
  · rw [if_neg (fun h => h1 (hlow.1 h).1)]
    by_cases h2 : x < base + 256
    · rw [if_pos (show base ≤ x ∧ x < base + 256 from ⟨by omega, h2⟩)]
      have hget : (vs.take Config.bufferSize).getD (x - base) Memory.unlisted = vs.getD (x - base) 0x00 := by
        simp only [List.getD_eq_getElem?_getD]
        rw [List.getElem?_take_of_lt (by omega)]
        rfl
      have hl := Memory.read_listed base x (vs.take Config.bufferSize)
      rw [if_pos (show base ≤ x by omega), hget] at hl
      by_cases h3 : ∃ d ∈ Memory.listed base (vs.take Config.bufferSize), d.1 = x
      · rw [if_pos h3, hl]
      · rw [if_neg h3, if_neg (by simp; omega), ← hl, hun _ h3]
    · rw [if_neg (show ¬ (base ≤ x ∧ x < base + 256) by omega), if_neg (fun h => by have := hmid h; omega),
        if_pos (by simp; omega)]

theorem Memory.mem_fill {m : Memory} {base : Nat} {vs : List Byte} {d : Host.Cell} (h : d ∈ Memory.fill m base vs) :
    d ∈ m ∨ (base ≤ d.1 ∧ d.1 < base + 256) := by
  have hlen : (vs.take Config.bufferSize).length ≤ Config.bufferSize := by simp
  have hsz : Config.bufferSize = 256 := rfl
  rcases List.mem_append.1 h with h | h
  · exact .inl (List.mem_filter.1 h).1
  · rcases List.mem_append.1 h with h | h
    · have := Memory.mem_listed h
      exact .inr ⟨this.1, by omega⟩
    · exact .inl (List.mem_filter.1 h).1

/-- `BUFNAME[i]` after a result is written into the same or another buffer (10_state.md R55). -/
theorem entry_setBuf_same (s : State) (b : Buf) (vs : List Byte) {i : Nat} (hi : i < 256) :
    (s.setBuf b vs).entry b i = vs.getD i 0x00 := by
  simp only [State.entry, mem_setBuf, Memory.read_fill]
  rw [if_pos ⟨by omega, by omega⟩]
  congr 1
  omega

/-- The memory after reset has the canonical form. -/
theorem Memory.wf_reset : Memory.wf State.reset.mem = true := rfl

end Sys2Proof.Machine
end

