-- ==== Sys2Proof/Laws/Ops.lean ====
section
/-! SUPPORT. What each shared operation can do, said once: the end of a command, its fault, its frame, a buffer written, the
configuration checks, the operands read. -/

namespace Sys2Proof.Machine

/-! ### Buffers and their entries -/

@[simp] theorem entry_setReg (s : State) (r : Reg) (v : Byte) (b : Buf) (i : Nat) :
    (s.setReg r v).entry b i = s.entry b i := by simp [State.entry]
@[simp] theorem entry_complete (s : State) (b : Buf) (i : Nat) : (complete s).entry b i = s.entry b i := rfl
@[simp] theorem entry_raise (c : Cause) (s : State) (b : Buf) (i : Nat) : (raise c s).entry b i = s.entry b i := rfl
@[simp] theorem entry_startBusy (s : State) (b : Buf) (i : Nat) : (startBusy s).entry b i = s.entry b i := rfl

/-- The windows of two different buffers do not meet (10_state.md R42). -/
theorem Buf.base_apart {b c : Buf} (h : b ≠ c) : b.base + 256 ≤ c.base ∨ c.base + 256 ≤ b.base := by
  cases b <;> cases c <;> simp_all [Buf.base]

theorem Buf.base_bounds (b : Buf) : 0x100 ≤ b.base ∧ b.base + 256 ≤ 0xB00 := by cases b <;> simp [Buf.base]

theorem entry_setBuf_other (s : State) {b c : Buf} (h : c ≠ b) (vs : List Byte) {i : Nat} (hi : i < 256) :
    (s.setBuf b vs).entry c i = s.entry c i := by
  have := Buf.base_apart h
  simp only [State.entry, mem_setBuf, Memory.read_fill]
  rw [if_neg (by omega)]

@[simp] theorem count_setReg (s : State) (r q : Reg) (v : Byte) :
    (s.setReg r v).count q = if q = r then v.toNat else s.count q := by
  simp only [State.count, reg_setReg]; split <;> rfl
@[simp] theorem count_setBuf (s : State) (b : Buf) (vs : List Byte) (q : Reg) :
    (s.setBuf b vs).count q = s.count q := by simp [State.count]
@[simp] theorem count_complete (s : State) (q : Reg) :
    (complete s).count q = if q = .status then 2 else if q = .cause then 0 else s.count q := by
  simp only [State.count, reg_complete]; split_ifs <;> rfl

theorem count_lt (s : State) (r : Reg) : s.count r < 256 := (s.reg r).isLt

theorem toNat_countByte {n : Nat} (h : n < 256) : (countByte n).toNat = n := by
  simp [countByte, BitVec.toNat_ofNat, Nat.mod_eq_of_lt h]

@[simp] theorem length_entries (s : State) (b : Buf) (n : Nat) : (s.entries b n).length = n := by simp [State.entries]

theorem getD_entries (s : State) (b : Buf) {n i : Nat} (h : i < n) : (s.entries b n).getD i 0x00 = s.entry b i := by
  simp [State.entries, List.getD_eq_getElem?_getD, h]

theorem entries_congr {s s' : State} {b : Buf} {n : Nat} (h : ∀ i, i < n → s'.entry b i = s.entry b i) :
    s'.entries b n = s.entries b n :=
  List.map_congr_left (fun i hi => h i (List.mem_range.1 hi))

@[simp] theorem length_polyP (s : State) : (polyP s).length = s.count .lp := length_entries ..
@[simp] theorem length_polyQ (s : State) : (polyQ s).length = s.count .lq := length_entries ..
@[simp] theorem length_message (s : State) : (message s).length = s.count .k := length_entries ..
@[simp] theorem length_receivedWord (s : State) : (receivedWord s).length = s.count .n := length_entries ..
@[simp] theorem length_syndromeVector (s : State) : (syndromeVector s).length = s.count .t := length_entries ..
@[simp] theorem length_locatorPoly (s : State) : (locatorPoly s).length = s.count .ldeg + 1 := length_entries ..
@[simp] theorem length_positionList (s : State) : (positionList s).length = s.count .npos := by simp [positionList]

/-- A result of at most 256 bytes written into a buffer stands there, with 0x00 beyond it (R55). -/
theorem bufHolds_setBuf (s : State) (b : Buf) {vs : List Byte} (h : vs.length ≤ 256) : BufHolds (s.setBuf b vs) b vs :=
  ⟨h, fun _ hi => entry_setBuf_same s b vs hi⟩

theorem BufHolds.setReg {u : State} {b : Buf} {vs : List Byte} (h : BufHolds u b vs) (r : Reg) (v : Byte) :
    BufHolds (u.setReg r v) b vs := ⟨h.1, fun i hi => by rw [entry_setReg, h.2 i hi]⟩

theorem BufHolds.complete {u : State} {b : Buf} {vs : List Byte} (h : BufHolds u b vs) :
    BufHolds (complete u) b vs := h

theorem BufHolds.setBuf_other {u : State} {b c : Buf} {vs ws : List Byte} (h : BufHolds u c vs) (hc : c ≠ b) :
    BufHolds (u.setBuf b ws) c vs := ⟨h.1, fun i hi => by rw [entry_setBuf_other u hc ws hi, h.2 i hi]⟩

/-- The words a buffer's first entries form after a result was written into it. -/
theorem BufHolds.entries {u : State} {b : Buf} {vs : List Byte} (h : BufHolds u b vs) : u.entries b vs.length = vs := by
  apply List.ext_getElem (by simp)
  intro i h1 h2
  have := h.2 i (lt_of_lt_of_le h2 h.1)
  simp [State.entries, this, h2]

/-! ### The end of a command -/

theorem conclude_ok (s u : State) : conclude s (.ok u) = .next (complete u) := rfl

theorem conclude_error (s : State) (c : Cause) : conclude s (.error c) = .next (raise c s) := rfl

/-- A command ends in the success of its writes or in a fault that has none. -/
theorem conclude_cases {s v : State} {r : Except Cause State} (h : conclude s r = .next v) :
    (∃ u, r = .ok u ∧ v = complete u) ∨ ∃ c, r = .error c ∧ v = raise c s := by
  cases r with
  | ok u => exact .inl ⟨u, rfl, by simpa [conclude] using h.symm⟩
  | error c => exact .inr ⟨c, rfl, by simpa [conclude] using h.symm⟩

/-- Every meaning is the end of a command in the state it is issued in. -/
theorem exec_conclude (i : Instr) (s : State) : ∃ r, exec i s = conclude s r := by
  cases i <;>
  · simp only [exec, execNop, execSreset, execFadd, execFmul, execFdiv, execFinv, execFpow, execFexp, execFlog,
    execPeval, execPcoef, execPscale, execPadd, execPmul, execPdiv, execPderiv, execGenpoly, execEncode,
    execSyndromes, execCheck, execStrip, execLocator, execPositions, execMagnitudes, execRepair, execDecode]
    exact ⟨_, rfl⟩

/-- A fault is the state before the command with its record. -/
theorem raise_eq (c : Cause) (s : State) : raise c s = { s with status := 0x06, cause := c.code } := rfl

theorem raise_faultsWith (c : Cause) (s : State) : FaultsWith c.code s (raise c s) := rfl

theorem Cause.code_bounds (c : Cause) : 1 ≤ c.code.toNat ∧ c.code.toNat ≤ 7 := by cases c <;> decide

/-! ### Frames -/

theorem Frame.refl (rs : List Reg) (bs : List Buf) (s : State) : Frame rs bs s s :=
  ⟨fun _ _ => rfl, fun _ _ => rfl, rfl, rfl, rfl, rfl, rfl⟩

theorem Frame.setReg {rs : List Reg} {bs : List Buf} {s u : State} (h : Frame rs bs s u) {r : Reg} (hr : r ∈ rs)
    (v : Byte) : Frame rs bs s (u.setReg r v) := by
  obtain ⟨h1, h2, h3, h4, h5, h6, h7⟩ := h
  refine ⟨fun q hq => ?_, fun a ha => ?_, ?_, ?_, ?_, ?_, ?_⟩
  · rw [reg_setReg, if_neg (fun h => hq (by simp [h, hr])), h1 q hq]
  · rw [mem_setReg, h2 a ha]
  all_goals simpa

theorem Frame.setBuf {rs : List Reg} {bs : List Buf} {s u : State} (h : Frame rs bs s u) {b : Buf} (hb : b ∈ bs)
    (vs : List Byte) : Frame rs bs s (u.setBuf b vs) := by
  obtain ⟨h1, h2, h3, h4, h5, h6, h7⟩ := h
  refine ⟨fun q hq => ?_, fun a ha => ?_, h3, h4, h5, h6, h7⟩
  · rw [reg_setBuf, h1 q hq]
  · rw [mem_setBuf, Memory.read_fill, if_neg (show ¬ (b.base ≤ a ∧ a < b.base + 256) from ha b hb), h2 a ha]

theorem Frame.complete {rs : List Reg} {bs : List Buf} {s u : State} (h : Frame rs bs s u) :
    Frame rs bs s (complete u) := by
  obtain ⟨h1, h2, h3⟩ := h
  refine ⟨fun q hq => ?_, h2, h3⟩
  rw [reg_complete, if_neg (fun h => hq (by simp [h])), if_neg (fun h => hq (by simp [h])), h1 q hq]

theorem Frame.raise (rs : List Reg) (bs : List Buf) (c : Cause) (s : State) : Frame rs bs s (raise c s) := by
  refine ⟨fun q hq => ?_, fun _ _ => rfl, rfl, rfl, rfl, rfl, rfl⟩
  rw [reg_raise, if_neg (fun h => hq (by simp [h])), if_neg (fun h => hq (by simp [h]))]

/-- A command whose writes stay in its row succeeds within it. -/
theorem Frame.succeeds {rs : List Reg} {bs : List Buf} {s u : State} (h : Frame rs bs s u) :
    Succeeds rs bs s (Machine.complete u) := ⟨by rw [reg_complete, if_pos rfl]; rfl, by simp; rfl, h.complete⟩

/-! ### The configuration checks -/

theorem checkT_ok {s : State} (h : s.count .t ≠ 0) (r : Except Cause State) : checkT s r = r := if_neg h

theorem checkT_fault {s : State} (h : s.count .t = 0) (r : Except Cause State) :
    checkT s r = .error .configurationError := if_pos h

theorem checkN_ok {s : State} (h : s.count .t ≤ s.count .n) (r : Except Cause State) : checkN s r = r :=
  if_neg (by omega)

theorem checkN_fault {s : State} (h : s.count .n < s.count .t) (r : Except Cause State) :
    checkN s r = .error .configurationError := if_pos h

/-! ### Timing -/

/-- The state with another BUSY time and other latencies. -/
def State.retimed (k : Nat) (ls : List Nat) (s : State) : State := { s with busy := k, latencies := ls }

section Retimed

variable (k : Nat) (ls : List Nat) (s : State)

theorem reg_retimed (r : Reg) : (s.retimed k ls).reg r = s.reg r := by cases r <;> rfl
theorem count_retimed (r : Reg) : (s.retimed k ls).count r = s.count r := by cases r <;> rfl
theorem setReg_retimed (r : Reg) (v : Byte) : (s.retimed k ls).setReg r v = (s.setReg r v).retimed k ls := by
  cases r <;> rfl
theorem setBuf_retimed (b : Buf) (vs : List Byte) : (s.retimed k ls).setBuf b vs = (s.setBuf b vs).retimed k ls := rfl

theorem polyP_retimed : polyP (s.retimed k ls) = polyP s := rfl
theorem polyQ_retimed : polyQ (s.retimed k ls) = polyQ s := rfl
theorem message_retimed : message (s.retimed k ls) = message s := rfl
theorem receivedWord_retimed : receivedWord (s.retimed k ls) = receivedWord s := rfl
theorem syndromeVector_retimed : syndromeVector (s.retimed k ls) = syndromeVector s := rfl
theorem locatorPoly_retimed : locatorPoly (s.retimed k ls) = locatorPoly s := rfl
theorem positionList_retimed : positionList (s.retimed k ls) = positionList s := rfl

theorem conclude_map_retimed {α : Type} (x : Except Cause α) (f : α → State) :
    ∃ u, conclude s (x.map f) = .next u ∧
      conclude (s.retimed k ls) (x.map (fun v => (f v).retimed k ls)) = .next (u.retimed k ls) := by
  cases x <;> exact ⟨_, rfl, rfl⟩

/-- TIMING DOES NOT REACH A COMMAND (70_reset_and_hazards.md R350): with another BUSY time and other latencies it ends in
the same state but for these. -/
theorem exec_retimed (i : Instr) :
    ∃ u, exec i s = .next u ∧ exec i (s.retimed k ls) = .next (u.retimed k ls) := by
  cases i <;> simp only [exec, execNop, execSreset, execFadd, execFmul, execFdiv, execFinv, execFpow, execFexp, execFlog,
      execPeval, execPcoef, execPscale, execPadd, execPmul, execPdiv, execPderiv, execGenpoly, execEncode, execSyndromes,
      execCheck, execStrip, execLocator, execPositions, execMagnitudes, execRepair, execDecode, toY, toR, toR2, toMessage,
      toLocator, toPositions, checkT, checkN, reg_retimed, count_retimed, setReg_retimed, setBuf_retimed, polyP_retimed, polyQ_retimed,
      message_retimed, receivedWord_retimed, syndromeVector_retimed, locatorPoly_retimed, positionList_retimed]
  all_goals
    try split_ifs
  all_goals first
    | exact ⟨_, rfl, rfl⟩
    | exact conclude_map_retimed k ls s _ _

end Retimed

end Sys2Proof.Machine
end

