-- ==== Sys2Proof/Laws/Bus.lean ====
section
/-! SUPPORT. What one step can do, said once, and the address map of the registers and buffers. -/

namespace Sys2Proof.Machine

/-- With no access pending the bus is idle for a cycle. -/
theorem hostAccess_idle {s : State} (h : s.bus = []) : hostAccess s = .done s.tick := by simp [hostAccess, h]

/-- While no command executes every access is admitted. -/
theorem hostAccess_ready {s : State} {x : Transaction} {rest : List Transaction} (hb : s.busy = 0)
    (h : s.bus = x :: rest) : hostAccess s = admitted x rest s := by simp [hostAccess, h, hb]

/-- While a command executes a read of STATUS is admitted. -/
theorem hostAccess_status {s : State} {x : Transaction} {rest : List Transaction} (hx : x.readsStatus = true)
    (h : s.bus = x :: rest) : hostAccess s = admitted x rest s := by simp [hostAccess, h, hx]

/-- While a command executes every other access is turned away. -/
theorem hostAccess_busy {s : State} {x : Transaction} {rest : List Transaction} (hb : s.busy ≠ 0)
    (hx : x.readsStatus = false) (h : s.bus = x :: rest) : hostAccess s = .notAdmitted := by
  simp [hostAccess, h, hb, hx]

theorem step_done {s u : State} (h : hostAccess s = .done u) : step s = .next u := by simp [step, h]

theorem step_issue {s u : State} {v : Byte} {i : Instr} (h : hostAccess s = .issue v u) (hd : decode v = .ok i) :
    step s = exec i u := by simp [step, h, hd]

theorem step_reserved {s u : State} {v : Byte} {e : DecodeError} (h : hostAccess s = .issue v u)
    (hd : decode v = .error e) : step s = .next (raise .illegalCommand u) := by
  simp [step, h, hd, illegalCommand, conclude]

theorem step_notAdmitted {s : State} (h : hostAccess s = .notAdmitted) : step s = .refused .busyAccess := by
  simp [step, h]

/-- ONE STEP: an access that is no command, a command, a reserved command, or a refusal. -/
theorem step_cases (s : State) :
    (∃ u, hostAccess s = .done u ∧ step s = .next u) ∨
    (∃ v u i, hostAccess s = .issue v u ∧ decode v = .ok i ∧ step s = exec i u) ∨
    (∃ v u e, hostAccess s = .issue v u ∧ decode v = .error e ∧ step s = .next (raise .illegalCommand u)) ∨
    (hostAccess s = .notAdmitted ∧ step s = .refused .busyAccess) := by
  rcases h : hostAccess s with u | ⟨v, u⟩ | _
  · exact .inl ⟨u, rfl, step_done h⟩
  · rcases hd : decode v with e | i
    · exact .inr (.inr (.inl ⟨v, u, e, rfl, hd, step_reserved h hd⟩))
    · exact .inr (.inl ⟨v, u, i, rfl, hd, step_issue h hd⟩)
  · exact .inr (.inr (.inr ⟨rfl, step_notAdmitted h⟩))

/-- THE BYTES A HOST ACCESS CAN LEAVE: what it leaves (an access done or a command issued) has the memory as before, or
with one entry of a buffer written. -/
theorem mem_hostAccess {s u : State} (h : hostAccess s = .done u ∨ ∃ v, hostAccess s = .issue v u) :
    u.mem = s.mem ∨ ∃ (b : Buf) (i : Nat) (v : Byte), i < 256 ∧ u.mem = Memory.write s.mem (b.base + i) v := by
  have hw : ∀ (a : Addr) (v : Byte) (s' : State), (busWrite a v s').mem = s'.mem ∨
      ∃ (b : Buf) (i : Nat) (w : Byte), i < 256 ∧ (busWrite a v s').mem = Memory.write s'.mem (b.base + i) w := by
    intro a v s'
    have hi : a.toNat % 256 < 256 := Nat.mod_lt _ (by decide)
    have hr : ∀ n, (Loc.ofRegisterPage n).write v s' = s' ∨ ∃ r : Reg, (Loc.ofRegisterPage n).write v s' = s'.setReg r v := by
      intro n
      unfold Loc.ofRegisterPage
      split <;> simp only [Loc.write] <;> (try split) <;> first | exact .inl trivial | exact .inl rfl | exact .inr ⟨_, rfl⟩
    unfold busWrite Loc.ofAddr Loc.ofPage
    split
    · rcases hr (a.toNat % 256) with h | ⟨r, h⟩ <;> rw [h]
      · exact .inl rfl
      · exact .inl (mem_setReg _ _ _)
    all_goals
      simp only [Loc.write, Buf.hostWritable]
      first
        | exact .inl trivial
        | exact .inl rfl
        | exact .inr ⟨_, _, _, hi, rfl⟩
  have hread : ∀ (a : Addr) (s' : State), (busRead a s').mem = s'.mem := by
    intro a s'
    simp only [busRead, Loc.afterRead]
    split <;> rfl
  have hadm : ∀ (x : Transaction) (rest : List Transaction), (admitted x rest s = .done u ∨ ∃ v, admitted x rest s = .issue v u) →
      u.mem = s.mem ∨ ∃ (b : Buf) (i : Nat) (v : Byte), i < 256 ∧ u.mem = Memory.write s.mem (b.base + i) v := by
    intro x rest hx
    cases x with
    | write a v =>
      have := hw a v { s with bus := rest }
      simp only [admitted] at hx
      split at hx
      · simp only [reduceCtorEq, false_or, Access.issue.injEq] at hx
        obtain ⟨_, _, rfl⟩ := hx
        simpa using this
      · simp only [Access.done.injEq, reduceCtorEq, exists_false, or_false] at hx
        subst hx
        exact this
    | read a =>
      simp only [admitted, Access.done.injEq, reduceCtorEq, exists_false, or_false] at hx
      subst hx
      exact .inl (hread a _)
    | wait =>
      simp only [admitted] at hx
      split at hx <;> simp only [Access.done.injEq, reduceCtorEq, exists_false, or_false] at hx <;> subst hx
      · exact .inl (hread _ _)
      · exact .inl (hread _ _)
  rcases hb : s.bus with _ | ⟨x, rest⟩
  · rw [hostAccess_idle hb] at h
    simp only [Access.done.injEq, reduceCtorEq, exists_false, or_false] at h
    subst h
    exact .inl rfl
  · by_cases hc : s.busy = 0 ∨ x.readsStatus = true
    · have he : hostAccess s = admitted x rest s := by simp [hostAccess, hb, hc]
      rw [he] at h
      exact hadm x rest h
    · have he : hostAccess s = .notAdmitted := by simp only [hostAccess, hb, if_neg hc]
      simp [he] at h

/-- An access that is no command leaves the record as it was (R57, R62, R65). -/
theorem record_hostAccess {s u : State} (h : hostAccess s = .done u) :
    u.reg .status = s.reg .status ∧ u.reg .cause = s.reg .cause := by
  have hr : ∀ (n : Nat) (v : Byte) (s' : State), ((Loc.ofRegisterPage n).write v s').status = s'.status ∧
      ((Loc.ofRegisterPage n).write v s').cause = s'.cause := by
    intro n v s'
    unfold Loc.ofRegisterPage
    split <;> exact ⟨rfl, rfl⟩
  have hw : ∀ (a : Addr) (v : Byte) (s' : State), (busWrite a v s').status = s'.status ∧
      (busWrite a v s').cause = s'.cause := by
    intro a v s'
    unfold busWrite Loc.ofAddr Loc.ofPage
    split
    · exact hr _ v s'
    all_goals exact ⟨rfl, rfl⟩
  have hread : ∀ (a : Addr) (s' : State), (busRead a s').status = s'.status ∧ (busRead a s').cause = s'.cause := by
    intro a s'
    simp only [busRead, Loc.afterRead]
    split <;> exact ⟨rfl, rfl⟩
  unfold hostAccess at h
  split at h
  · cases h; exact ⟨rfl, rfl⟩
  · split at h
    · rename_i x rest _ _
      cases x with
      | write a v =>
        simp only [admitted] at h
        split at h <;> cases h
        exact hw a v { s with bus := rest }
      | read a => cases h; exact hread a { s with bus := rest }
      | wait =>
        simp only [admitted] at h
        split at h <;> cases h
        · exact hread statusAddr { s with bus := rest }
        · exact hread statusAddr s
    · cases h

/-! ### Addresses -/

/-- The registers stand at the addresses of 10_state.md R22. -/
theorem ofAddr_reg (r : Reg) : Loc.ofAddr r.addr = .reg r := by cases r <;> rfl

/-- The buffers stand at the windows of R42. -/
theorem ofAddr_entry (b : Buf) {i : Nat} (hi : i < 256) : Loc.ofAddr (b.addr i) = .entry b i := by
  have hb := b.base_bounds
  have h1 : (b.addr i).toNat = b.base + i := by
    simp only [Buf.addr, BitVec.toNat_ofNat]
    exact Nat.mod_eq_of_lt (by omega)
  have h2 : (b.base + i) % 256 = i := by cases b <;> simp [Buf.base] <;> omega
  have h3 : (b.base + i) / 256 = b.base / 256 := by cases b <;> simp [Buf.base] <;> omega
  rw [Loc.ofAddr, h1, h2, h3]
  cases b <;> rfl

/-- The address a place stands at; 0x1000 for no place. -/
def Loc.home : Loc → Nat
  | .ident => 0x000
  | .version => 0x001
  | .reg r => r.addr.toNat
  | .entry b i => b.base + i
  | .expt i => 0xB00 + i
  | .logt i => 0xC00 + i
  | .reserved => 0x1000

/-- The register page puts every place where it stands. -/
theorem home_ofRegisterPage (i : Nat) (h : Loc.ofRegisterPage i ≠ .reserved) : (Loc.ofRegisterPage i).home = i := by
  unfold Loc.ofRegisterPage at *
  split at h <;> first | rfl | exact absurd rfl h

/-- The address map puts every place where it stands (20_memory.md R61). -/
theorem home_ofAddr (a : Addr) (h : Loc.ofAddr a ≠ .reserved) : (Loc.ofAddr a).home = a.toNat := by
  have hd := Nat.div_add_mod a.toNat 256
  unfold Loc.ofAddr Loc.ofPage at *
  split at h
  case h_1 hp => rw [hp] at hd; rw [home_ofRegisterPage _ h]; omega
  all_goals first
    | exact absurd rfl h
    | (rename_i hp; rw [hp] at hd; simp only [Loc.home, Buf.base]; omega)

/-- No two addresses share a place, but the reserved ones. -/
theorem ofAddr_inj {a x : Addr} (h : Loc.ofAddr a = Loc.ofAddr x) (hr : Loc.ofAddr a ≠ .reserved) : a = x := by
  have h1 := home_ofAddr a hr
  have h2 := home_ofAddr x (h ▸ hr)
  exact BitVec.eq_of_toNat_eq (by rw [← h1, ← h2, h])

end Sys2Proof.Machine
end

