-- ==== Sys2Proof/Laws/PerInstr.lean ====
section
/-! SUPPORT. One family of statements made per command: the fields of its opcode (30_encoding.md R90, R92). -/

namespace Sys2Proof.Laws.OpcodeFields

/-- The command's opcode is a well-formed command byte: its UNIT is one of the five units and its FUNC is below the number
of that unit's operations. -/
def Statement (i : Instr) : Prop :=
  (unitOf (encode i)).toNat ≤ 4 ∧ (funcOf (encode i)).toNat < WellFormed.operationsOf (unitOf (encode i)).toNat ∧
    WellFormed.commandByte (encode i) = true

theorem nop : Statement .nop := by unfold Statement; decide
theorem sreset : Statement .sreset := by unfold Statement; decide
theorem fadd : Statement .fadd := by unfold Statement; decide
theorem fmul : Statement .fmul := by unfold Statement; decide
theorem fdiv : Statement .fdiv := by unfold Statement; decide
theorem finv : Statement .finv := by unfold Statement; decide
theorem fpow : Statement .fpow := by unfold Statement; decide
theorem fexp : Statement .fexp := by unfold Statement; decide
theorem flog : Statement .flog := by unfold Statement; decide
theorem peval : Statement .peval := by unfold Statement; decide
theorem pcoef : Statement .pcoef := by unfold Statement; decide
theorem pscale : Statement .pscale := by unfold Statement; decide
theorem padd : Statement .padd := by unfold Statement; decide
theorem pmul : Statement .pmul := by unfold Statement; decide
theorem pdiv : Statement .pdiv := by unfold Statement; decide
theorem pderiv : Statement .pderiv := by unfold Statement; decide
theorem genpoly : Statement .genpoly := by unfold Statement; decide
theorem encode : Statement .encode := by unfold Statement; decide
theorem syndromes : Statement .syndromes := by unfold Statement; decide
theorem check : Statement .check := by unfold Statement; decide
theorem strip : Statement .strip := by unfold Statement; decide
theorem locator : Statement .locator := by unfold Statement; decide
theorem positions : Statement .positions := by unfold Statement; decide
theorem magnitudes : Statement .magnitudes := by unfold Statement; decide
theorem repair : Statement .repair := by unfold Statement; decide
theorem decode : Statement .decode := by unfold Statement; decide

end Sys2Proof.Laws.OpcodeFields
end

