-- ==== Sys2Proof/Laws/Poly.lean ====
section
/-! SUPPORT. The first laws of the field functions, the polynomial functions and the codec functions: zeros, lengths, and
the recursions that later proofs use in place of the definitions. -/

namespace Sys2Proof.Machine

/-! ### Field -/

@[simp] theorem zero_gmul (x : Byte) : gmul 0x00 x = 0x00 := by simp [gmul]
@[simp] theorem gmul_zero (x : Byte) : gmul x 0x00 = 0x00 := by simp [gmul]
theorem gadd_eq (x y : Byte) : gadd x y = x ^^^ y := rfl
@[simp] theorem gadd_zero (x : Byte) : gadd x 0x00 = x := by simp [gadd]
@[simp] theorem zero_gadd (x : Byte) : gadd 0x00 x = x := by simp [gadd]
@[simp] theorem zero_gquot (y : Byte) : gquot 0x00 y = 0x00 := by simp [gquot]

/-! ### Coefficients -/

theorem coef_of_length_le {p : Poly} {j : Nat} (h : p.length ≤ j) : coef p j = 0x00 := if_neg (by omega)

theorem coef_of_lt {p : Poly} {j : Nat} (h : j < p.length) : coef p j = p.getD (p.length - 1 - j) 0x00 := if_pos h

@[simp] theorem coef_nil (j : Nat) : coef [] j = 0x00 := by simp [coef]

/-- The leading entry is the coefficient of the highest degree; the others are those of the rest. -/
theorem coef_cons (c : Byte) (p : Poly) (j : Nat) : coef (c :: p) j = if j = p.length then c else coef p j := by
  by_cases h : j = p.length
  · rw [if_pos h, h, coef_of_lt (by simp)]
    simp
  · rw [if_neg h]
    by_cases h2 : j < p.length
    · rw [coef_of_lt (by simp; omega), coef_of_lt h2]
      have : (c :: p).length - 1 - j = (p.length - 1 - j) + 1 := by simp; omega
      rw [this, List.getD_cons_succ]
    · rw [coef_of_length_le (by simp; omega), coef_of_length_le (by omega)]

/-- A list given by its coefficients, most significant first, has them. -/
theorem coef_map_range (m : Nat) (f : Nat → Byte) (j : Nat) :
    coef ((List.range m).map (fun i => f (m - 1 - i))) j = if j < m then f j else 0x00 := by
  by_cases h : j < m
  · rw [if_pos h, coef_of_lt (by simpa using h)]
    have h2 : m - 1 - j < m := by omega
    have h3 : m - 1 - (m - 1 - j) = j := by omega
    simp [List.getD_eq_getElem?_getD, h2, h3]
  · rw [if_neg h, coef_of_length_le (by simp; omega)]

/-- Two polynomials of one length with the same coefficients are the same. -/
theorem poly_ext {p q : Poly} (hl : p.length = q.length) (h : ∀ j, coef p j = coef q j) : p = q := by
  apply List.ext_getElem hl
  intro i h1 h2
  have := h (p.length - 1 - i)
  rw [coef_of_lt (by omega), coef_of_lt (by omega)] at this
  have e1 : p.length - 1 - (p.length - 1 - i) = i := by omega
  have e2 : q.length - 1 - (p.length - 1 - i) = i := by omega
  rw [e1, e2] at this
  simpa [List.getD_eq_getElem?_getD, h1, h2] using this

/-! ### Lengths -/

@[simp] theorem length_pscale (p : Poly) (x : Byte) : (pscale p x).length = p.length := by simp [pscale]

@[simp] theorem length_padd (p q : Poly) : (padd p q).length = max p.length q.length := by simp [padd]

@[simp] theorem length_addAt (i : Nat) (xs r : List Byte) : (addAt i xs r).length = r.length := by
  induction r generalizing i xs with
  | nil => simp [addAt]
  | cons c r ih =>
    cases i with
    | zero => cases xs with
      | nil => simp [addAt]
      | cons x xs => simp [addAt, ih]
    | succ i => simp [addAt, ih]

@[simp] theorem length_pmulLoop (i : Nat) (p q r : Poly) : (pmulLoop i p q r).length = r.length := by
  induction p generalizing i r with
  | nil => rfl
  | cons c p ih => simp [pmulLoop, ih]

theorem length_pmul (p q : Poly) :
    (pmul p q).length = if p.length = 0 ∨ q.length = 0 then 0 else p.length + q.length - 1 := by
  unfold pmul
  split_ifs <;> simp

theorem length_pdivLoop (q0 : Byte) (qs : Poly) (n : Nat) (out : Poly) (h : n ≤ out.length) :
    (pdivLoop q0 qs n out).1.length = n ∧ (pdivLoop q0 qs n out).2.length = out.length - n := by
  induction n generalizing out with
  | zero => simp [pdivLoop]
  | succ n ih =>
    cases out with
    | nil => simp at h
    | cons c out =>
      have := ih (addAt 0 (qs.map (fun e => gmul e (gquot c q0))) out) (by simpa using h)
      simp only [pdivLoop, List.length_cons]
      simp only [length_addAt] at this
      omega

/-- What a division gives: the divisor's leading entry is not zero, and quotient and remainder have their lengths. -/
theorem pdivmod_ok {p q : Poly} {d : Poly × Poly} (h : pdivmod p q = .ok d) :
    q ≠ [] ∧ q.getD 0 0x00 ≠ 0x00 ∧ d.1.length = p.length + 1 - q.length ∧ d.2.length = q.length - 1 := by
  cases q with
  | nil => simp [pdivmod] at h
  | cons q0 qs =>
    simp only [pdivmod] at h
    split_ifs at h with h0
    have hl := length_pdivLoop q0 qs (p.length + 1 - (qs.length + 1)) p (by omega)
    cases h
    refine ⟨by simp, by simpa using h0, ?_, ?_⟩
    · simpa using hl.1
    · simp

theorem pdivmod_cons {q0 : Byte} (h : q0 ≠ 0x00) (p qs : Poly) : pdivmod p (q0 :: qs) =
    .ok ((pdivLoop q0 qs (p.length + 1 - (qs.length + 1)) p).1,
      (List.range qs.length).map (fun i =>
        coef (pdivLoop q0 qs (p.length + 1 - (qs.length + 1)) p).2 (qs.length - 1 - i))) := by
  simp only [pdivmod, if_neg h]

@[simp] theorem length_pderiv (p : Poly) : (pderiv p).length = p.length - 1 := by simp [pderiv]

theorem length_generatorPoly (t : Nat) : (generatorPoly t).length = t + 1 := by
  induction t with
  | zero => rfl
  | succ t ih => simp [generatorPoly, length_pmul, ih]

@[simp] theorem length_syndromes (r : Poly) (t : Nat) : (syndromes r t).length = t := by simp [syndromes]

theorem allZero_iff (s : List Byte) : allZero s = true ↔ ∀ v ∈ s, v = 0x00 := by simp [allZero]

@[simp] theorem length_trim (st : BMState) : (trim st).length = st.len + 1 := by simp [trim]

theorem length_shiftUp {b : List Byte} (h : b ≠ []) : (shiftUp b).length = b.length := by
  cases b with
  | nil => exact absurd rfl h
  | cons c b => simp [shiftUp]

/-! ### Sums -/

@[simp] theorem xorSum_zero (f : Nat → Byte) : xorSum 0 f = 0x00 := rfl

theorem xorSum_succ (n : Nat) (f : Nat → Byte) : xorSum (n + 1) f = gadd (xorSum n f) (f n) := by
  simp [xorSum, List.range_succ]

theorem xorSum_congr {n : Nat} {f g : Nat → Byte} (h : ∀ j, j < n → f j = g j) : xorSum n f = xorSum n g := by
  induction n with
  | zero => rfl
  | succ n ih => rw [xorSum_succ, xorSum_succ, ih (fun j hj => h j (by omega)), h n (by omega)]

theorem xorSum_gadd (n : Nat) (f g : Nat → Byte) :
    xorSum n (fun j => gadd (f j) (g j)) = gadd (xorSum n f) (xorSum n g) := by
  induction n with
  | zero => exact (gadd_zero _).symm
  | succ n ih =>
    rw [xorSum_succ, xorSum_succ, xorSum_succ, ih]
    simp only [gadd_eq]
    ac_rfl

/-! ### Berlekamp-Massey and Forney, one step at a time -/

theorem bm_succ (syn : List Byte) (t n : Nat) :
    (List.range (n + 1)).foldl (bmStep syn) (bmStart t) =
      bmStep syn ((List.range n).foldl (bmStep syn) (bmStart t)) n := by
  simp [List.range_succ]

/-- The position search finds exactly the positions below 255 that are roots. -/
theorem mem_findPositions {lam : Poly} {p : Nat} :
    p ∈ findPositions lam ↔ p < 255 ∧ peval lam (alpha (255 - p)) = 0x00 := by
  simp [findPositions, Config.groupOrder]

theorem findPositions_sorted (lam : Poly) : (findPositions lam).Pairwise (· < ·) :=
  List.Pairwise.filter _ List.pairwise_lt_range

theorem length_findPositions (lam : Poly) : (findPositions lam).length ≤ 255 := by
  have := List.length_filter_le (fun p => peval lam (alpha (255 - p)) == 0x00) (List.range Config.groupOrder)
  simpa [findPositions, Config.groupOrder] using this

/-- Forney keeps the length of its array. -/
theorem length_forneyLoop {omega dl : Poly} {n : Nat} {pos : List Nat} {e e' : List Byte}
    (h : forneyLoop omega dl n pos e = .ok e') : e'.length = e.length := by
  induction pos generalizing e with
  | nil => simp only [forneyLoop] at h; cases h; rfl
  | cons p pos ih =>
    simp only [forneyLoop] at h
    split_ifs at h
    simpa using ih h

/-- The only fault of Forney is MAGNITUDE_UNDEFINED. -/
theorem forneyLoop_error {omega dl : Poly} {n : Nat} {pos : List Nat} {e : List Byte} {c : Cause}
    (h : forneyLoop omega dl n pos e = .error c) : c = .magnitudeUndefined := by
  induction pos generalizing e with
  | nil => simp [forneyLoop] at h
  | cons p pos ih =>
    simp only [forneyLoop] at h
    split_ifs at h
    · cases h; rfl
    · exact ih h

/-- What repair gives: the word itself, all its syndromes zero, or a word of its length whose syndromes are all zero. -/
theorem repairWord_ok {r c : List Byte} {t : Nat} (h : repairWord r t = .ok c) :
    c.length = r.length ∧ allZero (syndromes c t) = true := by
  simp only [repairWord] at h
  split_ifs at h with h1 h2
  · cases h
    exact ⟨rfl, h1⟩
  · split at h
    · cases h
    · rename_i e he
      simp only [finalCheck] at h
      split_ifs at h with h3
      cases h
      refine ⟨?_, h3⟩
      have := length_forneyLoop he
      simp_all

/-- The only fault of repair is UNCORRECTABLE (44_decoder.md R225). -/
theorem repairWord_error {r : List Byte} {t : Nat} {c : Cause} (h : repairWord r t = .error c) :
    c = .uncorrectable := by
  simp only [repairWord] at h
  split_ifs at h with h1 h2
  · split at h
    · rename_i c' hc
      rw [forneyLoop_error hc] at h
      simpa [asDecodeFailure] using h.symm
    · simp only [finalCheck] at h
      split_ifs at h
      simpa using h.symm
  · simpa using h.symm

end Sys2Proof.Machine
end

