-- ==== Sys2Proof/Tests/Slice0.lean ====
section
/-! SUPPORT. The model's own tests: ill-formed command bytes, every command's decoding from its written-out word, one-step
tests with the values of spec/95_test_vectors.md, and for every statement with hypotheses a witness that meets them. -/

namespace Sys2Proof.Tests

open Sys2Proof Sys2Proof.Machine

-- One theorem at a time: the evaluations side by side would need a thread and a stack each.
set_option Elab.async false

/-! ### Helpers -/

/-- Power-on state (buffers 0x00, as section 3 of 95_test_vectors.md takes them) with these registers and buffers. -/
def load (rs : List (Reg × Byte)) (bs : List (Buf × List Byte)) : State :=
  bs.foldl (fun u c => u.setBuf c.1 c.2) (rs.foldl (fun u c => u.setReg c.1 c.2) State.reset)

/-- The next state, where the step has one. -/
def nextOf : Host.Outcome State Fault Refusal → Option State
  | .next u => some u
  | .fault _ => none
  | .refused _ => none

/-- STATUS, CAUSE and the registers `rs` after the step that takes opcode `v`. -/
def regsAfter (v : Byte) (s : State) (rs : List Reg) : List Byte :=
  match nextOf (step (s.withFetchWord 8 v.toNat)) with
  | some u => u.reg .status :: u.reg .cause :: rs.map u.reg
  | none => []

/-- The first `n` entries of a buffer after the step that takes opcode `v`. -/
def bufAfter (v : Byte) (s : State) (b : Buf) (n : Nat) : List Byte :=
  match nextOf (step (s.withFetchWord 8 v.toNat)) with
  | some u => u.entries b n
  | none => []

/-- The byte the host gets from a read of `a` as the next access. -/
def readAt (s : State) (a : Addr) : Option Byte :=
  match nextOf (step { s with bus := [.read a] }) with
  | some u => u.reads.head?
  | none => none

/-- The byte the host gets from a read of `x` after a write of `v` at `a`. -/
def writeThenRead (s : State) (a : Addr) (v : Byte) (x : Addr) : Option Byte :=
  match nextOf (step { s with bus := [.write a v] }) with
  | some u => readAt u x
  | none => none

/-- "hello world 1" in ASCII (95_test_vectors.md section 6.2). -/
def hello : List Byte := [0x68, 0x65, 0x6C, 0x6C, 0x6F, 0x20, 0x77, 0x6F, 0x72, 0x6C, 0x64, 0x20, 0x31]

/-- Its codeword for T = 5 (section 4.3). -/
def codeword : List Byte := hello ++ [0x7F, 0x8A, 0xA1, 0x6B, 0x0D]

/-- The codeword with BUF[0] xor 01 and BUF[10] xor FF (section 6.3). -/
def twoErrors : List Byte :=
  [0x69, 0x65, 0x6C, 0x6C, 0x6F, 0x20, 0x77, 0x6F, 0x72, 0x6C, 0x9B, 0x20, 0x31, 0x7F, 0x8A, 0xA1, 0x6B, 0x0D]

/-- The codeword with (4, A7), (10, 0D), (12, 13), the first three-error row of section 5.3. -/
def threeErrors : List Byte :=
  [0x68, 0x65, 0x6C, 0x6C, 0xC8, 0x20, 0x77, 0x6F, 0x72, 0x6C, 0x69, 0x20, 0x22, 0x7F, 0x8A, 0xA1, 0x6B, 0x0D]

/-- T = 5, N = 18 and a received word. -/
def received (w : List Byte) : State := load [(.t, 0x05), (.n, 0x12)] [(.buf, w)]

/-- The inputs of MAGNITUDES in section 5.2. -/
def stepBuffers (n ldeg npos : Byte) (lam pos : List Byte) : State :=
  load [(.t, 0x05), (.n, n), (.ldeg, ldeg), (.npos, npos)]
    [(.syn, [0xFA, 0x19, 0xC2, 0x79, 0x8F]), (.lam, lam), (.pos, pos)]

/-! ### Ill-formed command bytes -/

/-- 0x50 has the reserved unit 5, which the first check refuses (30_encoding.md R90). -/
theorem test_reserved_unit_refused : WellFormed.unitDefined 0x50 = false ∧ WellFormed.commandByte 0x50 = false := by decide

/-- 0x35 has a defined unit and a reserved function, which the second check refuses (R94). -/
theorem test_reserved_function_refused : WellFormed.unitDefined 0x35 = true ∧ WellFormed.funcDefined 0x35 = false ∧
    WellFormed.commandByte 0x35 = false := by decide

/-- The last function of each unit is the last byte accepted in it (R94). -/
theorem test_function_boundaries : [(0x01, 0x02), (0x16, 0x17), (0x26, 0x27), (0x34, 0x35), (0x44, 0x45)].all
    (fun c : Byte × Byte => WellFormed.commandByte c.1 && !WellFormed.commandByte c.2) = true := by decide

/-- A reserved byte is rejected by name. -/
theorem test_reserved_byte_rejected_by_name : decode 0x17 = .error (.reservedOpcode 0x17) := by decide

/-! ### Decoding, each word written out as UNIT (bits 7:4) and FUNC (bits 3:0) from 30_encoding.md R90 and R92 -/

theorem test_decode_nop : decode 0b0000_0000 = .ok .nop := by decide
theorem test_decode_sreset : decode 0b0000_0001 = .ok .sreset := by decide
theorem test_decode_fadd : decode 0b0001_0000 = .ok .fadd := by decide
theorem test_decode_fmul : decode 0b0001_0001 = .ok .fmul := by decide
theorem test_decode_fdiv : decode 0b0001_0010 = .ok .fdiv := by decide
theorem test_decode_finv : decode 0b0001_0011 = .ok .finv := by decide
theorem test_decode_fpow : decode 0b0001_0100 = .ok .fpow := by decide
theorem test_decode_fexp : decode 0b0001_0101 = .ok .fexp := by decide
theorem test_decode_flog : decode 0b0001_0110 = .ok .flog := by decide
theorem test_decode_peval : decode 0b0010_0000 = .ok .peval := by decide
theorem test_decode_pcoef : decode 0b0010_0001 = .ok .pcoef := by decide
theorem test_decode_pscale : decode 0b0010_0010 = .ok .pscale := by decide
theorem test_decode_padd : decode 0b0010_0011 = .ok .padd := by decide
theorem test_decode_pmul : decode 0b0010_0100 = .ok .pmul := by decide
theorem test_decode_pdiv : decode 0b0010_0101 = .ok .pdiv := by decide
theorem test_decode_pderiv : decode 0b0010_0110 = .ok .pderiv := by decide
theorem test_decode_genpoly : decode 0b0011_0000 = .ok .genpoly := by decide
theorem test_decode_encode : decode 0b0011_0001 = .ok .encode := by decide
theorem test_decode_syndromes : decode 0b0011_0010 = .ok .syndromes := by decide
theorem test_decode_check : decode 0b0011_0011 = .ok .check := by decide
theorem test_decode_strip : decode 0b0011_0100 = .ok .strip := by decide
theorem test_decode_locator : decode 0b0100_0000 = .ok .locator := by decide
theorem test_decode_positions : decode 0b0100_0001 = .ok .positions := by decide
theorem test_decode_magnitudes : decode 0b0100_0010 = .ok .magnitudes := by decide
theorem test_decode_repair : decode 0b0100_0011 = .ok .repair := by decide
theorem test_decode_decode : decode 0b0100_0100 = .ok .decode := by decide

/-- The opcode table's word form: the low 8 bits of the row's word. -/
theorem test_decodeTableWord : decodeTableWord 8 0b0100_0100 = some .decode ∧ decodeTableWord 8 0x45 = none := by decide

/-! ### System commands (95_test_vectors.md section 7) -/

/-- FDIV of 05 by 00 has left its fault record; NOP clears it. -/
theorem test_nop_clears_fault : regsAfter 0x00 (load [(.a, 0x05), (.status, 0x06), (.cause, 0x03)] []) [.cmd, .y] =
    [0x02, 0x00, 0x00, 0x00] := by decide +kernel

/-- SRESET: T = K = A = B = Y = 00, CMD = 01, P[0] = 77 kept. -/
theorem test_sreset :
    let s := load [(.t, 0x05), (.k, 0x0D), (.a, 0x03), (.b, 0x07), (.y, 0x09)] [(.p, [0x77])]
    regsAfter 0x01 s [.cmd, .t, .k, .a, .b, .y] = [0x02, 0x00, 0x01, 0x00, 0x00, 0x00, 0x00, 0x00] ∧
      bufAfter 0x01 s .p 2 = [0x77, 0x00] := by decide +kernel

/-- A reserved opcode after FMUL: ILLEGAL_COMMAND, CMD = 17, Y = 8F unchanged. -/
theorem test_reserved_opcode : regsAfter 0x17 (load [(.y, 0x8F)] []) [.cmd, .y] = [0x06, 0x07, 0x17, 0x8F] := by
  decide +kernel

/-! ### Field commands (section 3) -/

theorem test_fadd : regsAfter 0x10 (load [(.a, 0x57), (.b, 0x83)] []) [.y] = [0x02, 0x00, 0xD4] := by decide +kernel

theorem test_fmul : regsAfter 0x11 (load [(.a, 0x57), (.b, 0x83)] []) [.y] = [0x02, 0x00, 0x31] := by decide +kernel

/-- 80 times 02: the reduction by 0x11D. -/
theorem test_fmul_reduces : regsAfter 0x11 (load [(.a, 0x80), (.b, 0x02)] []) [.y] = [0x02, 0x00, 0x1D] := by
  decide +kernel

theorem test_fdiv : regsAfter 0x12 (load [(.a, 0x07), (.b, 0x03)] []) [.y] = [0x02, 0x00, 0xF6] := by decide +kernel

/-- 00 / 00 is 00 without a fault; 05 / 00 faults. -/
theorem test_fdiv_zero : regsAfter 0x12 (load [] []) [.y] = [0x02, 0x00, 0x00] ∧
    regsAfter 0x12 (load [(.a, 0x05)] []) [.y] = [0x06, 0x03, 0x00] := by decide +kernel

theorem test_finv : regsAfter 0x13 (load [(.a, 0xFF)] []) [.y] = [0x02, 0x00, 0xFD] := by decide +kernel

theorem test_finv_zero : regsAfter 0x13 (load [] []) [.y] = [0x06, 0x03, 0x00] := by decide +kernel

theorem test_fpow : regsAfter 0x14 (load [(.a, 0x05), (.pw, 0xC8)] []) [.y] = [0x02, 0x00, 0xA0] := by decide +kernel

/-- 0^0 = 1 and 0^255 = 0. -/
theorem test_fpow_zero : regsAfter 0x14 (load [] []) [.y] = [0x02, 0x00, 0x01] ∧
    regsAfter 0x14 (load [(.pw, 0xFF)] []) [.y] = [0x02, 0x00, 0x00] := by decide +kernel

theorem test_fexp : regsAfter 0x15 (load [(.a, 0x19)] []) [.y] = [0x02, 0x00, 0x03] := by decide +kernel

/-- Index 255 is EXP[0]. -/
theorem test_fexp_255 : regsAfter 0x15 (load [(.a, 0xFF)] []) [.y] = [0x02, 0x00, 0x01] := by decide +kernel

theorem test_flog : regsAfter 0x16 (load [(.a, 0xFF)] []) [.y] = [0x02, 0x00, 0xAF] := by decide +kernel

theorem test_flog_zero : regsAfter 0x16 (load [] []) [.y] = [0x06, 0x05, 0x00] := by decide +kernel

/-! ### Polynomial commands (section 4.1) -/

theorem test_peval : regsAfter 0x20 (load [(.lp, 0x03), (.a, 0x8E)] [(.p, [0x01, 0x02, 0x03])]) [.y] =
    [0x02, 0x00, 0x45] := by decide +kernel

/-- The empty polynomial evaluates to 00. -/
theorem test_peval_empty : regsAfter 0x20 (load [(.a, 0x37), (.y, 0x11)] []) [.y] = [0x02, 0x00, 0x00] := by decide +kernel

theorem test_pcoef : regsAfter 0x21 (load [(.lp, 0x03), (.lq, 0x02), (.kd, 0x02)]
    [(.p, [0x01, 0x02, 0x03]), (.q, [0x04, 0x05])]) [.y] = [0x02, 0x00, 0x0D] := by decide +kernel

theorem test_pcoef_beyond : regsAfter 0x21 (load [(.lp, 0x03), (.lq, 0x02), (.kd, 0x04)]
    [(.p, [0x01, 0x02, 0x03]), (.q, [0x04, 0x05])]) [.y] = [0x02, 0x00, 0x00] := by decide +kernel

/-- The tail rule: R was longer before. -/
theorem test_pscale :
    let s := load [(.lp, 0x03), (.a, 0x8E)] [(.p, [0x01, 0x02, 0x03]), (.r, [0x11, 0x22, 0x33, 0x44, 0x55])]
    regsAfter 0x22 s [.lr] = [0x02, 0x00, 0x03] ∧ bufAfter 0x22 s .r 6 = [0x8E, 0x01, 0x8F, 0x00, 0x00, 0x00] := by
  decide +kernel

theorem test_padd :
    let s := load [(.lp, 0x03), (.lq, 0x02)] [(.p, [0x01, 0x02, 0x03]), (.q, [0x04, 0x05])]
    regsAfter 0x23 s [.lr] = [0x02, 0x00, 0x03] ∧ bufAfter 0x23 s .r 4 = [0x01, 0x06, 0x06, 0x00] := by decide +kernel

theorem test_pmul :
    let s := load [(.lp, 0x03), (.lq, 0x02)] [(.p, [0x01, 0x02, 0x03]), (.q, [0x04, 0x05])]
    regsAfter 0x24 s [.lr] = [0x02, 0x00, 0x04] ∧ bufAfter 0x24 s .r 5 = [0x04, 0x0D, 0x06, 0x0F, 0x00] := by
  decide +kernel

/-- LP = 200, LQ = 57: 256 entries are too many. -/
theorem test_pmul_too_long : regsAfter 0x24 (load [(.lp, 0xC8), (.lq, 0x39), (.lr, 0x07)] []) [.lr] =
    [0x06, 0x06, 0x07] := by decide +kernel

theorem test_pdiv :
    let s := load [(.lp, 0x04), (.lq, 0x03)] [(.p, [0x12, 0x34, 0x56, 0x78]), (.q, [0x02, 0x01, 0x01])]
    regsAfter 0x25 s [.lr, .lr2] = [0x02, 0x00, 0x02, 0x02] ∧ bufAfter 0x25 s .r 3 = [0x09, 0x90, 0x00] ∧
      bufAfter 0x25 s .r2 3 = [0xCF, 0xE8, 0x00] := by decide +kernel

/-- A zero-led divisor faults; a dividend shorter than the divisor gives an empty quotient and a padded remainder. -/
theorem test_pdiv_corners :
    regsAfter 0x25 (load [(.lp, 0x02), (.lq, 0x02)] [(.p, [0x05, 0x06]), (.q, [0x00, 0x01])]) [] = [0x06, 0x03] ∧
      (let s := load [(.lp, 0x01), (.lq, 0x03)] [(.p, [0x05]), (.q, [0x01, 0x03, 0x07])]
       regsAfter 0x25 s [.lr, .lr2] = [0x02, 0x00, 0x00, 0x02] ∧ bufAfter 0x25 s .r2 3 = [0x00, 0x05, 0x00]) := by
  decide +kernel

theorem test_pderiv :
    let s := load [(.lp, 0x04)] [(.p, [0x11, 0x22, 0x33, 0x44])]
    regsAfter 0x26 s [.lr] = [0x02, 0x00, 0x03] ∧ bufAfter 0x26 s .r 4 = [0x11, 0x00, 0x33, 0x00] := by decide +kernel

theorem test_pderiv_even :
    let s := load [(.lp, 0x03)] [(.p, [0x11, 0x22, 0x33])]
    regsAfter 0x26 s [.lr] = [0x02, 0x00, 0x02] ∧ bufAfter 0x26 s .r 3 = [0x00, 0x22, 0x00] := by decide +kernel

/-! ### Codec commands (sections 4.2 and 4.3) -/

theorem test_genpoly : bufAfter 0x30 (load [(.t, 0x05)] []) .gen 7 = [0x01, 0x3E, 0x3F, 0xE5, 0xC5, 0x26, 0x00] := by
  decide +kernel

theorem test_genpoly_unconfigured : regsAfter 0x30 (load [] []) [] = [0x06, 0x01] := by decide +kernel

theorem test_encode :
    let s := load [(.t, 0x05), (.k, 0x0D)] [(.buf, hello)]
    regsAfter 0x31 s [.n, .k] = [0x02, 0x00, 0x12, 0x0D] ∧ bufAfter 0x31 s .buf 19 = codeword ++ [0x00] := by decide +kernel

/-- K + T = 256 is too long. -/
theorem test_encode_too_long : regsAfter 0x31 (load [(.t, 0x05), (.k, 0xFB)] []) [.n] = [0x06, 0x01, 0x00] := by
  decide +kernel

theorem test_syndromes : bufAfter 0x32 (received twoErrors) .syn 6 = [0xFA, 0x19, 0xC2, 0x79, 0x8F, 0x00] := by
  decide +kernel

/-- N = 4 is below T = 5. -/
theorem test_syndromes_short : regsAfter 0x32 (load [(.t, 0x05), (.n, 0x04)] []) [] = [0x06, 0x01] := by decide +kernel

theorem test_check : regsAfter 0x33 (received codeword) [.y] = [0x02, 0x00, 0x01] ∧
    regsAfter 0x33 (received twoErrors) [.y] = [0x02, 0x00, 0x00] := by decide +kernel

theorem test_strip : regsAfter 0x34 (received codeword) [.k, .n] = [0x02, 0x00, 0x0D, 0x12] ∧
    bufAfter 0x34 (received codeword) .buf 18 = hello ++ [0x00, 0x00, 0x00, 0x00, 0x00] := by decide +kernel

/-! ### Decoder commands (section 5) -/

theorem test_locator :
    let s := load [(.t, 0x05)] [(.syn, [0xFA, 0x19, 0xC2, 0x79, 0x8F])]
    regsAfter 0x40 s [.ldeg] = [0x02, 0x00, 0x02] ∧ bufAfter 0x40 s .lam 4 = [0x8F, 0x18, 0x01, 0x00] := by decide +kernel

/-- The locator keeps L + 1 entries with a zero in front (90_conflicts.md C11). -/
theorem test_locator_leading_zero :
    let s := load [(.t, 0x04)] [(.syn, [0x00, 0x02, 0x02, 0x02])]
    regsAfter 0x40 s [.ldeg] = [0x02, 0x00, 0x02] ∧ bufAfter 0x40 s .lam 4 = [0x00, 0x01, 0x01, 0x00] := by decide +kernel

theorem test_positions :
    let s := load [(.ldeg, 0x02), (.n, 0x12)] [(.lam, [0x8F, 0x18, 0x01])]
    regsAfter 0x41 s [.npos, .y] = [0x02, 0x00, 0x02, 0x01] ∧ bufAfter 0x41 s .pos 3 = [0x07, 0x11, 0x00] := by
  decide +kernel

/-- Position 198 is not below N = 5. -/
theorem test_positions_invalid :
    let s := load [(.ldeg, 0x01), (.n, 0x05)] [(.lam, [0x07, 0x01])]
    regsAfter 0x41 s [.npos, .y] = [0x02, 0x00, 0x01, 0x00] ∧ bufAfter 0x41 s .pos 2 = [0xC6, 0x00] := by decide +kernel

theorem test_magnitudes : bufAfter 0x42 (stepBuffers 0x12 0x02 0x02 [0x8F, 0x18, 0x01] [0x07, 0x11]) .emag 18 =
    [0x01, 0x00, 0x00, 0x00, 0x00, 0x00, 0x00, 0x00, 0x00, 0x00, 0xFF, 0x00, 0x00, 0x00, 0x00, 0x00, 0x00, 0x00] := by
  decide +kernel

/-- Too few positions; a position not below N; N below T. -/
theorem test_magnitudes_faults :
    regsAfter 0x42 (stepBuffers 0x12 0x02 0x01 [0x8F, 0x18, 0x01] [0x07]) [] = [0x06, 0x02] ∧
      regsAfter 0x42 (stepBuffers 0x12 0x02 0x02 [0x8F, 0x18, 0x01] [0x07, 0x12]) [] = [0x06, 0x02] ∧
      regsAfter 0x42 (stepBuffers 0x03 0x00 0x00 [] []) [] = [0x06, 0x01] := by decide +kernel

theorem test_repair : regsAfter 0x43 (received twoErrors) [.n, .k] = [0x02, 0x00, 0x12, 0x00] ∧
    bufAfter 0x43 (received twoErrors) .buf 19 = codeword ++ [0x00] := by decide +kernel

theorem test_repair_uncorrectable : regsAfter 0x43 (received threeErrors) [.n] = [0x06, 0x02, 0x12] ∧
    bufAfter 0x43 (received threeErrors) .buf 18 = threeErrors := by decide +kernel

theorem test_decode : regsAfter 0x44 (received twoErrors) [.k, .n] = [0x02, 0x00, 0x0D, 0x12] ∧
    bufAfter 0x44 (received twoErrors) .buf 14 = hello ++ [0x00] := by decide +kernel

theorem test_decode_unconfigured : regsAfter 0x44 (load [] []) [.k] = [0x06, 0x01, 0x00] := by decide +kernel

/-! ### The host bus (section 7) -/

/-- ID, VER and the record after power-on; reserved addresses; both tables. -/
theorem test_bus_reads : [0x000, 0x001, 0x002, 0x003, 0x004, 0x013, 0xB00, 0xB08, 0xBFE, 0xBFF, 0xC01, 0xC02, 0xC8E, 0xCFF,
      0xD00, 0xFFF].map (readAt State.reset) =
    [0x52, 0x01, 0x00, 0x00, 0x00, 0x00, 0x01, 0x1D, 0x8E, 0x01, 0x00, 0x01, 0xFE, 0xAF, 0x00, 0x00].map some := by
  decide +kernel

/-- Writes to read-only and reserved places are ignored. -/
theorem test_bus_ignored_writes : [0x000, 0x00B, 0x013, 0x900, 0xB05].map
    (fun a => writeThenRead State.reset a 0x99 a) = [0x52, 0x00, 0x00, 0x00, 0x20].map some := by decide +kernel

/-- The ends of the writable ranges: entry 0 and entry 255 of a buffer, T and NPOS take the byte; a neighbour does not. -/
theorem test_bus_writes : writeThenRead State.reset 0x100 0x99 0x100 = some 0x99 ∧
    writeThenRead State.reset 0x8FF 0x99 0x8FF = some 0x99 ∧ writeThenRead State.reset 0x8FF 0x99 0x8FE = some 0x00 ∧
    writeThenRead State.reset 0x005 0x99 0x005 = some 0x99 ∧ writeThenRead State.reset 0x012 0x99 0x012 = some 0x99 ∧
    writeThenRead State.reset 0x500 0x99 0x500 = some 0x00 := by decide +kernel

/-- While BUSY = 1 a read of STATUS gives 01 and any other access is refused. -/
theorem test_bus_busy : readAt { State.reset with busy := 2 } 0x003 = some 0x01 ∧
    readAt { State.reset with busy := 2 } 0x00B = none := by decide +kernel

/-! ### Witnesses: for every statement with hypotheses, concrete states that meet them, for every clause -/

/-- All syndromes zero is what ValidWord says. -/
theorem validWord_of_syndromes {w : List Byte} {t : Nat} (h : allZero (syndromes w t) = true) : ValidWord w t := by
  intro i h1 h2
  have h3 := (allZero_iff _).1 h (peval w (alpha (i - 1 + 1))) (List.mem_map.2 ⟨i - 1, List.mem_range.2 (by omega), rfl⟩)
  rwa [Nat.sub_add_cancel h1] at h3

/-- A syndrome that is not zero makes a word invalid. -/
theorem not_validWord_of_peval {w : List Byte} {t i : Nat} (h1 : 1 ≤ i) (h2 : i ≤ t) (h : peval w (alpha i) ≠ 0x00) :
    ¬ ValidWord w t := fun hv => h (hv i h1 h2)

/-- A next state with a property, found by evaluation. -/
theorem exists_next {o : Host.Outcome State Fault Refusal} {P : State → Prop} [DecidablePred P]
    (h : (match nextOf o with | some u => decide (P u) | none => false) = true) : ∃ u, o = .next u ∧ P u := by
  cases o with
  | next u => exact ⟨u, rfl, of_decide_eq_true h⟩
  | fault r => exact absurd h (by simp [nextOf])
  | refused r => exact absurd h (by simp [nextOf])

/-- A state in which the host's next access is this one. -/
def accessing (x : Transaction) : State := { State.reset with bus := [x, .read 0x003], a := 0x57, b := 0x83, t := 0x05 }

/-- OpcodeMapDecodes, last clause: bytes beside the last defined ones are not in the list. -/
theorem witness_opcodeMapDecodes : ∀ v ∈ ([0x02, 0x17, 0x45, 0xFF] : List Byte), v ∉ ([0x00, 0x01, 0x10, 0x11, 0x12,
    0x13, 0x14, 0x15, 0x16, 0x20, 0x21, 0x22, 0x23, 0x24, 0x25, 0x26, 0x30, 0x31, 0x32, 0x33, 0x34, 0x40, 0x41, 0x42, 0x43,
    0x44] : List Byte) := by decide

/-- StepRunsDecodedCommand and DecodeEncodeInverse: an admitted write of a command, and a table word. -/
theorem witness_stepRunsDecodedCommand :
    ((accessing (.write 0x002 0x11)).busy = 0 ∧ (accessing (.write 0x002 0x11)).bus = .write 0x002 0x11 :: [.read 0x003] ∧
      decode 0x11 = .ok .fmul) ∧ decodeTableWord 8 0x44 = some .decode := ⟨⟨rfl, rfl, by decide⟩, by decide⟩

/-- ReservedOpcodeFaults: both ends of each range of reserved bytes. -/
theorem witness_reservedOpcodeFaults :
    ∀ v ∈ ([0x02, 0x0F, 0x17, 0x1F, 0x27, 0x2F, 0x35, 0x3F, 0x45, 0xFF] : List Byte),
      (accessing (.write 0x002 v)).busy = 0 ∧ (accessing (.write 0x002 v)).bus = .write 0x002 v :: [.read 0x003] ∧
      ((0x02 ≤ v.toNat ∧ v.toNat ≤ 0x0F) ∨ (0x17 ≤ v.toNat ∧ v.toNat ≤ 0x1F) ∨ (0x27 ≤ v.toNat ∧ v.toNat ≤ 0x2F) ∨
        (0x35 ≤ v.toNat ∧ v.toNat ≤ 0x3F) ∨ (0x45 ≤ v.toNat ∧ v.toNat ≤ 0xFF)) := by decide +kernel

/-- HostReadReturns: a read of any address, those at the ends of each range of the map among them. -/
theorem witness_hostReadReturns (a : Addr) :
    (accessing (.read a)).busy = 0 ∧ (accessing (.read a)).bus = .read a :: [.read 0x003] := ⟨rfl, rfl⟩

/-- HostWriteStores: a write at any address but CMD. -/
theorem witness_hostWriteStores (a : Addr) (v : Byte) : Memory.Inv (accessing (.write a v)).mem ∧
    (accessing (.write a v)).busy = 0 ∧ (accessing (.write a v)).bus = .write a v :: [.read 0x003] :=
  ⟨⟨rfl, fun _ h => absurd h (List.not_mem_nil)⟩, rfl, rfl⟩

/-- HostWriteStores: addresses at the ends of the writable ranges. -/
theorem witness_hostWriteStores_ends : (0x005 : Addr) ≠ 0x002 ∧ (0x00A : Addr) ≠ 0x002 ∧ (0x00D : Addr) ≠ 0x002 ∧
    (0x012 : Addr) ≠ 0x002 ∧ (0x100 : Addr) ≠ 0x002 ∧ (0x4FF : Addr) ≠ 0x002 ∧ (0x700 : Addr) ≠ 0x002 ∧
    (0x8FF : Addr) ≠ 0x002 := by decide

/-- BusyAccessRefused: each access while a command executes, an idle bus, and a refusal that happens. -/
theorem witness_busyAccessRefused :
    ({ accessing (.read 0x003) with busy := 2 } : State).busy ≠ 0 ∧
      ({ accessing .wait with busy := 1 } : State).bus = .wait :: [.read 0x003] ∧ State.reset.bus = [] ∧
      step { accessing (.write 0x005 0x01) with busy := 1 } = .refused .busyAccess ∧
      step { accessing (.read 0x002) with busy := 1 } = .refused .busyAccess := ⟨by decide, rfl, rfl, rfl, rfl⟩

/-- CommandThenWaitCompletes: a command that takes 3 cycles, and one that takes none. -/
theorem witness_commandThenWaitCompletes : ∀ k ∈ [0, 3],
    let s : State := { State.reset with latencies := k :: [7], bus := .write 0x002 0x31 :: .wait :: [.read 0x004] }
    s.busy = 0 ∧ s.latencies = k :: [7] ∧ s.bus = .write 0x002 0x31 :: .wait :: [.read 0x004] := by decide

/-- ResetMeetsInvariant, NoFaultRecordedLeavesNoCause: power-on with bytes at both ends of the buffers and a program. -/
theorem witness_cleanReset_powerOn : CleanReset (State.powerOn [(0x100, 0x5A), (0xAFF, 0xC3)] [4] [.wait]) :=
  .inl ⟨_, _, _, ⟨by decide, by decide⟩, rfl⟩

/-- The state after SRESET (R342) with bytes kept in the buffers and a command to come. -/
def afterSreset : State :=
  { State.powerOn [(0x100, 0x5A), (0xAFF, 0xC3)] [] [.write 0x002 0x10] with cmd := 0x01, status := 0x02 }

/-- ResetMeetsInvariant, NoFaultRecordedLeavesNoCause: a clean reset in its SRESET form. -/
theorem witness_cleanReset_sreset : CleanReset afterSreset :=
  .inr ⟨rfl, rfl, rfl, fun r h1 h2 => by cases r <;> first | rfl | exact absurd rfl h1 | exact absurd rfl h2, by decide, by decide⟩

/-- While SRESET's BUSY time runs, STATUS reads 0x01 (R345), and the state is no clean reset. -/
theorem test_busy_is_no_cleanReset : readAt { afterSreset with busy := 2 } 0x003 = some 0x01 ∧
    ¬ CleanReset { afterSreset with busy := 2 } := by
  refine ⟨by decide +kernel, ?_⟩
  rintro (⟨c, l, p, -, h⟩ | ⟨h, -⟩)
  · exact absurd (congrArg State.busy h) (by show ¬ (2 : Nat) = 0; decide)
  · exact absurd h (by decide)

/-- NoFaultRecordedLeavesNoCause: a run of one command, and an idle cycle after it. -/
theorem witness_noFaultRecorded : NoFaultRecorded 2 afterSreset ∧ ∃ u, Host.Core.run core 2 afterSreset = .next u :=
  ⟨⟨_, rfl, fun _ => rfl, _, rfl, fun _ => rfl, trivial⟩, _, rfl⟩

/-- A fault that a later NOP has cleared is still recorded against the run (R352): FDIV of 05 by 00, then NOP. -/
theorem test_noFaultRecorded_sees_cleared_fault :
    ¬ NoFaultRecorded 2 { State.reset with a := 0x05, bus := [.write 0x002 0x12, .write 0x002 0x00] } := by
  rintro ⟨u, h, he, -⟩
  cases h
  exact absurd (he (by decide +kernel)) (by decide +kernel)

/-- SresetLeavesCleanReset: SRESET after a fault, with bytes in the buffers; with no latency and with 3 cycles and a WAIT. -/
theorem witness_sresetLeavesCleanReset :
    (let s : State := { accessing (.write 0x002 0x01) with status := 0x06, cause := 0x03, mem := [(0x100, 0x5A), (0xAFF, 0xC3)] }
     Memory.Inv s.mem ∧ s.busy = 0 ∧ s.bus = .write 0x002 0x01 :: [.read 0x003]) ∧
    (let s : State := { State.powerOn [(0x100, 0x5A), (0xAFF, 0xC3)] (3 :: [7]) (.write 0x002 0x01 :: .wait :: [.read 0x003])
      with status := 0x06, cause := 0x03, t := 0x05 }
     Memory.Inv s.mem ∧ s.busy = 0 ∧ s.latencies = 3 :: [7] ∧ s.bus = .write 0x002 0x01 :: .wait :: [.read 0x003]) :=
  ⟨⟨⟨by decide, by decide⟩, rfl, rfl⟩, ⟨by decide, by decide⟩, rfl, rfl, rfl⟩

/-- EveryStepKeepsInvariant: a state after a fault, whose next access is a command. -/
theorem witness_everyStepKeepsInvariant :
    let s : State := { accessing (.write 0x002 0x12) with status := 0x06, cause := 0x07, mem := [(0x100, 0x5A), (0xAFF, 0xC3)] }
    Inv s ∧ ∃ u, step s = .next u :=
  ⟨⟨⟨by decide, by decide⟩, by unfold RecordInv; decide⟩, _, rfl⟩

/-- CausesOfEachCommand, EveryCommandWritesOnlyItsRow, OutcomeIndependentOfRecord: a command that succeeds, one that faults. -/
theorem witness_execNext : (∃ u, exec .decode (received twoErrors) = .next u ∧ u.reg .status = 0x02) ∧
    ∃ u, exec .decode (received threeErrors) = .next u ∧ u.reg .status = 0x06 :=
  ⟨exists_next (by decide +kernel), exists_next (by decide +kernel)⟩

/-- EveryCommandReadsOnlyItsRow: two different states that agree on the row of CHECK. -/
theorem witness_everyCommandReadsOnlyItsRow :
    let s := received codeword
    let s' : State := { (received codeword).setBuf .syn [0x01] with k := 0x07, status := 0x06 }
    s ≠ s' ∧ (∀ r ∈ readsRegs .check, s'.reg r = s.reg r) ∧
      ∀ b ∈ readsBufs .check, ∀ k, k < 256 → s'.entry b k = s.entry b k := by decide +kernel

/-- NopResult, last clause. -/
theorem witness_nopResult : (load [(.a, 0x05)] []).reg .b = 0x00 ∧ (load [(.a, 0x05)] []).reg .a ≠ 0x00 ∧
    ∃ u, exec .fdiv (load [(.a, 0x05)] []) = .next u ∧ u.reg .cause = 0x03 :=
  ⟨by decide +kernel, by decide +kernel, exists_next (by decide +kernel)⟩

/-- TablesFollowConstruction, FieldLaws: a nonzero element and the ends of the index range. -/
theorem witness_nonzeroElement : (0xFF : Byte) ≠ 0x00 ∧ 0 < 254 ∧ 253 < 254 ∧ 254 < 255 := by decide

/-- FaddResult, FmulResult: the conditions inside the conclusions. -/
theorem witness_binaryOperands :
    (load [(.a, 0x8E), (.b, 0x8E)] []).reg .a = (load [(.a, 0x8E), (.b, 0x8E)] []).reg .b ∧
      (load [(.a, 0x53), (.b, 0xCA)] []).reg .a = 0x53 ∧ (load [(.a, 0x53), (.b, 0xCA)] []).reg .b = 0xCA ∧
      (load [(.a, 0xFF), (.b, 0xFF)] []).reg .b = 0xFF ∧ (load [(.a, 0x80), (.b, 0x02)] []).reg .a = 0x80 := by
  decide +kernel

/-- FdivResult: each of the three cases. -/
theorem witness_fdivResult : (load [(.b, 0x05)] []).reg .a = 0x00 ∧
    ((load [(.a, 0x01), (.b, 0x02)] []).reg .a ≠ 0x00 ∧ (load [(.a, 0x01), (.b, 0x02)] []).reg .b ≠ 0x00) ∧
    ((load [(.a, 0xFF)] []).reg .a ≠ 0x00 ∧ (load [(.a, 0xFF)] []).reg .b = 0x00) := by decide +kernel

/-- FinvResult, FlogResult: both cases. -/
theorem witness_unaryOperands : (load [(.a, 0xFF)] []).reg .a ≠ 0x00 ∧ (load [] []).reg .a = 0x00 := by decide +kernel

/-- FpowResult, FexpResult: the conditions inside the conclusions, at the ends of the exponent's range. -/
theorem witness_exponents : (load [] []).reg .pw = 0x00 ∧ 1 ≤ (load [(.pw, 0x01)] []).count .pw ∧
    (load [(.pw, 0xFF), (.a, 0x02)] []).count .pw = 255 ∧ (load [(.pw, 0xFF), (.a, 0x02)] []).reg .a ≠ 0x00 ∧
    (load [(.a, 0xFF)] []).count .a = 255 := by decide +kernel

/-- PevalResult, PcoefResult: the empty operand, the constant term, a degree beyond the product. -/
theorem witness_polynomialOperands : (load [] []).count .lp = 0 ∧
    ((load [(.lp, 0x01)] []).reg .a = 0x00 ∧ 1 ≤ (load [(.lp, 0x01)] []).count .lp) ∧
    (let s := load [(.lp, 0x03), (.lq, 0x02), (.kd, 0x04)] []
     s.count .lp + s.count .lq < s.count .kd + 2) := by decide +kernel

/-- PmulResult: LP = 200 with LQ = 57 and with LQ = 56, and an empty operand. -/
theorem witness_pmulResult :
    (let s := load [(.lp, 0xC8), (.lq, 0x39)] []
     1 ≤ s.count .lp ∧ 1 ≤ s.count .lq ∧ 255 < s.count .lp + s.count .lq - 1) ∧
    (let s := load [(.lp, 0xC8), (.lq, 0x38)] []
     ¬ (1 ≤ s.count .lp ∧ 1 ≤ s.count .lq ∧ 255 < s.count .lp + s.count .lq - 1)) ∧
    (let s := load [(.lq, 0xFF)] []
     ¬ (1 ≤ s.count .lp ∧ 1 ≤ s.count .lq ∧ 255 < s.count .lp + s.count .lq - 1)) := by decide +kernel

/-- PdivResult: an empty divisor, a zero-led one, and one that divides. -/
theorem witness_pdivResult : (load [(.lp, 0x01)] []).count .lq = 0 ∧
    (load [(.lq, 0x02)] [(.q, [0x00, 0x01])]).entry .q 0 = 0x00 ∧
    ((load [(.lq, 0x02)] [(.q, [0x01, 0x02])]).count .lq ≠ 0 ∧
      (load [(.lq, 0x02)] [(.q, [0x01, 0x02])]).entry .q 0 ≠ 0x00) := by decide +kernel

/-- GenpolyResult, LocatorResult: T = 0, 1 and 255. -/
theorem witness_configured : (load [] []).count .t = 0 ∧ (load [(.t, 0x01)] []).count .t ≠ 0 ∧
    (load [(.t, 0xFF)] []).count .t ≠ 0 := by decide +kernel

/-- EncodeResult: T = 0, K + T = 256, K + T = 255. -/
theorem witness_encodeResult : (load [(.k, 0x03)] []).count .t = 0 ∧
    (let s := load [(.t, 0x05), (.k, 0xFB)] []
     255 < s.count .k + s.count .t) ∧
    (let s := load [(.t, 0x01), (.k, 0xFE)] []
     s.count .t ≠ 0 ∧ s.count .k + s.count .t ≤ 255) := by decide +kernel

/-- SyndromesResult, CheckResult, StripResult: T = 0, N = T - 1, N = T. -/
theorem witness_wordLengths : (load [(.n, 0x12)] []).count .t = 0 ∧
    (load [(.t, 0x05), (.n, 0x04)] []).count .n < (load [(.t, 0x05), (.n, 0x04)] []).count .t ∧
    ((load [(.t, 0x05), (.n, 0x05)] []).count .t ≠ 0 ∧
      (load [(.t, 0x05), (.n, 0x05)] []).count .t ≤ (load [(.t, 0x05), (.n, 0x05)] []).count .n) := by decide +kernel

/-- ValidExactlyWhenDivisible: a valid word and an invalid one. -/
theorem witness_validExactlyWhenDivisible : ∀ w ∈ [codeword, twoErrors], (received w).count .t ≠ 0 ∧
    (received w).count .t ≤ (received w).count .n ∧
    (nextOf (exec .check (received w))).isSome = true := by decide +kernel

/-- LocatorGeneratesSyndromes: the locator of degree 2 of the two errors, and an index to which the register applies. -/
theorem witness_locatorGeneratesSyndromes :
    let s := load [(.t, 0x05)] [(.syn, [0xFA, 0x19, 0xC2, 0x79, 0x8F])]
    s.count .t ≠ 0 ∧ ∃ u, exec .locator s = .next u ∧ u.count .ldeg ≤ 2 ∧ 2 < s.count .t :=
  ⟨by decide +kernel, exists_next (by decide +kernel)⟩

/-- MagnitudesResult: a wrong configuration, wrong positions (too few; one not below N), a zero derivative value (LAM = 00 01,
whose derivative is zero), and positions with magnitudes. -/
theorem witness_magnitudesResult :
    let den := fun (s : State) (k : Nat) =>
      peval (pderiv ((List.range (s.count .ldeg + 1)).map (fun i => s.entry .lam i))) (alpha (255 - (s.entry .pos k).toNat))
    (let s := stepBuffers 0x03 0x00 0x00 [] []
     s.count .n < s.count .t) ∧
    (let s := stepBuffers 0x12 0x02 0x01 [0x8F, 0x18, 0x01] [0x07]
     s.count .t ≠ 0 ∧ s.count .t ≤ s.count .n ∧
       ¬ (s.count .npos = s.count .ldeg ∧ ∀ k, k < s.count .npos → (s.entry .pos k).toNat < s.count .n)) ∧
    (let s := stepBuffers 0x12 0x02 0x02 [0x8F, 0x18, 0x01] [0x07, 0x12]
     s.count .t ≠ 0 ∧ s.count .t ≤ s.count .n ∧
       ¬ (s.count .npos = s.count .ldeg ∧ ∀ k, k < s.count .npos → (s.entry .pos k).toNat < s.count .n)) ∧
    (let s := stepBuffers 0x12 0x01 0x01 [0x00, 0x01] [0x03]
     s.count .t ≠ 0 ∧ s.count .t ≤ s.count .n ∧ s.count .npos = s.count .ldeg ∧
       (∀ k, k < s.count .npos → (s.entry .pos k).toNat < s.count .n) ∧ 0 < s.count .npos ∧ den s 0 = 0x00) ∧
    (let s := stepBuffers 0x12 0x02 0x02 [0x8F, 0x18, 0x01] [0x07, 0x11]
     s.count .t ≠ 0 ∧ s.count .t ≤ s.count .n ∧ s.count .npos = s.count .ldeg ∧
       (∀ k, k < s.count .npos → (s.entry .pos k).toNat < s.count .n) ∧ ∀ k, k < s.count .npos → den s k ≠ 0x00) := by
  decide +kernel

/-- RepairResult, DecodeResult: T = 0 and N < T stand in witness_wordLengths; a valid word; a word with errors. -/
theorem witness_repairResult :
    ((received codeword).count .t ≠ 0 ∧ (received codeword).count .t ≤ (received codeword).count .n ∧
      ValidWord (receivedWord (received codeword)) ((received codeword).count .t)) ∧
    ((received twoErrors).count .t ≠ 0 ∧ (received twoErrors).count .t ≤ (received twoErrors).count .n ∧
      ¬ ValidWord (receivedWord (received twoErrors)) ((received twoErrors).count .t)) :=
  ⟨⟨by decide +kernel, by decide +kernel, validWord_of_syndromes (by decide +kernel)⟩,
    by decide +kernel, by decide +kernel,
    not_validWord_of_peval (i := 1) (by decide) (by decide +kernel) (by decide +kernel)⟩

/-- RepairResult, RepairNeverUndefined: a word whose positions fail the check, and one whose positions pass it, with no zero
derivative. -/
theorem witness_repairPositions :
    (¬ ValidWord (receivedWord (received threeErrors)) 5 ∧ ¬ RepairPositionsValid (receivedWord (received threeErrors)) 5) ∧
    (RepairPositionsValid (receivedWord (received twoErrors)) 5 ∧
      repairPositions (receivedWord (received twoErrors)) 5 = [7, 17] ∧
      ∀ p ∈ repairPositions (receivedWord (received twoErrors)) 5,
        derivativeAt (repairLocator (receivedWord (received twoErrors)) 5).2 p ≠ 0x00) :=
  ⟨⟨not_validWord_of_peval (i := 1) (by decide) (by decide) (by decide +kernel), by unfold RepairPositionsValid; decide +kernel⟩,
    by unfold RepairPositionsValid; decide +kernel, by decide +kernel, by decide +kernel⟩

/-- DecodeIsRepairThenStrip: a repair that succeeds and one that faults. -/
theorem witness_decodeIsRepairThenStrip : (∃ u, exec .repair (received twoErrors) = .next u ∧ u.reg .status = 0x02) ∧
    ∃ u, exec .repair (received threeErrors) = .next u ∧ u.reg .status ≠ 0x02 :=
  ⟨exists_next (by decide +kernel), exists_next (by decide +kernel)⟩

/-- EncodeDecodeRoundTrip, EncodeRepairUnchanged: an empty message, and the longest codeword. -/
theorem witness_encodeDecodeRoundTrip :
    (let s := load [(.t, 0x05)] []
     s.count .t ≠ 0 ∧ s.count .k + s.count .t ≤ 255) ∧
    (let s := load [(.t, 0x01), (.k, 0xFE)] []
     s.count .t ≠ 0 ∧ s.count .k + s.count .t ≤ 255) := by decide +kernel

/-- StepChainNeverUndefined: the chain on the two errors, POSITIONS returning Y = 0x01. -/
theorem witness_stepChainNeverUndefined :
    let s := load [(.t, 0x05), (.n, 0x12)] [(.syn, [0xFA, 0x19, 0xC2, 0x79, 0x8F])]
    s.count .t ≠ 0 ∧ s.count .t ≤ s.count .n ∧ 
      (match nextOf (exec .locator s) with
       | some u => match nextOf (exec .positions u) with
         | some w => w.reg .y == 0x01 && (nextOf (exec .magnitudes w)).isSome
         | none => false
       | none => false) = true := by decide +kernel

/-- SingleErrorRepaired: both ends of the word, any T ≥ 2. -/
theorem witness_singleErrorRepaired :
    let s := received codeword
    Memory.Inv s.mem ∧ 2 ≤ s.count .t ∧ s.count .t ≤ s.count .n ∧ ValidWord (receivedWord s) (s.count .t) ∧
      (∀ p ∈ [0, 17], p < s.count .n ∧ (0x55 : Byte) ≠ s.entry .buf (s.count .n - 1 - p)) :=
  ⟨⟨by decide +kernel, by decide +kernel⟩, by decide +kernel, by decide +kernel, validWord_of_syndromes (by decide +kernel), by decide +kernel⟩

/-- BoundedCorrection: two errors, the most that T = 5 admits. -/
theorem witness_boundedCorrection :
    let s := received codeword
    let s' := received twoErrors
    s.count .t ≠ 0 ∧ s.count .t ≤ s.count .n ∧ s'.reg .t = s.reg .t ∧ s'.reg .n = s.reg .n ∧
      ValidWord (receivedWord s) (s.count .t) ∧ errorCount (s.count .n) s s' = 2 ∧
      2 * errorCount (s.count .n) s s' ≤ s.count .t :=
  ⟨by decide +kernel, by decide +kernel, by decide +kernel, by decide +kernel, validWord_of_syndromes (by decide +kernel),
    by decide +kernel, by decide +kernel⟩

end Sys2Proof.Tests
end

section
/-! SUPPORT. What a command commits, said once: the list of its writes, or the cause it faults with (30_encoding.md R91,
R93). -/

namespace Sys2Proof.Machine

/-- One write of a command's commit: a register, or a buffer with its tail rule (10_state.md R55). -/
inductive Write where
  | reg (r : Reg) (v : Byte)
  | buf (b : Buf) (vs : List Byte)

/-- The state after one write. -/
def State.put (s : State) : Write → State
  | .reg r v => s.setReg r v
  | .buf b vs => s.setBuf b vs

/-- The state after the writes of a commit, the first one first. -/
def State.commit (s : State) (ws : List Write) : State := ws.foldl State.put s

@[simp] theorem commit_nil (s : State) : s.commit [] = s := rfl

@[simp] theorem commit_cons (s : State) (w : Write) (ws : List Write) : s.commit (w :: ws) = (s.put w).commit ws := rfl

/-- A scalar result in Y. -/
def writesY (v : Byte) : List Write := [.reg .y v]

/-- A polynomial result in R, its length in LR. -/
def writesR (p : Poly) : List Write := [.buf .r p, .reg .lr (countByte p.length)]

/-- The message left of a word in BUF, its length in K. -/
def writesMessage (s : State) (word : List Byte) : List Write :=
  [.buf .buf (word.take (s.count .n - s.count .t)), .reg .k (countByte (s.count .n - s.count .t))]

/-- The configuration check of T before a commit (43_codec.md R191). -/
def afterT (s : State) (ws : Except Cause (List Write)) : Except Cause (List Write) :=
  if s.count .t = 0 then .error .configurationError else ws

/-- The configuration checks of T and N before a commit (R191, R192). -/
def afterTN (s : State) (ws : Except Cause (List Write)) : Except Cause (List Write) :=
  afterT s (if s.count .n < s.count .t then .error .configurationError else ws)

/-- What a command commits: its writes, computed from its operands alone, or the cause of its fault. -/
def commits (i : Instr) (s : State) : Except Cause (List Write) :=
  match i with
  | .nop => .ok []
  | .sreset => .ok ((writesRegs .sreset).map (.reg · 0x00))
  | .fadd => .ok (writesY (gadd (s.reg .a) (s.reg .b)))
  | .fmul => .ok (writesY (gmul (s.reg .a) (s.reg .b)))
  | .fdiv => (gdiv (s.reg .a) (s.reg .b)).map writesY
  | .finv => (ginv (s.reg .a)).map writesY
  | .fpow => .ok (writesY (gpow (s.reg .a) (s.count .pw)))
  | .fexp => .ok (writesY (gexp (s.count .a)))
  | .flog => (glog (s.reg .a)).map (fun n => writesY (countByte n))
  | .peval => .ok (writesY (peval (polyP s) (s.reg .a)))
  | .pcoef => .ok (writesY (pcoefat (polyP s) (polyQ s) (s.count .kd)))
  | .pscale => .ok (writesR (pscale (polyP s) (s.reg .a)))
  | .padd => .ok (writesR (padd (polyP s) (polyQ s)))
  | .pmul =>
    if 1 ≤ s.count .lp ∧ 1 ≤ s.count .lq ∧ 255 < s.count .lp + s.count .lq - 1 then .error .lengthError
    else .ok (writesR (pmul (polyP s) (polyQ s)))
  | .pdiv => (pdivmod (polyP s) (polyQ s)).map
      (fun d => writesR d.1 ++ [.buf .r2 d.2, .reg .lr2 (countByte d.2.length)])
  | .pderiv => .ok (writesR (pderiv (polyP s)))
  | .genpoly => afterT s (.ok [.buf .gen (generatorPoly (s.count .t))])
  | .encode => afterT s
      (if 255 < s.count .k + s.count .t then .error .configurationError
       else (encodeWord (message s) (s.count .t)).map
        (fun c => [.buf .buf c, .reg .n (countByte (s.count .k + s.count .t))]))
  | .syndromes => afterTN s (.ok [.buf .syn (syndromes (receivedWord s) (s.count .t))])
  | .check => afterTN s (.ok (writesY (boolByte (allZero (syndromes (receivedWord s) (s.count .t))))))
  | .strip => afterTN s (.ok (writesMessage s (receivedWord s)))
  | .locator =>
    let st := bm (syndromeVector s) (s.count .t)
    afterT s (.ok [.buf .lam (trim st), .reg .ldeg (countByte st.len)])
  | .positions =>
    let pos := findPositions (locatorPoly s)
    .ok [.buf .pos (pos.map countByte), .reg .npos (countByte pos.length),
      .reg .y (boolByte (positionsValid pos pos.length (s.count .ldeg) (s.count .n)))]
  | .magnitudes => afterTN s
      (if positionsValid (positionList s) (s.count .npos) (s.count .ldeg) (s.count .n) then
        (forney (syndromeVector s) (s.count .t) (locatorPoly s) (positionList s) (s.count .n)).map
          (fun e => [.buf .emag e])
       else .error .uncorrectable)
  | .repair => afterTN s ((repairWord (receivedWord s) (s.count .t)).map (fun c => [.buf .buf c]))
  | .decode => afterTN s ((repairWord (receivedWord s) (s.count .t)).map (writesMessage s))

theorem map_commit_map {α : Type} (s : State) (x : Except Cause α) (f : α → List Write) :
    (x.map f).map s.commit = x.map (fun v => s.commit (f v)) := by cases x <;> rfl

theorem map_commit_afterT (s : State) (ws : Except Cause (List Write)) :
    (afterT s ws).map s.commit = checkT s (ws.map s.commit) := by
  unfold afterT checkT; split <;> rfl

theorem map_commit_afterTN (s : State) (ws : Except Cause (List Write)) :
    (afterTN s ws).map s.commit = checkT s (checkN s (ws.map s.commit)) := by
  rw [afterTN, map_commit_afterT]; unfold checkN; split <;> rfl

/-- SRESET's writes (R121), the record they leave to the success apart. -/
theorem complete_commit_clear (s : State) :
    complete (s.commit ((writesRegs .sreset).map (.reg · 0x00))) = complete (clearRegisters s) := by
  simp only [writesRegs, List.map_cons, List.map_nil, commit_cons, commit_nil, State.put, State.setReg, complete,
    clearRegisters]

/-- EVERY COMMAND IS ITS COMMIT (R91): it succeeds with the writes it commits, or faults with the cause. -/
theorem exec_eq_commits (i : Instr) (s : State) : exec i s = conclude s ((commits i s).map s.commit) := by
  cases i with
  | fdiv | finv | pdiv => rw [commits, map_commit_map]; rfl
  | flog => rw [commits, map_commit_map, exec, execFlog, toY]; cases glog (s.reg .a) <;> rfl
  | pmul => rw [commits, apply_ite (Except.map s.commit)]; rfl
  | genpoly | locator => rw [commits, map_commit_afterT]; rfl
  | encode => rw [commits, map_commit_afterT, apply_ite (Except.map s.commit), map_commit_map]; rfl
  | syndromes | check | strip => rw [commits, map_commit_afterTN]; rfl
  | magnitudes => rw [commits, map_commit_afterTN, apply_ite (Except.map s.commit), map_commit_map]; rfl
  | repair | decode => rw [commits, map_commit_afterTN, map_commit_map]; rfl
  | sreset => exact congrArg Host.Outcome.next (complete_commit_clear s).symm
  | nop | fadd | fmul | fpow | fexp | peval | pcoef | pscale | padd | pderiv | positions => rfl

/-- What a command can end in: its writes committed and its success, or its fault. -/
theorem exec_next_cases {i : Instr} {s u : State} (h : exec i s = .next u) :
    (∃ ws, commits i s = .ok ws ∧ u = complete (s.commit ws)) ∨ ∃ c, commits i s = .error c ∧ u = raise c s := by
  rw [exec_eq_commits] at h
  rcases hw : commits i s with c | ws <;> rw [hw] at h
  · exact .inr ⟨c, rfl, (Host.Outcome.next.inj h).symm⟩
  · exact .inl ⟨ws, rfl, (Host.Outcome.next.inj h).symm⟩

theorem exec_of_commits_ok {i : Instr} {s : State} {ws : List Write} (h : commits i s = .ok ws) :
    exec i s = .next (complete (s.commit ws)) := by rw [exec_eq_commits, h]; rfl

theorem exec_of_commits_error {i : Instr} {s : State} {c : Cause} (h : commits i s = .error c) :
    exec i s = .next (raise c s) := by rw [exec_eq_commits, h]; rfl

end Sys2Proof.Machine
end

section
/-! PROOF. O11: every step keeps the invariant. -/

namespace Sys2Proof.Machine

theorem Memory.Inv.write {m : Memory} (h : Memory.Inv m) (b : Buf) {k : Nat} (hk : k < 256) (v : Byte) :
    Memory.Inv (Memory.write m (b.base + k) v) := by
  obtain ⟨hwf, hin⟩ := h
  refine ⟨Memory.wf_write hwf _ _, fun c hc => ?_⟩
  rcases Memory.mem_write hc with hc | ⟨rfl, -⟩
  · exact hin c hc
  · have := b.base_bounds
    constructor <;> dsimp only <;> omega

theorem Memory.Inv.fill {m : Memory} (h : Memory.Inv m) (b : Buf) (vs : List Byte) :
    Memory.Inv (Memory.fill m b.base vs) := by
  obtain ⟨hwf, hin⟩ := h
  refine ⟨Memory.wf_fill hwf _ _, fun c hc => ?_⟩
  rcases Memory.mem_fill hc with hc | hc
  · exact hin c hc
  · have := b.base_bounds
    omega

theorem Memory.Inv.commit {s : State} (h : Memory.Inv s.mem) (ws : List Write) : Memory.Inv (s.commit ws).mem := by
  induction ws generalizing s with
  | nil => exact h
  | cons w ws ih =>
    cases w with
    | reg r v => exact ih (s := s.setReg r v) (by rwa [mem_setReg])
    | buf b vs => exact ih (s := s.setBuf b vs) (h.fill b vs)

/-- A host access keeps the memory invariant: it writes at most one entry of a buffer. -/
theorem Memory.Inv.hostAccess {s u : State} (hs : Memory.Inv s.mem)
    (h : hostAccess s = .done u ∨ ∃ v, hostAccess s = .issue v u) : Memory.Inv u.mem := by
  rcases mem_hostAccess h with hm | ⟨b, k, v, hk, hm⟩ <;> rw [hm]
  · exact hs
  · exact hs.write b hk v

theorem recordInv_complete (s : State) : RecordInv (complete s) :=
  ⟨.inr (.inl rfl), (by decide : causeNone.toNat ≤ 7), iff_of_true rfl (by decide : statusDone ≠ 0x06)⟩

theorem Cause.code_ne_zero (c : Cause) : c.code ≠ 0x00 := by cases c <;> decide

theorem recordInv_raise (c : Cause) (s : State) : RecordInv (raise c s) :=
  ⟨.inr (.inr rfl), c.code_bounds.2, iff_of_false c.code_ne_zero (fun h => h rfl)⟩

theorem RecordInv.congr {s u : State} (h : RecordInv s) (hst : u.reg .status = s.reg .status)
    (hca : u.reg .cause = s.reg .cause) : RecordInv u := by
  simp only [State.reg] at hst hca
  rwa [RecordInv, hst, hca]

/-- A command leaves a legal record whatever the record before it, and keeps the memory invariant. -/
theorem exec_inv {i : Instr} {s u : State} (hs : Memory.Inv s.mem) (h : exec i s = .next u) : Inv u := by
  rcases exec_next_cases h with ⟨ws, -, rfl⟩ | ⟨c, -, rfl⟩
  · exact ⟨hs.commit ws, recordInv_complete _⟩
  · exact ⟨hs, recordInv_raise c s⟩

end Sys2Proof.Machine

open Sys2Proof.Machine

/-- Settles O11: an access that is no command leaves the record and writes at most one buffer entry; a command writes a
record of its own and fills buffers. -/
theorem everyStepKeepsInvariant : Obligations.EveryStepKeepsInvariant := by
  intro s u ⟨hmem, hrec⟩ hstep
  rcases step_cases s with ⟨w, ha, he⟩ | ⟨v, w, i, ha, -, he⟩ | ⟨v, w, e, ha, -, he⟩ | ⟨-, he⟩ <;> rw [he] at hstep
  · cases hstep
    obtain ⟨hst, hca⟩ := record_hostAccess ha
    exact ⟨hmem.hostAccess (.inl ha), hrec.congr hst hca⟩
  · exact exec_inv (hmem.hostAccess (.inr ⟨v, ha⟩)) hstep
  · cases hstep
    exact ⟨Memory.Inv.hostAccess (u := w) hmem (.inr ⟨v, ha⟩), recordInv_raise _ w⟩
  · cases hstep
end

section
/-! PROOF. O16: no command depends on STATUS, CAUSE or Y as an earlier command left them. -/

namespace Sys2Proof.Machine

/-- The state with another STATUS, CAUSE and Y. -/
def State.rerecorded (st ca v : Byte) (s : State) : State := { s with status := st, cause := ca, y := v }

/-- From `s` to `u` Y was written, so that a Y of `v` instead of `s`'s ends as `v' = u.y`; or left alone, so that it ends as
`v`. -/
def YWrittenOrLeft (s u : State) (v v' : Byte) : Prop := v' = u.y ∨ (u.y = s.y ∧ v' = v)

theorem YWrittenOrLeft.trans {s t u : State} {v v' v'' : Byte} (h : YWrittenOrLeft s t v v')
    (h' : YWrittenOrLeft t u v' v'') : YWrittenOrLeft s u v v'' := by
  unfold YWrittenOrLeft at *
  rcases h' with h' | ⟨hy, rfl⟩
  · exact .inl h'
  · rwa [hy]

/-- No operand of a command is STATUS, CAUSE or Y (R93), so that what it commits does not change with them. -/
theorem commits_rerecorded (i : Instr) (s : State) (st ca v : Byte) :
    commits i (s.rerecorded st ca v) = commits i s := by cases i <;> rfl

/-- One write leaves no trace of the other record but in STATUS, CAUSE and a Y it did not write. -/
theorem put_rerecorded (s : State) (w : Write) (st ca v : Byte) : ∃ st' ca' v',
    (s.rerecorded st ca v).put w = (s.put w).rerecorded st' ca' v' ∧ YWrittenOrLeft s (s.put w) v v' := by
  cases w with
  | reg r x => cases r with
    | y => exact ⟨st, ca, x, rfl, .inl rfl⟩
    | status => exact ⟨x, ca, v, rfl, .inr ⟨rfl, rfl⟩⟩
    | cause => exact ⟨st, x, v, rfl, .inr ⟨rfl, rfl⟩⟩
    | _ => exact ⟨st, ca, v, rfl, .inr ⟨rfl, rfl⟩⟩
  | buf b vs => exact ⟨st, ca, v, rfl, .inr ⟨rfl, rfl⟩⟩

/-- A whole commit leaves no trace of the other record but there. -/
theorem commit_rerecorded (s : State) (ws : List Write) (st ca v : Byte) : ∃ st' ca' v',
    (s.rerecorded st ca v).commit ws = (s.commit ws).rerecorded st' ca' v' ∧ YWrittenOrLeft s (s.commit ws) v v' := by
  induction ws generalizing s st ca v with
  | nil => exact ⟨st, ca, v, rfl, .inr ⟨rfl, rfl⟩⟩
  | cons w ws ih =>
    obtain ⟨st₁, ca₁, v₁, hput, hy₁⟩ := put_rerecorded s w st ca v
    obtain ⟨st₂, ca₂, v₂, hws, hy₂⟩ := ih (s.put w) st₁ ca₁ v₁
    exact ⟨st₂, ca₂, v₂, by rw [commit_cons, hput, hws, commit_cons], hy₁.trans hy₂⟩

end Sys2Proof.Machine

open Sys2Proof.Machine

/-- Settles O16: a command's commit is computed without STATUS, CAUSE and Y, and its end writes STATUS and CAUSE anew. -/
theorem outcomeIndependentOfRecord : Obligations.OutcomeIndependentOfRecord := by
  intro i s u st ca v h
  have hsame := commits_rerecorded i s st ca v
  rcases exec_next_cases h with ⟨ws, hc, rfl⟩ | ⟨c, hc, rfl⟩ <;> rw [hc] at hsame
  · obtain ⟨st', ca', v', hcommit, hy⟩ := commit_rerecorded s ws st ca v
    have hexec := exec_of_commits_ok hsame
    rw [hcommit] at hexec
    exact ⟨_, hexec, rfl, hy⟩
  · exact ⟨_, exec_of_commits_error hsame, rfl, .inr ⟨rfl, rfl⟩⟩
end

section
/-! SUPPORT. The host bus, said once: where each place of the address map stands, and what a host write leaves and a later
read returns (20_memory.md R61 to R66). -/

namespace Sys2Proof.Machine

/-! ### The address map -/

/-- The place stands at address `a`, an entry's index being within its window (20_memory.md R61). -/
def Loc.StandsAt (a : Addr) : Loc → Prop
  | .ident => a = 0x000
  | .version => a = 0x001
  | .reg r => a = r.addr
  | .entry b i => i < 256 ∧ a.toNat = b.base + i
  | .expt i => i < 256 ∧ a.toNat = 0xB00 + i
  | .logt i => i < 256 ∧ a.toNat = 0xC00 + i
  | .reserved => (0x013 ≤ a.toNat ∧ a.toNat < 0x100) ∨ 0xD00 ≤ a.toNat

/-- The register page of the map (R22, R41). -/
theorem standsAt_ofRegisterPage {a : Addr} (h : a.toNat < 256) : (Loc.ofRegisterPage a.toNat).StandsAt a := by
  unfold Loc.ofRegisterPage
  split
  case h_20 =>
    simp only [imp_false] at *
    exact .inl ⟨by omega, h⟩
  all_goals
    rename_i he
    exact BitVec.eq_of_toNat_eq he

/-- THE ADDRESS MAP (R61): the place an address selects stands there. -/
theorem standsAt_ofAddr (a : Addr) : (Loc.ofAddr a).StandsAt a := by
  have hdm := Nat.div_add_mod a.toNat 256
  have hlt : a.toNat % 256 < 256 := Nat.mod_lt _ (by decide)
  unfold Loc.ofAddr Loc.ofPage
  split
  case h_1 hp =>
    have ha : a.toNat % 256 = a.toNat := by omega
    rw [ha]
    exact standsAt_ofRegisterPage (ha ▸ hlt)
  case h_14 =>
    simp only [imp_false] at *
    exact .inr (by omega)
  all_goals
    rename_i hp
    simp only [Loc.StandsAt, Buf.base]
    omega

theorem Reg.addr_bounds (r : Reg) : 0x002 ≤ r.addr.toNat ∧ r.addr.toNat ≤ 0x012 := by cases r <;> decide

theorem ofAddr_reserved {a : Addr} (h : Loc.reserved.StandsAt a) : Loc.ofAddr a = .reserved := by
  have hat := standsAt_ofAddr a
  cases hl : Loc.ofAddr a <;> rw [hl] at hat <;> simp only [Loc.StandsAt] at h hat
  case ident | version => simp [hat] at h
  case reg r => have := r.addr_bounds; subst hat; omega
  case entry b i => have := b.base_bounds; omega
  case expt i | logt i => omega

/-- The place that stands at an address is the one it selects (R61). -/
theorem ofAddr_of_standsAt {a : Addr} {l : Loc} (h : l.StandsAt a) : Loc.ofAddr a = l := by
  cases l with
  | ident | version => subst h; rfl
  | reg r => subst h; exact ofAddr_reg r
  | entry b i =>
    obtain ⟨hi, ha⟩ := h
    have haddr : a = b.addr i := BitVec.eq_of_toNat_eq (by
      rw [Buf.addr, BitVec.toNat_ofNat, ← ha, Nat.mod_eq_of_lt a.isLt])
    exact haddr ▸ ofAddr_entry b hi
  | expt i | logt i =>
    obtain ⟨hi, ha⟩ := h
    have hpage : a.toNat / 256 = (a.toNat - i) / 256 := by omega
    have hidx : a.toNat % 256 = i := by omega
    rw [Loc.ofAddr, hpage, hidx, ha, Nat.add_sub_cancel]
    rfl
  | reserved => exact ofAddr_reserved h

/-- A place other than the reserved ones is selected by one address only (R61). -/
theorem ofAddr_eq_iff {a : Addr} {l : Loc} (ha : Loc.ofAddr a = l) (hl : l ≠ .reserved) (x : Addr) :
    Loc.ofAddr x = l ↔ x = a :=
  ⟨fun hx => ofAddr_inj (hx.trans ha.symm) (hx ▸ hl), fun hx => hx ▸ ha⟩

theorem ofAddr_eq_cmd_iff (a : Addr) : Loc.ofAddr a = .reg .cmd ↔ a = 0x002 :=
  ofAddr_eq_iff (ofAddr_reg .cmd) (by simp) a

theorem ofAddr_eq_logt_zero_iff (a : Addr) : Loc.ofAddr a = .logt 0 ↔ a = 0xC00 := ofAddr_eq_iff (by rfl) (by simp) a

/-- Two entries within their windows at one address are the same entry (R42). -/
theorem Buf.base_add_inj {b c : Buf} {i j : Nat} (hi : i < 256) (hj : j < 256) (h : c.base + j = b.base + i) :
    c = b ∧ j = i := by
  by_cases hbc : c = b
  · subst hbc; exact ⟨rfl, by omega⟩
  · have := Buf.base_apart hbc
    omega

/-- The host may write the place: an RW register or an entry of an RW buffer (10_state.md R22, R42). -/
def Loc.hostWritable : Loc → Bool
  | .reg r => r.hostWritable
  | .entry b _ => b.hostWritable
  | .ident | .version | .expt _ | .logt _ | .reserved => false

/-- The writable addresses of R22 and R42, CMD apart. -/
theorem hostWritable_ofAddr {a : Addr} (hcmd : a ≠ 0x002) :
    (Loc.ofAddr a).hostWritable = true ↔
      (0x005 ≤ a.toNat ∧ a.toNat ≤ 0x00A) ∨ (0x00C ≤ a.toNat ∧ a.toNat ≤ 0x00D) ∨
        (0x010 ≤ a.toNat ∧ a.toNat ≤ 0x012) ∨ (0x100 ≤ a.toNat ∧ a.toNat < 0x500) ∨
        (0x700 ≤ a.toNat ∧ a.toNat < 0x900) := by
  have hat := standsAt_ofAddr a
  cases hl : Loc.ofAddr a <;> rw [hl] at hat
  case ident | version => subst hat; decide
  case reg r =>
    subst hat
    cases r with
    | cmd => exact absurd rfl hcmd
    | _ => decide
  case entry b i =>
    obtain ⟨hi, ha⟩ := hat
    cases b <;>
      simp only [Loc.hostWritable, Buf.hostWritable, Buf.base, true_iff, Bool.false_eq_true, false_iff] at * <;> omega
  case expt i | logt i | reserved =>
    simp only [Loc.hostWritable, Loc.StandsAt, Bool.false_eq_true, false_iff] at *
    omega

/-! ### What a read returns, range by range -/

/-- A reserved address reads as 0x00 (R64). -/
theorem hostView_reserved (s : State) {a : Addr} (h : (0x013 ≤ a.toNat ∧ a.toNat < 0x100) ∨ 0xD00 ≤ a.toNat) :
    hostView s a = 0x00 := by
  rw [hostView, ofAddr_of_standsAt (l := .reserved) h, Loc.read]

/-- The ten buffers stand one after the other, each byte of memory at its own bus address (R42, R62). -/
theorem hostView_buffers (s : State) {a : Addr} (h1 : 0x100 ≤ a.toNat) (h2 : a.toNat < 0xB00) :
    hostView s a = Memory.read s.mem a.toNat := by
  have hat := standsAt_ofAddr a
  unfold hostView
  cases hl : Loc.ofAddr a <;> rw [hl] at hat <;> simp only [Loc.StandsAt] at hat
  case entry b i => rw [Loc.read, State.entry, hat.2]
  case ident | version => simp [hat] at h1
  case reg r => have := r.addr_bounds; subst hat; omega
  all_goals omega

/-- The EXP window, its entry 255 among it (10_state.md R53). -/
theorem hostView_expt (s : State) {a : Addr} (h1 : 0xB00 ≤ a.toNat) (h2 : a.toNat < 0xC00) :
    hostView s a = gexp (a.toNat - 0xB00) := by
  rw [hostView, ofAddr_of_standsAt (l := .expt (a.toNat - 0xB00)) ⟨by omega, by omega⟩, Loc.read]

/-- The LOG window but for entry 0, the free value (R54, R66). -/
theorem hostView_logt (s : State) {a : Addr} (h1 : 0xC00 < a.toNat) (h2 : a.toNat < 0xD00) :
    hostView s a = BitVec.ofNat 8 (logTable (BitVec.ofNat 8 (a.toNat - 0xC00))) := by
  rw [hostView, ofAddr_of_standsAt (l := .logt (a.toNat - 0xC00)) ⟨by omega, by omega⟩, Loc.read, if_neg (by omega)]

/-! ### What a write leaves -/

/-- A write at a read-only or reserved place is ignored (20_memory.md R64, R65). -/
theorem write_of_not_hostWritable {l : Loc} (h : l.hostWritable = false) (v : Byte) (s : State) : l.write v s = s := by
  cases l <;> simp_all [Loc.hostWritable, Loc.write]

/-- WHAT A WRITE CAN DO: nothing, or store the byte in one writable register or buffer entry (R63 to R65). -/
theorem write_cases (l : Loc) (v : Byte) (s : State) :
    (l.hostWritable = false ∧ l.write v s = s) ∨
    (∃ r, l = .reg r ∧ r.hostWritable = true ∧ l.write v s = s.setReg r v) ∨
    (∃ b i, l = .entry b i ∧ b.hostWritable = true ∧ l.write v s = s.setEntry b i v) := by
  cases hw : l.hostWritable
  · exact .inl ⟨rfl, write_of_not_hostWritable hw v s⟩
  · cases l with
    | reg r => exact .inr (.inl ⟨r, rfl, hw, if_pos hw⟩)
    | entry b i => exact .inr (.inr ⟨b, i, rfl, hw, if_pos hw⟩)
    | _ => simp [Loc.hostWritable] at hw

/-- A write starts nothing and reaches nothing of the host's side of the bus (R63). -/
theorem sameBus_write (l : Loc) (v : Byte) (s : State) : SameBus s (l.write v s) := by
  rcases write_cases l v s with ⟨-, h⟩ | ⟨r, -, -, h⟩ | ⟨b, i, -, -, h⟩ <;> rw [h] <;> simp [SameBus]

/-- A register is as before unless the write is to it and it is writable. -/
theorem reg_write_of_ne {l : Loc} {q : Reg} (h : l ≠ .reg q ∨ q.hostWritable = false) (v : Byte) (s : State) :
    (l.write v s).reg q = s.reg q := by
  rcases write_cases l v s with ⟨-, hw⟩ | ⟨r, rfl, hr, hw⟩ | ⟨b, i, -, -, hw⟩ <;> rw [hw]
  · have hq : q ≠ r := by
      rintro rfl
      simp [hr] at h
    rw [reg_setReg, if_neg hq]
  · exact reg_setEntry ..

/-! ### What a read returns after a write -/

/-- What an address reads as does not depend on the host's accesses to come. -/
theorem hostView_withBus (s : State) (rest : List Transaction) (x : Addr) :
    hostView { s with bus := rest } x = hostView s x := by
  unfold hostView
  cases Loc.ofAddr x with
  | reg q => cases q <;> rfl
  | _ => rfl

theorem readReg_setReg (s : State) {r : Reg} (hr : r ≠ .status) (v : Byte) (q : Reg) :
    (s.setReg r v).readReg q = if q = r then v else s.readReg q := by
  by_cases hq : q = .status
  · subst hq
    simp [State.readReg, State.statusView, Ne.symm hr]
  · simp [State.readReg, hq]

theorem hostView_setReg (s : State) {r : Reg} (hr : r ≠ .status) (v : Byte) (x : Addr) :
    hostView (s.setReg r v) x = if Loc.ofAddr x = .reg r then v else hostView s x := by
  unfold hostView
  cases Loc.ofAddr x <;> simp [Loc.read, readReg_setReg s hr]

theorem hostView_setEntry {s : State} (hwf : Memory.wf s.mem = true) (b : Buf) {i : Nat} (hi : i < 256) (v : Byte)
    (x : Addr) :
    hostView (s.setEntry b i v) x = if Loc.ofAddr x = .entry b i then v else hostView s x := by
  have hat := standsAt_ofAddr x
  unfold hostView
  cases hl : Loc.ofAddr x <;> rw [hl] at hat
  case reg q => simp [Loc.read, State.readReg, State.statusView]
  case entry c j =>
    have hsame : c.base + j = b.base + i ↔ Loc.entry c j = .entry b i := by
      rw [Loc.entry.injEq]
      exact ⟨Buf.base_add_inj hi hat.1, fun ⟨hc, hj⟩ => by rw [hc, hj]⟩
    simp only [Loc.read, State.entry, mem_setEntry, Memory.read_write hwf, hsame]
  all_goals simp [Loc.read]

/-- READ AFTER WRITE (R63 to R65, R70): the byte written at its own address where that is writable; every other address
reads as before. -/
theorem hostView_busWrite {s : State} (hwf : Memory.wf s.mem = true) (a : Addr) (v : Byte) (x : Addr) :
    hostView (busWrite a v s) x = if x = a ∧ (Loc.ofAddr a).hostWritable = true then v else hostView s x := by
  have hat := standsAt_ofAddr a
  unfold busWrite
  rcases write_cases (Loc.ofAddr a) v s with ⟨hro, h⟩ | ⟨r, hl, hr, h⟩ | ⟨b, i, hl, hb, h⟩ <;> rw [h]
  · simp [hro]
  · have hst : r ≠ .status := by rintro rfl; cases hr
    rw [hostView_setReg s hst]
    exact if_congr (by simp [ofAddr_eq_iff hl, hl, Loc.hostWritable, hr]) rfl rfl
  · rw [hl] at hat
    rw [hostView_setEntry hwf b hat.1]
    exact if_congr (by simp [ofAddr_eq_iff hl, hl, Loc.hostWritable, hb]) rfl rfl

/-! ### The steps -/

/-- A host read while BUSY = 0 returns the byte at the address; only a read of LOGT entry 0 uses up its draw (R62, R66). -/
theorem step_read {s : State} {a : Addr} {rest : List Transaction} (hb : s.busy = 0) (h : s.bus = .read a :: rest) :
    step s = .next { s with
      bus := rest, reads := hostView s a :: s.reads, draws := if a = 0xC00 then s.draws + 1 else s.draws } := by
  rw [step_done (hostAccess_ready hb h)]
  have hview : (Loc.ofAddr a).read { s with bus := rest } = hostView s a := hostView_withBus s rest a
  simp only [busRead, hview, Loc.afterRead, ofAddr_eq_logt_zero_iff, State.tick]
  split <;> simp [hb]

/-- A host write at any address but CMD while BUSY = 0 stores, and issues no command (R63). -/
theorem step_write {s : State} {a : Addr} {v : Byte} {rest : List Transaction} (hb : s.busy = 0)
    (h : s.bus = .write a v :: rest) (hcmd : a ≠ 0x002) : step s = .next (busWrite a v { s with bus := rest }) :=
  step_done ((hostAccess_ready hb h).trans (if_neg (fun hl => hcmd ((ofAddr_eq_cmd_iff a).1 hl))))

end Sys2Proof.Machine
end

section
/-! PROOF. O5: what a host read returns. -/

namespace Sys2Proof.Machine

/-- EXP undoes LOG on the nonzero bytes, whose LOG is below 255 (41_field.md R133). -/
theorem expTable_logTable : ∀ v : Byte, v ≠ 0x00 → logTable v ≤ 254 ∧ expTable (logTable v) = v := by decide +kernel

/-- The byte LOGT holds for a nonzero `x` is the exponent below 255 that gives `x` (10_state.md R54). -/
theorem gexp_logByte {x : Byte} (hx : x ≠ 0x00) :
    gexp (BitVec.ofNat 8 (logTable x)).toNat = x ∧ BitVec.ofNat 8 (logTable x) ≠ 0xFF := by
  obtain ⟨hle, hexp⟩ := expTable_logTable x hx
  have hnat : (BitVec.ofNat 8 (logTable x)).toNat = logTable x := Nat.mod_eq_of_lt (by omega)
  constructor
  · rw [hnat, gexp, Nat.mod_eq_of_lt (show logTable x < Config.groupOrder by simp only [Config.groupOrder]; omega), hexp]
  · intro h
    rw [h] at hnat
    have : (0xFF : Byte).toNat = 255 := rfl
    omega

end Sys2Proof.Machine

open Sys2Proof Sys2Proof.Machine

/-- Settles O5: below 0x013 by the register that stands at the address, above by the range of the map. -/
theorem hostReadReturns : Obligations.HostReadReturns := by
  intro s a rest hb hbus
  refine ⟨hostView s a, step_read hb hbus, ?_⟩
  by_cases hlow : a.toNat < 0x013
  · have hat := standsAt_ofAddr a
    unfold hostView
    cases hl : Loc.ofAddr a <;> rw [hl] at hat
    case ident | version => subst hat; rfl
    case reg r =>
      subst hat
      cases r <;> simp [Reg.addr, Loc.read, State.readReg, State.statusView, hb, State.reg]
    case entry b i => have := b.base_bounds; have := hat.2; omega
    case expt i | logt i => have := hat.2; omega
    case reserved => simp only [Loc.StandsAt] at hat; omega
  · -- no register stands at `a`: the ranges of the map are left
    have hne (c : Addr) (h : c.toNat < 0x013) : ¬ a = c := by rintro rfl; exact hlow h
    simp (disch := decide) only [hne, if_false]
    split_ifs with hpage hbuf hexpt hlogt0 hlogt
    · exact hostView_reserved s (.inl ⟨by omega, hpage⟩)
    · exact hostView_buffers s (by omega) hbuf
    · exact hostView_expt s (by omega) hexpt
    · exact hlogt0 ▸ rfl
    · have hne0 : a.toNat ≠ 0xC00 := fun h => hlogt0 (BitVec.eq_of_toNat_eq h)
      rw [hostView_logt s (by omega) hlogt]
      have hbyte : BitVec.ofNat 8 (a.toNat - 0xC00) ≠ 0x00 := fun h => by
        have hmod : (a.toNat - 0xC00) % 256 = 0 := by simpa using congrArg BitVec.toNat h
        omega
      exact gexp_logByte hbyte
    · exact hostView_reserved s (.inr (by omega))
end

section
/-! PROOF. O6: what a host write stores. -/

open Sys2Proof Sys2Proof.Machine

/-- Settles O6: the write stores or is ignored, and a read after it sees the byte at its own address alone. -/
theorem hostWriteStores : Obligations.HostWriteStores := by
  intro s a v rest ⟨hwf, _⟩ hb hbus hcmd
  have hreg (q : Reg) (h : q = .cmd ∨ q.hostWritable = false) :
      (busWrite a v { s with bus := rest }).reg q = ({ s with bus := rest } : State).reg q := by
    refine reg_write_of_ne (h.imp_left ?_) v _
    rintro rfl hl
    exact hcmd ((ofAddr_eq_cmd_iff a).1 hl)
  obtain ⟨hbus', hreads, hdraws, hbusy, hlat⟩ := sameBus_write (Loc.ofAddr a) v { s with bus := rest }
  refine ⟨_, step_write hb hbus hcmd, hbus', hreads, hdraws, hbusy, hlat, hreg .cmd (.inl rfl), hreg .status (.inr rfl),
    hreg .cause (.inr rfl), fun x => ?_⟩
  rw [hostView_busWrite (s := { s with bus := rest }) hwf, hostView_withBus]
  exact if_congr (and_congr Iff.rfl (hostWritable_ofAddr hcmd)) rfl rfl
end

section
/-! SUPPORT. The opcode map, said once: a byte decodes to the command whose opcode it is, or it is reserved
(30_encoding.md R90, R92, R94). -/

namespace Sys2Proof

theorem decode_encode (i : Instr) : decode (encode i) = .ok i := by cases i <;> rfl

/-- UNIT and FUNC make up the whole byte (R90). -/
theorem byte_of_fields (v : Byte) : BitVec.ofNat 8 (16 * (unitOf v).toNat + (funcOf v).toNat) = v := by
  apply BitVec.eq_of_toNat_eq
  simp only [unitOf, funcOf, BitVec.toNat_ofNat]
  omega

/-- What the decoder can answer: the command whose opcode the byte is, or that the byte is reserved. -/
theorem decode_cases (v : Byte) :
    (∃ i, decode v = .ok i ∧ encode i = v) ∨ decode v = .error (.reservedOpcode v) := by
  have hv := byte_of_fields v
  unfold decode
  split
  case h_27 => exact .inr rfl
  all_goals
    rename_i hunit hfunc
    rw [hunit, hfunc] at hv
    exact .inl ⟨_, rfl, hv⟩

theorem encode_of_decode {v : Byte} {i : Instr} (h : decode v = .ok i) : encode i = v := by
  rcases decode_cases v with ⟨j, hj, hv⟩ | hv
  · rw [hj] at h
    cases h
    exact hv
  · simp [hv] at h

/-- The well-formedness check passes exactly the bytes the decoder answers with a command. -/
theorem commandByte_eq_isOk : ∀ v : Byte, WellFormed.commandByte v = (decode v).isOk := by decide

theorem commandByte_iff (v : Byte) : WellFormed.commandByte v = true ↔ ∃ i, decode v = .ok i := by
  rw [commandByte_eq_isOk]
  cases decode v <;> simp [Except.isOk, Except.toBool]

theorem decode_reserved_iff (v : Byte) :
    decode v = .error (.reservedOpcode v) ↔ WellFormed.commandByte v = false := by
  rw [commandByte_eq_isOk]
  rcases decode_cases v with ⟨i, h, -⟩ | h <;> simp [h, Except.isOk, Except.toBool]

/-- The reserved bytes, unit by unit: those beyond the operations of their unit, and the units 5 to 15 (R94). -/
theorem commandByte_eq_false_iff (v : Byte) : WellFormed.commandByte v = false ↔
    ((0x02 ≤ v.toNat ∧ v.toNat ≤ 0x0F) ∨ (0x17 ≤ v.toNat ∧ v.toNat ≤ 0x1F) ∨ (0x27 ≤ v.toNat ∧ v.toNat ≤ 0x2F) ∨
      (0x35 ≤ v.toNat ∧ v.toNat ≤ 0x3F) ∨ (0x45 ≤ v.toNat ∧ v.toNat ≤ 0xFF)) := by
  have hlt := v.isLt
  simp only [WellFormed.commandByte, WellFormed.unitDefined, WellFormed.funcDefined, Bool.and_eq_false_iff,
    decide_eq_false_iff_not]
  unfold WellFormed.operationsOf
  split
  case h_6 =>
    simp only [imp_false] at *
    omega
  all_goals omega

end Sys2Proof
end

section
/-! PROOF. O1, O2: the decoder and the encoder are the opcode map and inverse to each other. -/

open Sys2Proof

/-- Settles O1: every row is the decoding of a command's opcode, and a byte that is no command's opcode is reserved. -/
theorem opcodeMapDecodes : Obligations.OpcodeMapDecodes := by
  refine ⟨⟨decode_encode .nop, decode_encode .sreset⟩,
    ⟨decode_encode .fadd, decode_encode .fmul, decode_encode .fdiv, decode_encode .finv, decode_encode .fpow,
      decode_encode .fexp, decode_encode .flog⟩,
    ⟨decode_encode .peval, decode_encode .pcoef, decode_encode .pscale, decode_encode .padd, decode_encode .pmul,
      decode_encode .pdiv, decode_encode .pderiv⟩,
    ⟨decode_encode .genpoly, decode_encode .encode, decode_encode .syndromes, decode_encode .check,
      decode_encode .strip⟩,
    ⟨decode_encode .locator, decode_encode .positions, decode_encode .magnitudes, decode_encode .repair,
      decode_encode .decode⟩, fun v hv => ?_⟩
  rcases decode_cases v with ⟨i, -, rfl⟩ | h
  · exact absurd (by cases i <;> decide) hv
  · exact h

/-- Settles O2: decoding an opcode gives its command, and a byte that decodes is the opcode of its command. -/
theorem decodeEncodeInverse : Obligations.DecodeEncodeInverse :=
  ⟨decode_encode, fun _ _ => encode_of_decode, commandByte_iff⟩
end

section
/-! SUPPORT. The write of a command, said once: the state it is issued in, and its step (30_encoding.md R91, R94). -/

namespace Sys2Proof.Machine

@[simp] theorem reg_withBus (s : State) (rest : List Transaction) (q : Reg) :
    ({ s with bus := rest } : State).reg q = s.reg q := by cases q <;> rfl

@[simp] theorem reg_issued (s : State) (v : Byte) (q : Reg) :
    (s.issued v).reg q = if q = .cmd then v else s.reg q := by simp [State.issued]
@[simp] theorem busy_issued (s : State) (v : Byte) : (s.issued v).busy = s.latencies.headD 0 := rfl
@[simp] theorem latencies_issued (s : State) (v : Byte) : (s.issued v).latencies = s.latencies.tail := rfl
@[simp] theorem bus_issued (s : State) (v : Byte) : (s.issued v).bus = s.bus := rfl
@[simp] theorem reads_issued (s : State) (v : Byte) : (s.issued v).reads = s.reads := rfl
@[simp] theorem draws_issued (s : State) (v : Byte) : (s.issued v).draws = s.draws := rfl

/-- A write to CMD while BUSY = 0 issues the command, the write stored and the BUSY time started (R91). -/
theorem hostAccess_cmd {s : State} {v : Byte} {rest : List Transaction} (hb : s.busy = 0)
    (h : s.bus = .write 0x002 v :: rest) : hostAccess s = .issue v (State.issued { s with bus := rest } v) :=
  hostAccess_ready hb h

theorem step_cmd {s : State} {v : Byte} {rest : List Transaction} {i : Instr} (hb : s.busy = 0)
    (h : s.bus = .write 0x002 v :: rest) (hd : decode v = .ok i) :
    step s = exec i (State.issued { s with bus := rest } v) := step_issue (hostAccess_cmd hb h) hd

theorem step_cmd_reserved {s : State} {v : Byte} {rest : List Transaction} (hb : s.busy = 0)
    (h : s.bus = .write 0x002 v :: rest) (hd : decode v = .error (.reservedOpcode v)) :
    step s = .next (raise .illegalCommand (State.issued { s with bus := rest } v)) :=
  step_reserved (hostAccess_cmd hb h) hd

theorem decode_of_decodeTableWord {w : Nat} {i : Instr} (h : decodeTableWord 8 w = some i) :
    decode (BitVec.ofNat 8 (w % 256)) = .ok i := by
  have h' : (decode (BitVec.ofNat 8 (w % 256))).toOption = some i := h
  rcases hd : decode (BitVec.ofNat 8 (w % 256)) with e | j <;> rw [hd] at h'
  · cases h'
  · exact congrArg Except.ok (Option.some.inj h')

end Sys2Proof.Machine
end

section
/-! PROOF. O3, O4: the step of a write to CMD, for a command and for a reserved byte. -/

open Sys2Proof Sys2Proof.Machine

/-- Settles O3: an admitted write to CMD issues its byte, and `withFetchWord` places such a write. -/
theorem stepRunsDecodedCommand : Obligations.StepRunsDecodedCommand := by
  refine ⟨fun s v rest i hb hbus hd => step_cmd hb hbus hd, fun s w i h => ?_⟩
  exact step_cmd (s := s.withFetchWord 8 w) rfl rfl (decode_of_decodeTableWord h)

/-- Settles O4: the reserved bytes are those that fail the well-formedness check, and the step of one is the fault in the
state the write is issued in. -/
theorem reservedOpcodeFaults : Obligations.ReservedOpcodeFaults := by
  have hiff (v : Byte) := (decode_reserved_iff v).trans (commandByte_eq_false_iff v)
  refine ⟨hiff, fun s v rest hb hbus hv =>
    ⟨_, step_cmd_reserved hb hbus ((hiff v).2 hv), by simp, rfl, rfl, fun r hr => ?_, rfl, rfl, rfl, rfl⟩⟩
  simp only [List.mem_cons, List.not_mem_nil, or_false, not_or] at hr
  obtain ⟨hcmd, hstatus, hcause⟩ := hr
  simp [hcmd, hstatus, hcause]
end

section
/-! SUPPORT. What a commit writes and what it is computed from, said once for every command: its row of 30_encoding.md
R93. -/

namespace Sys2Proof.Machine

/-! ### The registers and buffers of a commit -/

/-- The registers a commit writes. -/
def writtenRegs (ws : List Write) : List Reg := ws.filterMap (fun | .reg r _ => some r | .buf _ _ => none)

/-- The buffers a commit writes. -/
def writtenBufs (ws : List Write) : List Buf := ws.filterMap (fun | .reg _ _ => none | .buf b _ => some b)

@[simp] theorem writtenRegs_reg (r : Reg) (v : Byte) (ws : List Write) :
    writtenRegs (.reg r v :: ws) = r :: writtenRegs ws := rfl
@[simp] theorem writtenRegs_buf (b : Buf) (vs : List Byte) (ws : List Write) :
    writtenRegs (.buf b vs :: ws) = writtenRegs ws := rfl
@[simp] theorem writtenBufs_reg (r : Reg) (v : Byte) (ws : List Write) :
    writtenBufs (.reg r v :: ws) = writtenBufs ws := rfl
@[simp] theorem writtenBufs_buf (b : Buf) (vs : List Byte) (ws : List Write) :
    writtenBufs (.buf b vs :: ws) = b :: writtenBufs ws := rfl

/-- A commit, where there is one, writes the registers `rs` and the buffers `bs`. -/
def CommitsRow (rs : List Reg) (bs : List Buf) (x : Except Cause (List Write)) : Prop :=
  ∀ ws, x = .ok ws → writtenRegs ws = rs ∧ writtenBufs ws = bs

section CommitsRow

variable {rs : List Reg} {bs : List Buf}

theorem CommitsRow.ok {ws : List Write} (hr : writtenRegs ws = rs) (hb : writtenBufs ws = bs) :
    CommitsRow rs bs (.ok ws) := fun _ h => by cases h; exact ⟨hr, hb⟩

theorem CommitsRow.error (c : Cause) : CommitsRow rs bs (.error c) := fun _ h => by cases h

theorem CommitsRow.map {α : Type} (x : Except Cause α) {f : α → List Write} (hr : ∀ a, writtenRegs (f a) = rs)
    (hb : ∀ a, writtenBufs (f a) = bs) : CommitsRow rs bs (x.map f) := by
  cases x with
  | error c => exact .error c
  | ok a => exact .ok (hr a) (hb a)

theorem CommitsRow.ite {p : Prop} [Decidable p] {x y : Except Cause (List Write)} (hx : CommitsRow rs bs x)
    (hy : CommitsRow rs bs y) : CommitsRow rs bs (if p then x else y) := by split <;> assumption

theorem CommitsRow.afterT {s : State} {x : Except Cause (List Write)} (h : CommitsRow rs bs x) :
    CommitsRow rs bs (afterT s x) := .ite (.error _) h

theorem CommitsRow.afterTN {s : State} {x : Except Cause (List Write)} (h : CommitsRow rs bs x) :
    CommitsRow rs bs (afterTN s x) := .afterT (.ite (.error _) h)

end CommitsRow

/-- A COMMAND'S COMMIT WRITES ITS ROW (R93): every register and buffer of it, and no other. -/
theorem commits_row (i : Instr) (s : State) : CommitsRow (writesRegs i) (writesBufs i) (commits i s) := by
  cases i with
  | fdiv | finv | flog | pdiv => exact .map _ (fun _ => rfl) (fun _ => rfl)
  | pmul => exact .ite (.error _) (.ok rfl rfl)
  | genpoly | locator => exact .afterT (.ok rfl rfl)
  | encode => exact .afterT (.ite (.error _) (.map _ (fun _ => rfl) (fun _ => rfl)))
  | syndromes | check | strip => exact .afterTN (.ok rfl rfl)
  | magnitudes => exact .afterTN (.ite (.map _ (fun _ => rfl) (fun _ => rfl)) (.error _))
  | repair | decode => exact .afterTN (.map _ (fun _ => rfl) (fun _ => rfl))
  | nop | sreset | fadd | fmul | fpow | fexp | peval | pcoef | pscale | padd | pderiv | positions => exact .ok rfl rfl

/-! ### The frame of a commit -/

theorem Frame.commit {rs : List Reg} {bs : List Buf} {s u : State} {ws : List Write} (h : Frame rs bs s u)
    (hr : ∀ r ∈ writtenRegs ws, r ∈ rs) (hb : ∀ b ∈ writtenBufs ws, b ∈ bs) : Frame rs bs s (u.commit ws) := by
  induction ws generalizing u with
  | nil => exact h
  | cons w ws ih =>
    cases w with
    | reg r v =>
      simp only [writtenRegs_reg, writtenBufs_reg, List.forall_mem_cons] at hr hb
      exact ih (h.setReg hr.1 v) hr.2 hb
    | buf b vs =>
      simp only [writtenRegs_buf, writtenBufs_buf, List.forall_mem_cons] at hr hb
      exact ih (h.setBuf hb.1 vs) hr hb.2

/-- EVERY COMMAND STAYS IN ITS ROW (R93), in success and in fault. -/
theorem exec_frame {i : Instr} {s u : State} (h : exec i s = .next u) :
    Frame (writesRegs i) (writesBufs i) s u := by
  rcases exec_next_cases h with ⟨ws, hws, rfl⟩ | ⟨c, -, rfl⟩
  · obtain ⟨hr, hb⟩ := commits_row i s ws hws
    exact ((Frame.refl _ _ s).commit (fun r h => hr ▸ h) (fun b h => hb ▸ h)).complete
  · exact .raise _ _ c s

/-! ### What a commit leaves in its own registers and buffers -/

/-- A register keeps agreeing in two states through the same writes, and agrees after a write to it. -/
theorem reg_commit_congr {s s' : State} {r : Reg} {ws : List Write} (h : r ∈ writtenRegs ws ∨ s'.reg r = s.reg r) :
    (s'.commit ws).reg r = (s.commit ws).reg r := by
  induction ws generalizing s s' with
  | nil => simpa [writtenRegs] using h
  | cons w ws ih =>
    refine ih ?_
    cases w with
    | reg q v =>
      simp only [State.put, reg_setReg]
      by_cases hq : r = q
      · simp [hq]
      · simpa [hq] using h
    | buf b vs => simpa [State.put] using h

/-- A buffer keeps agreeing in two states through the same writes, and agrees after a result is written into it. -/
theorem entry_commit_congr {s s' : State} {b : Buf} {ws : List Write}
    (h : b ∈ writtenBufs ws ∨ ∀ k, k < 256 → s'.entry b k = s.entry b k) {k : Nat} (hk : k < 256) :
    (s'.commit ws).entry b k = (s.commit ws).entry b k := by
  induction ws generalizing s s' with
  | nil => exact h.elim (fun h => by cases h) (fun h => h k hk)
  | cons w ws ih =>
    refine ih ?_
    cases w with
    | reg q v => simpa [State.put] using h
    | buf c vs =>
      by_cases hc : b = c
      · subst hc
        exact .inr (fun j hj => by simp [State.put, entry_setBuf_same _ _ _ hj])
      · refine h.imp (fun h => by simpa [hc] using h) (fun h j hj => ?_)
        simp [State.put, entry_setBuf_other _ hc _ hj, h j hj]

/-! ### The operands of a commit -/

/-- A COMMAND'S COMMIT IS COMPUTED FROM ITS ROW (R93): it is the same in two states that agree on the registers and buffers
the command reads. -/
theorem commits_congr {i : Instr} {s s' : State} (hr : ∀ r ∈ readsRegs i, s'.reg r = s.reg r)
    (hb : ∀ b ∈ readsBufs i, ∀ k, k < 256 → s'.entry b k = s.entry b k) : commits i s' = commits i s := by
  have hcount : ∀ r ∈ readsRegs i, s'.count r = s.count r := fun r h => congrArg BitVec.toNat (hr r h)
  have hword : ∀ b ∈ readsBufs i, ∀ r, s'.entries b (s.count r) = s.entries b (s.count r) := fun b h r =>
    entries_congr (fun k hk => hb b h k (hk.trans (count_lt s r)))
  have hlocator : ∀ b ∈ readsBufs i, ∀ r, s'.entries b (s.count r + 1) = s.entries b (s.count r + 1) := fun b h r =>
    entries_congr (fun k hk => hb b h k (hk.trans_le (count_lt s r)))
  cases i
  case magnitudes =>
    have hpos : positionList s' = positionList s := by simp (disch := decide) only [positionList, hcount, hword]
    simp (disch := decide) only [commits, afterTN, afterT, syndromeVector, locatorPoly, hpos, hcount, hword, hlocator]
  case decode =>
    have hmessage : writesMessage s' = writesMessage s := by
      funext word
      simp (disch := decide) only [writesMessage, hcount]
    simp (disch := decide) only [commits, afterTN, afterT, receivedWord, hmessage, hcount, hword]
  all_goals
    simp (disch := decide) only [commits, afterTN, afterT, writesMessage, polyP, polyQ, message, receivedWord,
      syndromeVector, locatorPoly, hr, hcount, hword, hlocator]

end Sys2Proof.Machine
end

section
/-! PROOF. O14, O15: a command writes and reads only its row. -/

open Sys2Proof Sys2Proof.Machine

/-- Settles O14: a success commits the writes of the row alone, and a fault writes its record alone. -/
theorem everyCommandWritesOnlyItsRow : Obligations.EveryCommandWritesOnlyItsRow := fun _ _ _ => exec_frame

/-- Settles O15: both states give the same commit, and it writes every register and buffer of the row. -/
theorem everyCommandReadsOnlyItsRow : Obligations.EveryCommandReadsOnlyItsRow := by
  intro i s s' hr hb
  have hsame := commits_congr hr hb
  rcases hc : commits i s with c | ws <;> rw [hc] at hsame
  · refine ⟨_, _, exec_of_commits_error hc, exec_of_commits_error hsame, by simp, by simp, fun h => ?_⟩
    simp [statusFault, statusByte] at h
  · obtain ⟨hregs, hbufs⟩ := commits_row i s ws hc
    refine ⟨_, _, exec_of_commits_ok hc, exec_of_commits_ok hsame, by simp, by simp, fun _ => ⟨fun r h => ?_, ?_⟩⟩
    · simp [reg_commit_congr (s := s) (s' := s') (.inl (hregs ▸ h))]
    · exact fun b h k hk => entry_commit_congr (.inl (hbufs ▸ h)) hk
end

section
/-! PROOF. O8: a command and the WAIT after it. -/

namespace Sys2Proof.Machine

/-! ### The polls of WAIT -/

/-- The state after WAIT: one poll read 0x01 for each cycle of the BUSY time, and the last read the STATUS of the command
(30_encoding.md R97, 70_reset_and_hazards.md R345). -/
def State.waited (s : State) (rest : List Transaction) : State :=
  { s with bus := rest, busy := 0, reads := s.status :: (List.replicate s.busy 0x01 ++ s.reads) }

@[simp] theorem reg_waited (s : State) (rest : List Transaction) (q : Reg) : (s.waited rest).reg q = s.reg q := by
  cases q <;> rfl

/-- A poll while BUSY = 1 reads 0x01 and takes one cycle; WAIT goes on. -/
theorem step_wait_busy {s : State} {rest : List Transaction} {k : Nat} (hk : s.busy = k + 1)
    (hbus : s.bus = .wait :: rest) : step s = .next { s with busy := k, reads := 0x01 :: s.reads } := by
  have hview : s.statusView = 0x01 := if_neg (by omega)
  have hdone : ¬ doneBit s.statusView = true := by rw [hview]; decide
  have hread : busRead statusAddr s = { s with reads := s.statusView :: s.reads } := rfl
  refine step_done ((hostAccess_status rfl hbus).trans ((if_neg hdone).trans ?_))
  rw [hread, hview, State.tick, hk, Nat.add_sub_cancel]

/-- The poll that reads DONE = 1 ends WAIT. -/
theorem step_wait_done {s : State} {rest : List Transaction} (hk : s.busy = 0) (hbus : s.bus = .wait :: rest)
    (hdone : doneBit s.status = true) : step s = .next (s.waited rest) := by
  have hview : s.statusView = s.status := if_pos hk
  refine step_done ((hostAccess_status rfl hbus).trans ((if_pos (hview ▸ hdone)).trans ?_))
  have hread : busRead statusAddr { s with bus := rest } = { s with bus := rest, reads := s.statusView :: s.reads } := rfl
  rw [hread, hview, State.tick, State.waited, hk]
  rfl

theorem run_succ {s u : State} (h : step s = .next u) (k : Nat) :
    Host.Core.run core (k + 1) s = Host.Core.run core k u := by
  simp only [Host.Core.run, show core.step s = .next u from h]

/-- WAIT ENDS AFTER THE BUSY TIME: that many polls and one more (R97, R350). -/
theorem run_wait {s : State} {rest : List Transaction} (hbus : s.bus = .wait :: rest)
    (hdone : doneBit s.status = true) : Host.Core.run core (s.busy + 1) s = .next (s.waited rest) := by
  induction hk : s.busy generalizing s with
  | zero => rw [run_succ (step_wait_done hk hbus hdone)]; rfl
  | succ k ih =>
    rw [run_succ (step_wait_busy hk hbus),
      ih (s := { s with busy := k, reads := 0x01 :: s.reads }) hbus hdone rfl]
    simp [State.waited, hk, List.replicate_succ']

/-! ### The command before it -/

theorem doneBit_statusDone : doneBit statusDone = true := by decide
theorem doneBit_statusFault : doneBit statusFault = true := by decide

theorem doneBit_status_exec {i : Instr} {s u : State} (h : exec i s = .next u) : doneBit u.status = true := by
  rcases exec_next_cases h with ⟨ws, -, rfl⟩ | ⟨c, -, rfl⟩
  · exact doneBit_statusDone
  · exact doneBit_statusFault

/-- The write of any byte to CMD ends in one step, in a command or in the fault of a reserved one: with DONE = 1 in the
record, the host's side as the issue leaves it, and, under another latency, in the same state but for that
(R91, R94, R350). -/
theorem step_cmd_completes {s : State} {v : Byte} {rest : List Transaction} (hb : s.busy = 0)
    (hbus : s.bus = .write 0x002 v :: rest) :
    ∃ u, step s = .next u ∧ doneBit u.status = true ∧ SameBus (State.issued { s with bus := rest } v) u ∧
      ∀ k ls, step { s with latencies := k :: ls } = .next (u.retimed k ls) := by
  rcases decode_cases v with ⟨i, hd, -⟩ | hd
  · obtain ⟨u, hu, -⟩ := exec_retimed 0 [] (State.issued { s with bus := rest } v) i
    refine ⟨u, (step_cmd hb hbus hd).trans hu, doneBit_status_exec hu, (exec_frame hu).2.2, fun k ls => ?_⟩
    obtain ⟨u', hu', hretimed⟩ := exec_retimed k ls (State.issued { s with bus := rest } v) i
    rw [hu] at hu'
    cases hu'
    exact (step_cmd (s := { s with latencies := k :: ls }) hb hbus hd).trans hretimed
  · exact ⟨_, step_cmd_reserved hb hbus hd, doneBit_statusFault, ⟨rfl, rfl, rfl, rfl, rfl⟩, fun k ls =>
      step_cmd_reserved (s := { s with latencies := k :: ls }) hb hbus hd⟩

end Sys2Proof.Machine

open Sys2Proof Sys2Proof.Machine

/-- Settles O8: the write is one step, which leaves WAIT the latency's polls and one more; another latency changes the
number of polls alone. -/
theorem commandThenWaitCompletes : Obligations.CommandThenWaitCompletes := by
  intro s v rest k ls hb hlat hbus
  obtain ⟨u, hstep, hdone, ⟨hubus, hureads, hudraws, hubusy, hulat⟩, hretimed⟩ := step_cmd_completes hb hbus
  have hbusy : u.busy = k := by simp [hubusy, hlat]
  have hlats : u.latencies = ls := by simp [hulat, hlat]
  have hreads : u.reads = s.reads := hureads
  have hdraws : u.draws = s.draws := hudraws
  have hwait : u.bus = .wait :: rest := hubus
  have hrun : Host.Core.run core (k + 2) s = .next (u.waited rest) := by
    rw [run_succ hstep, ← hbusy, run_wait hwait hdone]
  refine ⟨u, u.waited rest, hstep, hrun, by simp, rfl, rfl, rfl, hlats, hdraws, ?_, fun k' ls' => ?_⟩
  · rw [← hbusy, ← hreads]
    rfl
  · refine ⟨(u.retimed k' ls').waited rest, ?_, by simp [reg_retimed], rfl, rfl, rfl, rfl⟩
    rw [run_succ (hretimed k' ls')]
    exact run_wait (s := u.retimed k' ls') hwait hdone
end

section
/-! SUPPORT. What the system commands rest on: the success record as fields, the registers SRESET clears, and the commands
that check T, which fault while it is 0 (43_codec.md R191). -/

namespace Sys2Proof.Machine

theorem complete_eq (s : State) : complete s = { s with status := 0x02, cause := 0x00 } := rfl

theorem exec_nop (s : State) : exec .nop s = .next (complete s) := rfl

theorem exec_sreset (s : State) : exec .sreset s = .next (complete (clearRegisters s)) := rfl

@[simp] theorem reg_clearRegisters (s : State) (r : Reg) :
    (clearRegisters s).reg r = if r = .cmd then s.reg .cmd else 0x00 := by cases r <;> rfl

theorem gdiv_fault {x y : Byte} (hx : x ≠ 0x00) (hy : y = 0x00) : gdiv x y = .error .divisionByZero := by
  rw [gdiv, if_neg hx, if_pos hy]

theorem afterT_fault {s : State} (h : s.count .t = 0) (ws : Except Cause (List Write)) :
    afterT s ws = .error .configurationError := if_pos h

/-- The commands that check T before anything else (43_codec.md R191, 60_exceptions.md R302): all of the codec and the
decoder but POSITIONS, which reads no T (44_decoder.md R227; log entry 11). -/
def commandsCheckingT : List Instr :=
  [.genpoly, .encode, .syndromes, .check, .strip, .locator, .magnitudes, .repair, .decode]

/-- What checking T first means for a commit: whatever else the command would do comes after the check. -/
theorem commits_of_checkingT {i : Instr} (hi : i ∈ commandsCheckingT) (s : State) :
    ∃ ws, commits i s = afterT s ws := by
  cases i with
  | genpoly | encode | syndromes | check | strip | locator | magnitudes | repair | decode => exact ⟨_, rfl⟩
  | nop | sreset | fadd | fmul | fdiv | finv | fpow | fexp | flog | peval | pcoef | pscale | padd | pmul | pdiv | pderiv
  | positions => simp [commandsCheckingT] at hi

/-- While T is 0 every command that checks T faults with CONFIGURATION_ERROR (R191). -/
theorem exec_unconfigured {i : Instr} (hi : i ∈ commandsCheckingT) {s : State} (ht : s.count .t = 0) :
    exec i s = .next (raise .configurationError s) := by
  obtain ⟨ws, hws⟩ := commits_of_checkingT hi s
  exact exec_of_commits_error (hws.trans (afterT_fault ht ws))

end Sys2Proof.Machine
end

section
/-! PROOF. O17, O18: the system commands. -/

open Sys2Proof Sys2Proof.Machine

/-- Settles O18: SRESET is the success of the cleared registers; T is one of them, so every check of T fails after it. -/
theorem sresetResult : Obligations.SresetResult := by
  refine ⟨rfl, fun s => ⟨complete (clearRegisters s), exec_sreset s, rfl, by simp, fun r hcmd hstatus => ?_, rfl,
    ⟨rfl, rfl, rfl, rfl, rfl⟩, fun i hi => ?_⟩⟩
  · simp [hcmd, hstatus, causeNone]
  · have ht : (complete (clearRegisters s)).count .t = 0 := rfl
    exact ⟨_, exec_unconfigured hi ht, raise_faultsWith .configurationError _⟩

/-- Settles O17: NOP is the success record alone, over the record of a division by zero too. -/
theorem nopResult : Obligations.NopResult := by
  refine ⟨rfl, exec_nop, fun s u hb ha hu => ?_⟩
  have hfault : commits .fdiv s = .error .divisionByZero := by rw [commits, gdiv_fault ha hb]; rfl
  cases (exec_of_commits_error hfault).symm.trans hu
  exact ⟨rfl, rfl, exec_nop _⟩
end

section
/-! SUPPORT. The EXP and LOG data follow their construction (41_field.md R131 to R133): EXP lists the powers of the
generator, each the `xtime` of the one before, and LOG is its inverse. -/

namespace Sys2Proof.Machine

/-! ### The generator's multiplication -/

/-- The shift within 8 bits, then 0x1D if bit 7 was set (R131). -/
theorem toNat_xtime (v : Byte) : (xtime v).toNat = (2 * v.toNat) % 256 ^^^ (if 128 ≤ v.toNat then 0x1D else 0) := by
  rw [xtime, BitVec.toNat_xor, BitVec.toNat_shiftLeft, Nat.shiftLeft_eq, Nat.mul_comm]
  by_cases h : v.toNat < 128
  · rw [if_pos h, if_neg (by omega)]
    rfl
  · rw [if_neg h, if_pos (by omega)]
    rfl

/-- The same as the 9-bit value reduced by 0x11D (R131): the bit shifted out is cancelled; checked byte by byte. -/
theorem toNat_xtime_reduced : ∀ v : Byte, (xtime v).toNat = 2 * v.toNat ^^^ (if 128 ≤ v.toNat then 0x11D else 0) := by
  decide +kernel

theorem toNat_lt_128_iff (v : Byte) : v.toNat < 128 ↔ v.msb = false := by simp [BitVec.msb_eq_decide]

theorem xtime_eq (v : Byte) : xtime v = (v <<< 1) ^^^ (if v.msb then 0x1D else 0x00) := by
  cases hv : v.msb <;> simp [xtime, toNat_lt_128_iff, hv]

/-- Multiplication by the generator is additive: so are the shift, and the bit that decides the reduction. -/
theorem xtime_gadd (x y : Byte) : xtime (gadd x y) = gadd (xtime x) (xtime y) := by
  have hreduce : ∀ b c : Bool, (if b ^^ c then 0x1D else 0x00 : Byte) =
      (if b then 0x1D else 0x00) ^^^ (if c then 0x1D else 0x00) := by decide
  rw [gadd_eq, gadd_eq, xtime_eq, xtime_eq, xtime_eq, BitVec.msb_xor, BitVec.shiftLeft_xor_distrib, hreduce]
  ac_rfl

theorem xtime_iterate_gadd (n : Nat) (x y : Byte) : xtime^[n] (gadd x y) = gadd (xtime^[n] x) (xtime^[n] y) := by
  induction n with
  | zero => rfl
  | succ n ih => simp only [Function.iterate_succ_apply', ih, xtime_gadd]

theorem xtime_iterate_zero (n : Nat) : xtime^[n] 0x00 = 0x00 := Function.iterate_fixed (by rfl) n

/-! ### The tables, entry by entry -/

theorem expTable_succ : ∀ i < 254, expTable (i + 1) = xtime (expTable i) := by decide +kernel

theorem expTable_ne_zero : ∀ i < 255, expTable i ≠ 0x00 := by decide +kernel

theorem logTable_expTable : ∀ i < 255, logTable (expTable i) = i := by decide +kernel

/-! ### The powers of the generator -/

theorem gexp_of_lt {i : Nat} (h : i < 255) : gexp i = expTable i := congrArg expTable (Nat.mod_eq_of_lt h)

theorem gexp_congr {i j : Nat} (h : i % 255 = j % 255) : gexp i = gexp j := congrArg expTable h

theorem gexp_ne_zero (i : Nat) : gexp i ≠ 0x00 := expTable_ne_zero _ (Nat.mod_lt _ (by decide))

theorem logTable_gexp (i : Nat) : logTable (gexp i) = i % 255 := logTable_expTable _ (Nat.mod_lt _ (by decide))

theorem gexp_logTable {x : Byte} (hx : x ≠ 0x00) : gexp (logTable x) = x := by
  obtain ⟨hle, hexp⟩ := expTable_logTable x hx
  rw [gexp_of_lt (by omega), hexp]

/-- A byte is zero or a power of the generator (R132). -/
theorem eq_zero_or_eq_gexp (x : Byte) : x = 0x00 ∨ ∃ i, x = gexp i := by
  by_cases hx : x = 0x00
  · exact .inl hx
  · exact .inr ⟨_, (gexp_logTable hx).symm⟩

/-- The next power is the `xtime` of the last, past index 254 too, where the table starts again. -/
theorem gexp_succ (i : Nat) : gexp (i + 1) = xtime (gexp i) := by
  have hmod : i % 255 < 255 := Nat.mod_lt _ (by decide)
  rw [show gexp (i + 1) = gexp (i % 255 + 1) from gexp_congr (by omega), show gexp i = expTable (i % 255) from rfl]
  by_cases h : i % 255 = 254
  · rw [h]
    decide
  · rw [gexp_of_lt (by omega), expTable_succ _ (by omega)]

theorem gexp_add (i j : Nat) : gexp (i + j) = xtime^[i] (gexp j) := by
  induction i with
  | zero => simp
  | succ i ih => rw [Function.iterate_succ_apply', ← ih, ← gexp_succ, Nat.add_right_comm]

end Sys2Proof.Machine
end

section
/-! SUPPORT. The laws of the field functions (41_field.md R134 to R140, R149). Multiplication by a power of the generator is
so many `xtime` steps; it is additive because `xtime` is, and the product is the carryless one because a byte is the sum of
the powers its bits stand for. -/

namespace Sys2Proof.Machine

/-! ### The product -/

theorem gmul_gexp (i j : Nat) : gmul (gexp i) (gexp j) = gexp (i + j) := by
  rw [gmul, if_neg (gexp_ne_zero i), if_neg (gexp_ne_zero j), logTable_gexp, logTable_gexp]
  exact gexp_congr (Nat.add_mod i j 255).symm

theorem gexp_gmul (i : Nat) (y : Byte) : gmul (gexp i) y = xtime^[i] y := by
  rcases eq_zero_or_eq_gexp y with rfl | ⟨j, rfl⟩
  · rw [gmul_zero, xtime_iterate_zero]
  · rw [gmul_gexp, gexp_add]

theorem gmul_comm (x y : Byte) : gmul x y = gmul y x := by
  rcases eq_zero_or_eq_gexp x with rfl | ⟨i, rfl⟩
  · rw [zero_gmul, gmul_zero]
  rcases eq_zero_or_eq_gexp y with rfl | ⟨j, rfl⟩
  · rw [zero_gmul, gmul_zero]
  rw [gmul_gexp, gmul_gexp, Nat.add_comm]

theorem gmul_assoc (x y z : Byte) : gmul (gmul x y) z = gmul x (gmul y z) := by
  rcases eq_zero_or_eq_gexp x with rfl | ⟨i, rfl⟩
  · simp only [zero_gmul]
  rcases eq_zero_or_eq_gexp y with rfl | ⟨j, rfl⟩
  · simp only [zero_gmul, gmul_zero]
  rw [gmul_gexp, gexp_gmul, gexp_gmul, gexp_gmul, Function.iterate_add_apply]

@[simp] theorem one_gmul (x : Byte) : gmul 0x01 x = x := gexp_gmul 0 x

@[simp] theorem gmul_one (x : Byte) : gmul x 0x01 = x := by rw [gmul_comm, one_gmul]

theorem gmul_gadd (x y z : Byte) : gmul x (gadd y z) = gadd (gmul x y) (gmul x z) := by
  rcases eq_zero_or_eq_gexp x with rfl | ⟨i, rfl⟩
  · simp only [zero_gmul, gadd_zero]
  · simp only [gexp_gmul, xtime_iterate_gadd]

theorem gmul_xorSum (x : Byte) (n : Nat) (f : Nat → Byte) :
    gmul x (xorSum n f) = xorSum n (fun j => gmul x (f j)) := by
  induction n with
  | zero => exact gmul_zero x
  | succ n ih => rw [xorSum_succ, xorSum_succ, gmul_gadd, ih]

/-! ### The product without tables -/

/-- A byte is the sum of the powers of the generator that its bits stand for (R130). -/
theorem one_carrylessProduct : ∀ y : Byte, carrylessProduct 0x01 y = y := by decide +kernel

/-- Multiplication by z^i is `i` steps of `xtime`. -/
theorem gmul_xtime_iterate_one (x : Byte) (i : Nat) : gmul x (xtime^[i] 0x01) = xtime^[i] x := by
  rw [← gexp_gmul, gmul_one, gmul_comm, gexp_gmul]

/-- THE PRODUCT READ FROM THE TABLES IS THE CARRYLESS ONE (R149): distribute `x` over the bits of `y`. -/
theorem gmul_eq_carrylessProduct (x y : Byte) : gmul x y = carrylessProduct x y := by
  calc gmul x y = gmul x (carrylessProduct 0x01 y) := by rw [one_carrylessProduct]
    _ = xorSum 8 (fun i => gmul x (if y.getLsbD i then xtime^[i] 0x01 else 0x00)) := gmul_xorSum ..
    _ = carrylessProduct x y := xorSum_congr fun i _ => by
      rw [apply_ite (gmul x), gmul_xtime_iterate_one, gmul_zero]

/-! ### Sum, inverse, quotient, power -/

theorem gadd_comm (x y : Byte) : gadd x y = gadd y x := BitVec.xor_comm x y

theorem gadd_assoc (x y z : Byte) : gadd (gadd x y) z = gadd x (gadd y z) := BitVec.xor_assoc x y z

@[simp] theorem gadd_self (x : Byte) : gadd x x = 0x00 := BitVec.xor_self

theorem ginv_ok {x : Byte} (hx : x ≠ 0x00) : ginv x = .ok (ginvOf x) := if_neg hx

theorem ginvOf_eq_gexp (x : Byte) : ginvOf x = gexp (255 - logTable x) := rfl

theorem ginvOf_ne_zero (x : Byte) : ginvOf x ≠ 0x00 := gexp_ne_zero _

theorem gmul_ginvOf {x : Byte} (hx : x ≠ 0x00) : gmul x (ginvOf x) = 0x01 := by
  have hle := (expTable_logTable x hx).1
  calc gmul x (ginvOf x) = gmul (gexp (logTable x)) (gexp (255 - logTable x)) := by
        rw [gexp_logTable hx, ginvOf_eq_gexp]
    _ = gexp 255 := by rw [gmul_gexp, Nat.add_sub_cancel' (by omega)]
    _ = 0x01 := by rfl

/-- The only inverse of `x`, on either side, is `ginvOf x`. -/
theorem eq_ginvOf_of_gmul_eq_one {x z : Byte} (hx : x ≠ 0x00) (h : gmul x z = 0x01) : z = ginvOf x := by
  rw [← one_gmul z, ← gmul_ginvOf hx, gmul_comm x, gmul_assoc, h, gmul_one]

theorem ginvOf_ginvOf {x : Byte} (hx : x ≠ 0x00) : ginvOf (ginvOf x) = x :=
  (eq_ginvOf_of_gmul_eq_one (ginvOf_ne_zero x) (by rw [gmul_comm, gmul_ginvOf hx])).symm

/-- The quotient is the product with the inverse (R136, R137). -/
theorem gquot_eq_gmul_ginvOf {x y : Byte} (hx : x ≠ 0x00) (hy : y ≠ 0x00) : gquot x y = gmul x (ginvOf y) := by
  have hle := (expTable_logTable y hy).1
  calc gquot x y = gexp (logTable x + 255 - logTable y) := if_neg hx
    _ = gmul (gexp (logTable x)) (gexp (255 - logTable y)) := by rw [gmul_gexp, Nat.add_sub_assoc (by omega)]
    _ = gmul x (ginvOf y) := by rw [gexp_logTable hx, ginvOf_eq_gexp]

theorem gdiv_ok {x y : Byte} (hx : x ≠ 0x00) (hy : y ≠ 0x00) : gdiv x y = .ok (gmul x (ginvOf y)) := by
  rw [gdiv, if_neg hx, if_neg hy, gquot_eq_gmul_ginvOf hx hy]

theorem zero_gpow (p : Nat) : gpow 0x00 p = if p = 0 then 0x01 else 0x00 := rfl

theorem gpow_zero (x : Byte) : gpow x 0 = 0x01 := by
  by_cases hx : x = 0x00
  · rw [hx, zero_gpow, if_pos rfl]
  · rw [gpow, if_neg hx, Nat.mul_zero]
    rfl

theorem gpow_of_ne_zero {x : Byte} (hx : x ≠ 0x00) (p : Nat) : gpow x p = gexp (logTable x * p) := if_neg hx

theorem gpow_succ (x : Byte) (p : Nat) : gpow x (p + 1) = gmul x (gpow x p) := by
  by_cases hx : x = 0x00
  · rw [hx, zero_gmul, zero_gpow, if_neg p.succ_ne_zero]
  · calc gpow x (p + 1) = gexp (logTable x + logTable x * p) := by
          rw [gpow_of_ne_zero hx, Nat.mul_succ, Nat.add_comm]
      _ = gmul x (gpow x p) := by rw [← gmul_gexp, gexp_logTable hx, gpow_of_ne_zero hx]

/-- The power read from the tables is the repeated product (R138). -/
theorem gpow_eq_repeatedProduct (x : Byte) (p : Nat) : gpow x p = repeatedProduct x p := by
  induction p with
  | zero => exact gpow_zero x
  | succ p ih => rw [gpow_succ, ih, repeatedProduct, repeatedProduct, Function.iterate_succ_apply']

/-- The generator's power by its own table entry and by `gpow` (R139). -/
theorem gpow_generator (p : Nat) : gpow 0x02 p = gexp p := by
  rw [gpow_of_ne_zero (by decide), show logTable 0x02 = 1 from rfl, Nat.one_mul]

end Sys2Proof.Machine
end

section
/-! SUPPORT. How a command ends whose one result goes to Y, and how one ends that faults (30_encoding.md R91, R93;
60_exceptions.md R301). -/

namespace Sys2Proof.Machine

/-- A command that commits `v` to Y succeeds, writes nothing else, and leaves `v` there. -/
theorem exec_of_commits_writesY {i : Instr} {s : State} {v : Byte} (h : commits i s = .ok (writesY v)) :
    ∃ u, exec i s = .next u ∧ Succeeds [.y] [] s u ∧ u.reg .y = v :=
  ⟨_, exec_of_commits_ok h, ((Frame.refl [.y] [] s).setReg (r := .y) (by simp) v).succeeds, rfl⟩

/-- A command that commits a cause faults with its code. -/
theorem exec_faultsWith {i : Instr} {s : State} {c : Cause} (h : commits i s = .error c) :
    ∃ u, exec i s = .next u ∧ FaultsWith c.code s u := ⟨_, exec_of_commits_error h, raise_faultsWith c s⟩

end Sys2Proof.Machine
end

section
/-! PROOF. O19, O20: the tables and the field. -/

open Sys2Proof Sys2Proof.Machine

/-- Settles O19: the rules hold entry by entry of the data; EXP holds every nonzero byte once because LOG is its inverse. -/
theorem tablesFollowConstruction : Obligations.TablesFollowConstruction := by
  refine ⟨toNat_xtime, toNat_xtime_reduced, rfl, expTable_succ, fun v hv => ?_, expTable_ne_zero, logTable_expTable,
    expTable_logTable, fun i => rfl, rfl, rfl, rfl, rfl⟩
  obtain ⟨hle, hexp⟩ := expTable_logTable v hv
  refine ⟨logTable v, ⟨by omega, hexp⟩, fun i ⟨hi, hiv⟩ => ?_⟩
  rw [← hiv, logTable_expTable i hi]

/-- Settles O20: the laws of the sum are those of XOR; those of the product come from the powers of the generator. -/
theorem fieldLaws : Obligations.FieldLaws :=
  ⟨fun x y => ⟨gadd_comm x y, gmul_comm x y⟩,
    fun x y z => ⟨gadd_assoc x y z, gmul_assoc x y z, gmul_gadd x y z⟩,
    fun x => ⟨gadd_zero x, gmul_one x, gadd_self x⟩,
    fun x hx => ⟨ginvOf x, ginv_ok hx, gmul_ginvOf hx⟩,
    gmul_eq_carrylessProduct⟩
end

section
/-! PROOF. O21 to O27: the field commands. -/

open Sys2Proof Sys2Proof.Machine

/-- Settles O21: FADD commits the sum to Y. -/
theorem faddResult : Obligations.FaddResult := by
  refine ⟨rfl, rfl, fun s => ?_⟩
  obtain ⟨u, hexec, hsucc, hy⟩ := exec_of_commits_writesY (i := .fadd) (s := s) rfl
  refine ⟨u, hexec, hsucc, hy, fun h => ?_, fun h => ?_, fun ha hb => ?_⟩
  · rw [hy, h, gadd_self]
  · rw [hy, h, gadd_zero]
  · rw [hy, ha, hb]
    rfl

/-- Settles O22: FMUL commits the product to Y, which is the carryless one. -/
theorem fmulResult : Obligations.FmulResult := by
  refine ⟨rfl, fun s => ?_⟩
  obtain ⟨u, hexec, hsucc, hy⟩ := exec_of_commits_writesY (i := .fmul) (s := s) rfl
  refine ⟨u, hexec, hsucc, hy, hy.trans (gmul_eq_carrylessProduct _ _), ?_, fun h => ?_, ?_⟩
  · rintro (h | h)
    · rw [hy, h, zero_gmul]
    · rw [hy, h, gmul_zero]
  · rw [hy, h, one_gmul]
  · refine ⟨fun ha hb => ?_, fun ha hb => ?_, fun ha hb => ?_⟩
    all_goals
      rw [hy, ha, hb]
      rfl

/-- Settles O23: the test for A = 0 comes first; else the quotient is the product with the inverse of B, or B is 0. -/
theorem fdivResult : Obligations.FdivResult := by
  refine ⟨rfl, fun s => ⟨fun ha => ?_, fun ha hb => ?_, fun ha hb => ?_⟩⟩
  · exact exec_of_commits_writesY (by rw [commits, gdiv, if_pos ha]; rfl)
  · obtain ⟨u, hexec, hsucc, hy⟩ := exec_of_commits_writesY (i := .fdiv) (s := s) (by rw [commits, gdiv_ok ha hb]; rfl)
    refine ⟨u, hexec, hsucc, ?_, fun h => ?_, fun h1 h2 => ?_⟩
    · rw [hy, gmul_assoc, gmul_comm (ginvOf _), gmul_ginvOf hb, gmul_one]
    · rw [hy, h, gmul_ginvOf hb]
    · rw [hy, h1, h2]
      rfl
  · exact exec_faultsWith (c := .divisionByZero) (by rw [commits, gdiv_fault ha hb]; rfl)

/-- Settles O24: FINV commits the inverse, of which A is the inverse again, or A is 0. -/
theorem finvResult : Obligations.FinvResult := by
  refine ⟨rfl, fun s => ⟨fun ha => ?_, fun ha => ?_⟩⟩
  · obtain ⟨u, hexec, hsucc, hy⟩ := exec_of_commits_writesY (i := .finv) (s := s) (by rw [commits, ginv_ok ha]; rfl)
    refine ⟨u, hexec, hsucc, ?_, ?_, ?_, ?_⟩
    · rw [hy, ginv_ok ha]
    · rw [hy, gmul_ginvOf ha]
    · rw [hy, ginv_ok (ginvOf_ne_zero _), ginvOf_ginvOf ha]
    · refine ⟨fun h => ?_, fun h => ?_, fun h => ?_⟩
      all_goals
        rw [hy, h]
        rfl
  · exact exec_faultsWith (c := .divisionByZero) (by rw [commits, ginv, if_pos ha]; rfl)

/-- Settles O25: FPOW commits the power, which is the repeated product; the 255th power of a nonzero A is 1 because the
index is formed modulo 255. -/
theorem fpowResult : Obligations.FpowResult := by
  refine ⟨rfl, fun s => ?_⟩
  obtain ⟨u, hexec, hsucc, hy⟩ := exec_of_commits_writesY (i := .fpow) (s := s) rfl
  refine ⟨u, hexec, hsucc, hy, hy.trans (gpow_eq_repeatedProduct _ _), fun hpw => ?_, fun ha hpw => ?_, fun hpw ha => ?_,
    fun ha => hy.trans (gpow_of_ne_zero ha _), fun ha hpw => ?_, fun ha hpw => ?_⟩
  · rw [hy, State.count, hpw]
    exact gpow_zero _
  · rw [hy, ha, zero_gpow, if_neg (by omega)]
  · rw [hy, hpw, gpow_of_ne_zero ha]
    exact gexp_congr (j := 0) (by omega)
  · rw [hy, ha, hpw]
    rfl
  · rw [hy, ha, hpw]
    rfl

/-- Settles O26: FEXP commits the generator's power. -/
theorem fexpResult : Obligations.FexpResult := by
  refine ⟨rfl, fun s => ?_⟩
  obtain ⟨u, hexec, hsucc, hy⟩ := exec_of_commits_writesY (i := .fexp) (s := s) rfl
  refine ⟨u, hexec, hsucc, hy, ?_, ?_⟩
  · rw [hy, ← gpow_generator, gpow_eq_repeatedProduct]
  · refine ⟨fun h => ?_, fun h => ?_, fun h => ?_, fun h => ?_⟩
    all_goals
      rw [hy, h]
      rfl

/-- Settles O27: FLOG commits the table's logarithm, which is below 255 and so fits Y, or A is 0. -/
theorem flogResult : Obligations.FlogResult := by
  refine ⟨rfl, fun s => ⟨fun ha => ?_, fun ha => ?_⟩⟩
  · have hle := (expTable_logTable _ ha).1
    obtain ⟨u, hexec, hsucc, hy⟩ := exec_of_commits_writesY (i := .flog) (s := s) (by rw [commits, glog, if_neg ha]; rfl)
    obtain ⟨hexp, hne⟩ := gexp_logByte ha
    refine ⟨u, hexec, hsucc, ?_, ?_, ?_, ?_⟩
    · rw [hy, toNat_countByte (by omega)]
    · rw [hy, countByte, hexp]
    · rwa [hy]
    · refine ⟨fun h => ?_, fun h => ?_, fun h => ?_⟩
      all_goals
        rw [hy, h]
        rfl
  · exact exec_faultsWith (c := .logOfZero) (by rw [commits, glog, if_pos ha]; rfl)
end

section
/-! SUPPORT. Polynomials by their coefficients (42_poly.md R160 to R166): what each polynomial function does to the
coefficient of x^j, and Horner's rule as the sum of the terms. -/

namespace Sys2Proof.Machine

/-! ### Sums -/

theorem xorSum_const_zero (n : Nat) : xorSum n (fun _ => 0x00) = 0x00 := by
  induction n with
  | zero => rfl
  | succ n ih => rw [xorSum_succ, ih, gadd_zero]

/-- A sum with one term that counts is that term. -/
theorem xorSum_ite_eq (n m : Nat) (f : Nat → Byte) :
    xorSum n (fun j => if j = m then f j else 0x00) = if m < n then f m else 0x00 := by
  induction n with
  | zero => rfl
  | succ n ih =>
    rw [xorSum_succ, ih]
    rcases lt_trichotomy m n with h | rfl | h
    · rw [if_pos h, if_neg (by omega), if_pos (by omega), gadd_zero]
    · rw [if_neg (by omega), if_pos rfl, if_pos (by omega), zero_gadd]
    · rw [if_neg (by omega), if_neg (by omega), if_neg (by omega), gadd_zero]

/-! ### Coefficients, function by function -/

/-- Joined arrays: the second holds the low-order coefficients, the first those above. -/
theorem coef_append (p q : Poly) (j : Nat) :
    coef (p ++ q) j = if j < q.length then coef q j else coef p (j - q.length) := by
  induction p with
  | nil =>
    rw [List.nil_append, coef_nil]
    split_ifs with h
    · rfl
    · exact coef_of_length_le (by omega)
  | cons c p ih =>
    rw [List.cons_append, coef_cons, coef_cons, ih, List.length_append]
    by_cases hj : j < q.length
    · rw [if_neg (by omega), if_pos hj, if_pos hj]
    · rw [if_neg hj, if_neg hj]
      exact if_congr (by omega) rfl rfl

theorem coef_replicate_zero (n j : Nat) : coef (List.replicate n 0x00) j = 0x00 := by
  induction n with
  | zero => exact coef_nil j
  | succ n ih => rw [List.replicate_succ, coef_cons, ih, ite_self]

theorem pscale_cons (c : Byte) (p : Poly) (x : Byte) : pscale (c :: p) x = gmul c x :: pscale p x := rfl

theorem getD_pscale (p : Poly) (x : Byte) (i : Nat) : (pscale p x).getD i 0x00 = gmul (p.getD i 0x00) x := by
  rw [← List.getD_map (f := (gmul · x)), zero_gmul]
  rfl

theorem coef_pscale (p : Poly) (x : Byte) (j : Nat) : coef (pscale p x) j = gmul (coef p j) x := by
  induction p with
  | nil => exact (zero_gmul x).symm
  | cons c p ih =>
    rw [pscale_cons, coef_cons, coef_cons, ih, length_pscale,
      apply_ite (gmul · x)]

/-- The coefficients of a sum are the sums of the coefficients (R162). -/
theorem coef_padd (p q : Poly) (j : Nat) : coef (padd p q) j = gadd (coef p j) (coef q j) := by
  refine (coef_map_range _ (fun j => gadd (coef p j) (coef q j)) j).trans ?_
  split_ifs with h
  · rfl
  · rw [coef_of_length_le (by omega), coef_of_length_le (by omega), gadd_zero]

/-- The coefficients of the formal derivative (R166): only those of odd exponents come down. -/
theorem coef_pderiv (p : Poly) (j : Nat) :
    coef (pderiv p) j = if j % 2 = 0 then coef p (j + 1) else 0x00 := by
  by_cases h : j < p.length - 1
  · have hi : p.length - 1 - 1 - j < p.length - 1 := by omega
    have hexp : p.length - 1 - (p.length - 1 - 1 - j) = j + 1 := by omega
    rw [coef_of_lt (by rwa [length_pderiv]), coef_of_lt (by omega), length_pderiv,
      show p.length - 1 - (j + 1) = p.length - 1 - 1 - j by omega]
    simp only [pderiv, List.getD_eq_getElem?_getD, List.getElem?_map, List.getElem?_range hi, Option.map_some,
      Option.getD_some, hexp]
    exact if_congr (by omega) rfl rfl
  · rw [coef_of_length_le (by rw [length_pderiv]; omega), coef_of_length_le (by omega), ite_self]

theorem addAt_nil (r : List Byte) : addAt 0 [] r = r := by cases r <;> rfl

/-- `addAt i xs r` is the sum of `r` and `xs` raised by the `d` entries of `r` that stand after it. -/
theorem coef_addAt {i d : Nat} {xs r : List Byte} (h : i + xs.length + d = r.length) (j : Nat) :
    coef (addAt i xs r) j = gadd (coef r j) (coef (xs ++ List.replicate d 0x00) j) := by
  induction r generalizing i xs with
  | nil =>
    rw [List.length_nil] at h
    rw [addAt, coef_nil, coef_of_length_le (by simp; omega), gadd_zero]
  | cons c r ih =>
    rw [List.length_cons] at h
    cases i with
    | zero => cases xs with
      | nil => rw [addAt_nil, List.nil_append, coef_replicate_zero, gadd_zero]
      | cons x xs =>
        rw [List.length_cons] at h
        have hlen : (xs ++ List.replicate d 0x00).length = r.length := by simp; omega
        rw [addAt, List.cons_append, coef_cons, coef_cons, coef_cons, length_addAt, hlen, ih (by omega)]
        split_ifs <;> rfl
    | succ i =>
      rw [addAt, coef_cons, coef_cons, length_addAt, ih (by omega)]
      split_ifs with hj
      · rw [coef_of_length_le (p := xs ++ _) (by simp; omega), gadd_zero]
      · rfl

/-! ### The product -/

@[simp] theorem nil_pcoefat (q : Poly) (k : Nat) : pcoefat [] q k = 0x00 := by
  simp only [pcoefat, coef_nil, zero_gmul, xorSum_const_zero]

@[simp] theorem pcoefat_nil (p : Poly) (k : Nat) : pcoefat p [] k = 0x00 := by
  simp only [pcoefat, coef_nil, gmul_zero, xorSum_const_zero]

/-- The convolution by the leading entry of its first operand: that entry times `q`, raised to its degree, and the
convolution with the rest. -/
theorem pcoefat_cons (c : Byte) (p q : Poly) (k : Nat) :
    pcoefat (c :: p) q k =
      gadd (coef (pscale q c ++ List.replicate p.length 0x00) k) (pcoefat p q k) := by
  have hterm (j : Nat) : gmul (coef (c :: p) j) (coef q (k - j)) =
      gadd (if j = p.length then gmul c (coef q (k - j)) else 0x00) (gmul (coef p j) (coef q (k - j))) := by
    rw [coef_cons]
    split_ifs with hj
    · rw [coef_of_length_le (p := p) (by omega), zero_gmul, gadd_zero]
    · rw [zero_gadd]
  have hlead : xorSum (k + 1) (fun j => if j = p.length then gmul c (coef q (k - j)) else 0x00) =
      coef (pscale q c ++ List.replicate p.length 0x00) k := by
    rw [xorSum_ite_eq (k + 1) p.length (fun j => gmul c (coef q (k - j))), coef_append, List.length_replicate,
      coef_replicate_zero, coef_pscale, gmul_comm c]
    by_cases hk : k < p.length
    · rw [if_neg (by omega), if_pos hk]
    · rw [if_pos (by omega), if_neg hk]
  simp only [pcoefat, hterm, xorSum_gadd, hlead]

theorem map_gmul_eq_pscale (q : Poly) (c : Byte) : q.map (fun d => gmul c d) = pscale q c :=
  List.map_congr_left fun d _ => gmul_comm c d

/-- The loops of the product add the convolution to the array they start from, which has room for it (R163). -/
theorem coef_pmulLoop {i : Nat} {p q r : Poly} (h : i + p.length + q.length = r.length + 1) (k : Nat) :
    coef (pmulLoop i p q r) k = gadd (coef r k) (pcoefat p q k) := by
  induction p generalizing i r with
  | nil => rw [pmulLoop, nil_pcoefat, gadd_zero]
  | cons c p ih =>
    rw [List.length_cons] at h
    rw [pmulLoop, map_gmul_eq_pscale, ih (by rw [length_addAt]; omega),
      coef_addAt (d := p.length) (by rw [length_pscale]; omega), pcoefat_cons, gadd_assoc]

/-- THE COEFFICIENTS OF THE FULL PRODUCT are those of the convolution rule (R163, R164). -/
theorem coef_pmul (p q : Poly) (k : Nat) : coef (pmul p q) k = pcoefat p q k := by
  unfold pmul
  split_ifs with h
  · rcases h with h | h
    · rw [List.length_eq_zero_iff.1 h, nil_pcoefat, coef_nil]
    · rw [List.length_eq_zero_iff.1 h, pcoefat_nil, coef_nil]
  · rw [coef_pmulLoop (by rw [List.length_replicate]; omega), coef_replicate_zero, zero_gadd]

/-! ### The division -/

theorem gmul_gquot (x : Byte) {y : Byte} (hy : y ≠ 0x00) : gmul y (gquot x y) = x := by
  by_cases hx : x = 0x00
  · rw [hx, zero_gquot, gmul_zero]
  · rw [gquot_eq_gmul_ginvOf hx hy, gmul_comm x, ← gmul_assoc, gmul_ginvOf hy, one_gmul]

/-- The array after a step of the division that stood on `c`, with `out` after it. -/
def pdivStep (q0 : Byte) (qs : Poly) (c : Byte) (out : Poly) : Poly := addAt 0 (pscale qs (gquot c q0)) out

theorem pdivLoop_cons (q0 : Byte) (qs : Poly) (n : Nat) (c : Byte) (out : Poly) :
    pdivLoop q0 qs (n + 1) (c :: out) =
      (gquot c q0 :: (pdivLoop q0 qs n (pdivStep q0 qs c out)).1, (pdivLoop q0 qs n (pdivStep q0 qs c out)).2) := rfl

@[simp] theorem length_pdivStep (q0 : Byte) (qs : Poly) (c : Byte) (out : Poly) :
    (pdivStep q0 qs c out).length = out.length := length_addAt ..

/-- One step of the division takes the divisor times the new quotient entry, raised to its degree, from the array: the
leading entries cancel. -/
theorem coef_pdivStep {q0 : Byte} (hq : q0 ≠ 0x00) {qs : Poly} {n : Nat} (c : Byte) {out : Poly}
    (h : out.length = n + qs.length) (j : Nat) :
    coef (c :: out) j =
      gadd (coef (pscale (q0 :: qs) (gquot c q0) ++ List.replicate n 0x00) j) (coef (pdivStep q0 qs c out) j) := by
  have hlen : (pscale qs (gquot c q0) ++ List.replicate n 0x00).length = out.length := by simp [h, Nat.add_comm]
  rw [pscale_cons, gmul_gquot c hq, List.cons_append, coef_cons, coef_cons, hlen, pdivStep,
    coef_addAt (d := n) (by rw [length_pscale]; omega)]
  split_ifs with hj
  · rw [coef_of_length_le (p := out) (by omega), coef_of_length_le (by omega), gadd_zero, gadd_zero]
  · rw [gadd_comm (coef out j), ← gadd_assoc, gadd_self, zero_gadd]

/-- The loop of the division keeps the dividend: the array it starts from is the product of the entries passed with the
divisor, and the entries left (R165). -/
theorem coef_pdivLoop {q0 : Byte} (hq : q0 ≠ 0x00) (qs : Poly) {n : Nat} {out : Poly}
    (h : n = out.length - qs.length) (j : Nat) :
    coef out j = gadd (pcoefat (pdivLoop q0 qs n out).1 (q0 :: qs) j) (coef (pdivLoop q0 qs n out).2 j) := by
  induction n generalizing out with
  | zero => rw [pdivLoop, nil_pcoefat, zero_gadd]
  | succ n ih =>
    cases out with
    | nil => simp at h
    | cons c out =>
      rw [List.length_cons] at h
      have hquot : (pdivLoop q0 qs n (pdivStep q0 qs c out)).1.length = n :=
        (length_pdivLoop q0 qs n _ (by rw [length_pdivStep]; omega)).1
      rw [pdivLoop_cons, pcoefat_cons, hquot, gadd_assoc, ← ih (by rw [length_pdivStep]; omega)]
      exact coef_pdivStep hq c (by omega) j

/-- PDIVMOD (R165): the dividend is quotient times divisor plus remainder, coefficient by coefficient. -/
theorem coef_pdivmod {p q : Poly} {d : Poly × Poly} (h : pdivmod p q = .ok d) (j : Nat) :
    coef p j = coef (padd (pmul d.1 q) d.2) j := by
  obtain ⟨hq, hlead, -⟩ := pdivmod_ok h
  cases q with
  | nil => exact absurd rfl hq
  | cons q0 qs =>
    have hq0 : q0 ≠ 0x00 := hlead
    have hloop := coef_pdivLoop hq0 qs (n := p.length + 1 - (qs.length + 1)) (out := p) (by omega) j
    have hleft := (length_pdivLoop q0 qs (p.length + 1 - (qs.length + 1)) p (by omega)).2
    rw [pdivmod_cons hq0] at h
    cases h
    rw [coef_padd, coef_pmul, hloop, coef_map_range]
    split_ifs with hj
    · rfl
    · rw [coef_of_length_le (p := Prod.snd _) (by omega)]

/-- An empty or zero-led divisor faults (R165). -/
theorem pdivmod_fault (p : Poly) {q : Poly} (h : q.getD 0 0x00 = 0x00) : pdivmod p q = .error .divisionByZero := by
  cases q with
  | nil => rfl
  | cons q0 qs => exact if_pos h

/-- Every other divisor divides (R165). -/
theorem exists_pdivmod_ok (p : Poly) {q : Poly} (h : q.getD 0 0x00 ≠ 0x00) : ∃ d, pdivmod p q = .ok d := by
  cases q with
  | nil => exact absurd rfl h
  | cons q0 qs => exact ⟨_, pdivmod_cons h p qs⟩

/-! ### The value -/

theorem gadd_gmul (x y z : Byte) : gmul (gadd x y) z = gadd (gmul x z) (gmul y z) := by
  rw [gmul_comm, gmul_gadd, gmul_comm z, gmul_comm z]

/-- Horner's rule from any accumulator. -/
theorem foldl_horner (p : Poly) (x acc : Byte) :
    p.foldl (fun acc c => gadd (gmul acc x) c) acc = gadd (gmul acc (gpow x p.length)) (peval p x) := by
  unfold peval
  induction p generalizing acc with
  | nil => rw [List.length_nil, gpow_zero, gmul_one]; exact (gadd_zero acc).symm
  | cons c p ih =>
    rw [List.foldl_cons, List.foldl_cons, ih, ih (gadd (gmul 0x00 x) c), zero_gmul, zero_gadd, gadd_gmul, gadd_assoc,
      gmul_assoc, ← gpow_succ, List.length_cons]

theorem peval_cons (c : Byte) (p : Poly) (x : Byte) :
    peval (c :: p) x = gadd (gmul c (gpow x p.length)) (peval p x) := by
  rw [peval, List.foldl_cons, foldl_horner, zero_gmul, zero_gadd]

/-- THE VALUE OF A POLYNOMIAL is the sum of its terms (R160). -/
theorem peval_eq_xorSum (p : Poly) (x : Byte) :
    peval p x = xorSum p.length (fun j => gmul (coef p j) (gpow x j)) := by
  induction p with
  | nil => rfl
  | cons c p ih =>
    have hlow : ∀ j < p.length, gmul (coef (c :: p) j) (gpow x j) = gmul (coef p j) (gpow x j) := fun j hj => by
      rw [coef_cons, if_neg (by omega)]
    rw [peval_cons, List.length_cons, xorSum_succ, xorSum_congr hlow, ← ih, coef_cons, if_pos rfl, gadd_comm]

/-- The value at 0 is the constant term. -/
theorem peval_at_zero (p : Poly) : peval p 0x00 = coef p 0 := by
  have hterm (j : Nat) : gmul (coef p j) (gpow 0x00 j) = if j = 0 then coef p j else 0x00 := by
    rw [zero_gpow, apply_ite (gmul _), gmul_one, gmul_zero]
  rw [peval_eq_xorSum]
  simp only [hterm, xorSum_ite_eq]
  split_ifs with h
  · rfl
  · exact (coef_of_length_le (by omega)).symm

/-- The value at 1 is the sum of all entries. -/
theorem peval_at_one (p : Poly) : peval p 0x01 = p.foldl gadd 0x00 := by
  simp only [peval, gmul_one]

end Sys2Proof.Machine
end

section
/-! SUPPORT. How a command ends whose result is a polynomial in R, and what the operands P and Q are
(30_encoding.md R93; 42_poly.md R174; 10_state.md R55). -/

namespace Sys2Proof.Machine

theorem count_le (s : State) (r : Reg) : s.count r ≤ 255 := Nat.le_of_lt_succ (count_lt s r)

/-- A command that commits a polynomial of at most 255 entries to R succeeds, writes nothing else, and leaves it there
with its length in LR. -/
theorem exec_of_commits_writesR {i : Instr} {s : State} {p : Poly} (h : commits i s = .ok (writesR p))
    (hp : p.length ≤ 255) :
    ∃ u, exec i s = .next u ∧ Succeeds [.lr] [.r] s u ∧ BufHolds u .r p ∧ u.count .lr = p.length := by
  refine ⟨_, exec_of_commits_ok h,
    (((Frame.refl [.lr] [.r] s).setBuf (b := .r) (by simp) p).setReg (r := .lr) (by simp) _).succeeds,
    ((bufHolds_setBuf s .r (by omega)).setReg .lr _).complete, ?_⟩
  exact toNat_countByte (by omega)

/-- A command that commits one polynomial to R and another to R2, both of at most 255 entries, succeeds, writes nothing
else, and leaves them there with their lengths. -/
theorem exec_of_commits_writesR_R2 {i : Instr} {s : State} {p q : Poly}
    (h : commits i s = .ok (writesR p ++ [.buf .r2 q, .reg .lr2 (countByte q.length)]))
    (hp : p.length ≤ 255) (hq : q.length ≤ 255) :
    ∃ u, exec i s = .next u ∧ Succeeds [.lr, .lr2] [.r, .r2] s u ∧ BufHolds u .r p ∧ BufHolds u .r2 q ∧
      u.count .lr = p.length ∧ u.count .lr2 = q.length := by
  have hframe : Frame [.lr, .lr2] [.r, .r2] s
      (s.commit (writesR p ++ [.buf .r2 q, .reg .lr2 (countByte q.length)])) :=
    (Frame.refl _ _ s).commit (by simp [writesR, writtenRegs]) (by simp [writesR, writtenBufs])
  refine ⟨_, exec_of_commits_ok h, hframe.succeeds,
    ((((bufHolds_setBuf s .r (by omega)).setReg .lr _).setBuf_other (by simp)).setReg .lr2 _).complete,
    ((bufHolds_setBuf _ .r2 (by omega)).setReg .lr2 _).complete, ?_, ?_⟩
  · exact toNat_countByte (by omega)
  · exact toNat_countByte (by omega)

/-- The coefficients of P are its entries, read from the low-order end (00_scope.md R15). -/
theorem coef_polyP (s : State) {j : Nat} (h : j < s.count .lp) :
    coef (polyP s) j = s.entry .p (s.count .lp - 1 - j) := by
  rw [coef_of_lt (by rwa [length_polyP]), length_polyP, polyP, getD_entries s .p (by omega)]

/-- The leading entry of Q, or 0x00 for an empty Q. -/
theorem polyQ_getD_zero (s : State) : (polyQ s).getD 0 0x00 = if s.count .lq = 0 then 0x00 else s.entry .q 0 := by
  split_ifs with h
  · rw [polyQ, h]
    rfl
  · exact getD_entries s .q (Nat.pos_of_ne_zero h)

theorem foldl_gadd_polyP (s : State) :
    (polyP s).foldl gadd 0x00 = xorSum (s.count .lp) (fun i => s.entry .p i) := List.foldl_map ..

end Sys2Proof.Machine
end

section
/-! PROOF. O28 to O34: the polynomial commands. -/

open Sys2Proof Sys2Proof.Machine

/-- Settles O28: PEVAL commits the value by Horner's rule, which is the sum of the terms. -/
theorem pevalResult : Obligations.PevalResult := by
  refine ⟨rfl, fun s => ?_⟩
  obtain ⟨u, hexec, hsucc, hy⟩ := exec_of_commits_writesY (i := .peval) (s := s) rfl
  refine ⟨u, hexec, hsucc, ?_, fun h => ?_, fun ha h => ?_, fun ha => ?_⟩
  · rw [hy, peval_eq_xorSum, length_polyP]
    exact xorSum_congr fun j hj => by rw [coef_polyP s hj]
  · rw [hy, List.length_eq_zero_iff.1 ((length_polyP s).trans h)]
    rfl
  · rw [hy, ha, peval_at_zero, coef_polyP s h, Nat.sub_zero]
  · rw [hy, ha, peval_at_one, foldl_gadd_polyP]

/-- Settles O29: PCOEF commits the convolution's coefficient, which is the product's. -/
theorem pcoefResult : Obligations.PcoefResult := by
  refine ⟨rfl, fun s => ?_⟩
  obtain ⟨u, hexec, hsucc, hy⟩ := exec_of_commits_writesY (i := .pcoef) (s := s) rfl
  have hcoef : u.reg .y = coef (pmul (polyP s) (polyQ s)) (s.count .kd) := hy.trans (coef_pmul ..).symm
  have hlen : (pmul (polyP s) (polyQ s)).length = _ := length_pmul ..
  rw [length_polyP, length_polyQ] at hlen
  refine ⟨u, hexec, hsucc, hcoef, fun h => ?_, fun h => ?_⟩
  · exact hcoef.trans (coef_of_length_le (by rw [hlen]; split_ifs <;> omega))
  · exact hcoef.trans (coef_of_length_le (by rw [hlen, if_pos h]; omega))

/-- Settles O30: PSCALE commits the products entry by entry, as many as P has. -/
theorem pscaleResult : Obligations.PscaleResult := by
  refine ⟨rfl, fun s => ?_⟩
  have hle := count_le s .lp
  obtain ⟨u, hexec, hsucc, ⟨-, hr⟩, hlr⟩ :=
    exec_of_commits_writesR (i := .pscale) (s := s) rfl (by simpa using hle)
  refine ⟨u, hexec, hsucc, ?_, fun i hi => ?_⟩
  · rw [length_pscale, length_polyP] at hlr
    exact BitVec.eq_of_toNat_eq hlr
  · rw [hr i hi, getD_pscale]
    split_ifs with h
    · rw [polyP, getD_entries s .p h]
    · rw [List.getD_eq_default _ _ (by simpa using h), zero_gmul]

/-- Settles O31: the sum's coefficients are the sums of the operands'. -/
theorem paddResult : Obligations.PaddResult := by
  refine ⟨rfl, rfl, fun s => ?_⟩
  have hp := count_le s .lp
  have hq := count_le s .lq
  have hlen : (padd (polyP s) (polyQ s)).length = max (s.count .lp) (s.count .lq) := by simp
  obtain ⟨u, hexec, hsucc, hr, hlr⟩ := exec_of_commits_writesR (i := .padd) (s := s) rfl (by omega)
  exact ⟨u, _, hexec, hsucc, hr, hlr, hlen, coef_padd _ _⟩

/-- Settles O32: the length check is the rule's, and the product's coefficients are the convolution's. -/
theorem pmulResult : Obligations.PmulResult := by
  refine ⟨rfl, fun s => ⟨fun h => ?_, fun h => ?_⟩⟩
  · exact exec_faultsWith (c := .lengthError) (by rw [commits, if_pos h])
  · have hlen : (pmul (polyP s) (polyQ s)).length = _ := length_pmul ..
    rw [length_polyP, length_polyQ] at hlen
    obtain ⟨u, hexec, hsucc, hr, hlr⟩ := exec_of_commits_writesR (i := .pmul) (s := s) (by rw [commits, if_neg h])
      (by rw [hlen]; split_ifs <;> omega)
    exact ⟨u, _, hexec, hsucc, hr, hlr, hlen, coef_pmul _ _⟩

/-- Settles O33: an empty or zero-led divisor faults; with any other the loop of the division keeps the dividend. -/
theorem pdivResult : Obligations.PdivResult := by
  refine ⟨rfl, fun s => ⟨fun h => ?_, fun hlq hq0 => ?_⟩⟩
  · have hlead : (polyQ s).getD 0 0x00 = 0x00 := by
      rw [polyQ_getD_zero]
      exact ite_eq_left_iff.2 h.resolve_left
    exact exec_faultsWith (c := .divisionByZero) (by rw [commits, pdivmod_fault _ hlead]; rfl)
  · have hlead : (polyQ s).getD 0 0x00 ≠ 0x00 := by rwa [polyQ_getD_zero, if_neg hlq]
    obtain ⟨d, hd⟩ := exists_pdivmod_ok (polyP s) hlead
    obtain ⟨-, -, hqu, hrm⟩ := pdivmod_ok hd
    rw [length_polyP, length_polyQ] at hqu
    rw [length_polyQ] at hrm
    have hp := count_le s .lp
    have hq := count_le s .lq
    obtain ⟨u, hexec, hsucc, hr, hr2, hlr, hlr2⟩ :=
      exec_of_commits_writesR_R2 (i := .pdiv) (s := s) (p := d.1) (q := d.2)
        (by rw [commits, hd]; rfl) (by omega) (by omega)
    exact ⟨u, d.1, d.2, hexec, hsucc, hr, hr2, hlr, hlr2, hqu, hrm, coef_pdivmod hd⟩

/-- Settles O34: the coefficients of odd exponents come down by one, the others vanish. -/
theorem pderivResult : Obligations.PderivResult := by
  refine ⟨rfl, fun s => ?_⟩
  have hle := count_le s .lp
  have hlen : (pderiv (polyP s)).length = s.count .lp - 1 := by simp
  obtain ⟨u, hexec, hsucc, hr, hlr⟩ := exec_of_commits_writesR (i := .pderiv) (s := s) rfl (by omega)
  exact ⟨u, _, hexec, hsucc, hr, hlr, hlen, coef_pderiv _⟩
end

section
/-! SUPPORT. Values of polynomials (42_poly.md R160 to R165): the value of a sum, a product and a division, and that a
polynomial with as many distinct roots as entries is zero. -/

namespace Sys2Proof.Machine

/-! ### The value by the coefficients -/

/-- The sum of the terms may run on beyond the array, where the coefficients are zero. -/
theorem peval_eq_xorSum_of_le {p : Poly} {n : Nat} (h : p.length ≤ n) (x : Byte) :
    peval p x = xorSum n (fun j => gmul (coef p j) (gpow x j)) := by
  induction n, h using Nat.le_induction with
  | base => exact peval_eq_xorSum p x
  | succ n hn ih => rw [xorSum_succ, ← ih, coef_of_length_le hn, zero_gmul, gadd_zero]

/-- The value depends on the coefficients alone, not on the leading zeros of the array. -/
theorem peval_congr {p q : Poly} (h : ∀ j, coef p j = coef q j) (x : Byte) : peval p x = peval q x := by
  rw [peval_eq_xorSum_of_le (le_max_left p.length q.length), peval_eq_xorSum_of_le (le_max_right p.length q.length)]
  exact xorSum_congr fun j _ => by rw [h]

theorem peval_padd (p q : Poly) (x : Byte) : peval (padd p q) x = gadd (peval p x) (peval q x) := by
  rw [peval_eq_xorSum, length_padd, peval_eq_xorSum_of_le (le_max_left p.length q.length),
    peval_eq_xorSum_of_le (le_max_right p.length q.length), ← xorSum_gadd]
  exact xorSum_congr fun j _ => by rw [coef_padd, gadd_gmul]

theorem peval_of_coef_eq_zero {p : Poly} (h : ∀ j, coef p j = 0x00) (x : Byte) : peval p x = 0x00 :=
  peval_congr (q := []) (fun j => by rw [h, coef_nil]) x

/-- Every coefficient is zero exactly when every entry is. -/
theorem forall_coef_eq_zero_iff (p : Poly) : (∀ j, coef p j = 0x00) ↔ ∀ c ∈ p, c = 0x00 := by
  constructor
  · intro h
    have hp : p = List.replicate p.length 0x00 :=
      poly_ext (by simp) fun j => by rw [h, coef_replicate_zero]
    exact (List.eq_replicate_iff.1 hp).2
  · intro h j
    rw [List.eq_replicate_iff.2 ⟨rfl, h⟩, coef_replicate_zero]

/-! ### The value of a product and of a division -/

/-- Joined arrays: the first is raised by the length of the second. -/
theorem peval_append (p q : Poly) (x : Byte) :
    peval (p ++ q) x = gadd (gmul (peval p x) (gpow x q.length)) (peval q x) := by
  rw [peval, List.foldl_append, foldl_horner]
  rfl

theorem peval_append_zeros (p : Poly) (n : Nat) (x : Byte) :
    peval (p ++ List.replicate n 0x00) x = gmul (peval p x) (gpow x n) := by
  rw [peval_append, List.length_replicate, peval_of_coef_eq_zero (coef_replicate_zero n), gadd_zero]

theorem peval_pscale (p : Poly) (c x : Byte) : peval (pscale p c) x = gmul c (peval p x) := by
  rw [peval_eq_xorSum, peval_eq_xorSum, length_pscale, gmul_xorSum]
  exact xorSum_congr fun j _ => by rw [coef_pscale, gmul_comm _ c, gmul_assoc]

/-- THE VALUE OF A PRODUCT is the product of the values: by the leading entry of the first factor. -/
theorem peval_pmul (p q : Poly) (x : Byte) : peval (pmul p q) x = gmul (peval p x) (peval q x) := by
  induction p with
  | nil => exact (zero_gmul _).symm
  | cons c p ih =>
    have hcoef (j : Nat) : coef (pmul (c :: p) q) j =
        coef (padd (pscale q c ++ List.replicate p.length 0x00) (pmul p q)) j := by
      rw [coef_padd, coef_pmul, coef_pmul, pcoefat_cons]
    rw [peval_congr hcoef, peval_padd, peval_append_zeros, peval_pscale, ih, peval_cons, gadd_gmul, gmul_assoc,
      gmul_assoc, gmul_comm (peval q x)]

/-- The value of the dividend is that of quotient times divisor plus remainder (R165). -/
theorem peval_pdivmod {p q : Poly} {d : Poly × Poly} (h : pdivmod p q = .ok d) (x : Byte) :
    peval p x = gadd (gmul (peval d.1 x) (peval q x)) (peval d.2 x) := by
  rw [peval_congr (coef_pdivmod h), peval_padd, peval_pmul]

/-- At a root of the divisor the dividend has the value of the remainder. -/
theorem peval_eq_peval_remainder {p q : Poly} {d : Poly × Poly} (h : pdivmod p q = .ok d) {x : Byte}
    (hx : peval q x = 0x00) : peval p x = peval d.2 x := by
  rw [peval_pdivmod h, hx, gmul_zero, zero_gadd]

/-! ### Roots -/

theorem peval_linear (a x : Byte) : peval [0x01, a] x = gadd x a := by
  rw [peval, List.foldl_cons, List.foldl_cons, List.foldl_nil, zero_gmul, zero_gadd, one_gmul]

theorem gadd_eq_zero_iff {x y : Byte} : gadd x y = 0x00 ↔ x = y := BitVec.xor_eq_zero_iff

theorem gmul_eq_zero_iff {x y : Byte} : gmul x y = 0x00 ↔ x = 0x00 ∨ y = 0x00 := by
  constructor
  · intro h
    rcases eq_zero_or_eq_gexp x with hx | ⟨i, rfl⟩
    · exact .inl hx
    rcases eq_zero_or_eq_gexp y with hy | ⟨j, rfl⟩
    · exact .inr hy
    rw [gmul_gexp] at h
    exact absurd h (gexp_ne_zero _)
  · rintro (rfl | rfl)
    · exact zero_gmul y
    · exact gmul_zero x

/-- A root can be divided out: what is left is a quotient of one entry fewer. -/
theorem exists_quotient_of_root {p : Poly} {a : Byte} (ha : peval p a = 0x00) :
    ∃ q : Poly, q.length = p.length - 1 ∧ ∀ j, coef p j = coef (pmul q [0x01, a]) j := by
  obtain ⟨d, hd⟩ := exists_pdivmod_ok p (q := [0x01, a]) (by simp)
  obtain ⟨-, -, hquot, hrem⟩ := pdivmod_ok hd
  obtain ⟨r, hr⟩ := List.length_eq_one_iff.1 hrem
  have hr0 : r = 0x00 := by
    rw [peval_eq_peval_remainder hd (by rw [peval_linear, gadd_self]), hr, peval_cons, List.length_nil, gpow_zero,
      gmul_one] at ha
    exact (gadd_zero r).symm.trans ha
  refine ⟨d.1, hquot, fun j => ?_⟩
  rw [coef_pdivmod hd, coef_padd, hr, hr0]
  exact (congrArg _ (coef_replicate_zero 1 j)).trans (gadd_zero _)

/-- A POLYNOMIAL WITH AS MANY DISTINCT ROOTS AS ENTRIES IS ZERO: divide out one root after the other. -/
theorem coef_eq_zero_of_roots {rs : List Byte} (hrs : rs.Nodup) {p : Poly} (hlen : p.length ≤ rs.length)
    (hroot : ∀ x ∈ rs, peval p x = 0x00) (j : Nat) : coef p j = 0x00 := by
  induction rs generalizing p j with
  | nil => exact coef_of_length_le (hlen.trans (Nat.zero_le j))
  | cons a rs ih =>
    obtain ⟨ha, hrs⟩ := List.nodup_cons.1 hrs
    obtain ⟨hpa, hroot⟩ := List.forall_mem_cons.1 hroot
    obtain ⟨q, hq, hcoef⟩ := exists_quotient_of_root hpa
    have hqroot : ∀ x ∈ rs, peval q x = 0x00 := fun x hx => by
      have hprod := hroot x hx
      rw [peval_congr hcoef, peval_pmul, peval_linear, gmul_eq_zero_iff, gadd_eq_zero_iff] at hprod
      exact hprod.resolve_right fun hxa => ha (hxa ▸ hx)
    have hqzero := ih hrs (by rw [List.length_cons] at hlen; omega) hqroot
    rw [hcoef, coef_pmul]
    simp only [pcoefat, hqzero, zero_gmul, xorSum_const_zero]

end Sys2Proof.Machine
end

section
/-! SUPPORT. The generator polynomial and the valid words (43_codec.md R190, R193, R195). -/

namespace Sys2Proof.Machine

/-! ### The generator polynomial -/

/-- The loops of the product leave the entries before their start alone. -/
theorem pmulLoop_succ_cons (i : Nat) (p q : Poly) (c : Byte) (r : Poly) :
    pmulLoop (i + 1) p q (c :: r) = c :: pmulLoop i p q r := by
  induction p generalizing i r with
  | nil => rfl
  | cons d p ih => rw [pmulLoop, addAt, ih, pmulLoop]

/-- The leading entry of a product is the product of the leading entries. -/
theorem getD_zero_pmul (p q : Poly) : (pmul p q).getD 0 0x00 = gmul (p.getD 0 0x00) (q.getD 0 0x00) := by
  cases p with
  | nil => exact (zero_gmul _).symm
  | cons c p => cases q with
    | nil => exact (gmul_zero _).symm
    | cons d q =>
      have hlen : (c :: p).length + (d :: q).length - 1 = (p.length + q.length) + 1 := by
        simp only [List.length_cons]; omega
      rw [pmul, if_neg (by simp), hlen, List.replicate_succ, pmulLoop, List.map_cons, addAt, pmulLoop_succ_cons]
      exact zero_gadd _

/-- The generator polynomial is monic (R190). -/
theorem getD_zero_generatorPoly (t : Nat) : (generatorPoly t).getD 0 0x00 = 0x01 := by
  induction t with
  | zero => rfl
  | succ t ih => rw [generatorPoly, getD_zero_pmul, ih, one_gmul]; rfl

/-- The generator polynomial is zero at alpha^1 to alpha^t (R190): each factor brings its own root. -/
theorem validWord_generatorPoly (t : Nat) : ValidWord (generatorPoly t) t := by
  induction t with
  | zero => intro i h1 h2; omega
  | succ t ih =>
    intro i h1 h2
    rw [generatorPoly, peval_pmul, gmul_eq_zero_iff, peval_linear, gadd_eq_zero_iff]
    rcases Nat.le_succ_iff.1 h2 with h | rfl
    · exact .inl (ih i h1 h)
    · exact .inr rfl

/-- The generator polynomial divides without a fault (R195). -/
theorem exists_pdivmod_generatorPoly (p : Poly) (t : Nat) : ∃ d, pdivmod p (generatorPoly t) = .ok d :=
  exists_pdivmod_ok p (by rw [getD_zero_generatorPoly]; decide)

/-- The remainder modulo the generator polynomial has t entries (R195). -/
theorem length_remainder_generatorPoly {p : Poly} {t : Nat} {d : Poly × Poly}
    (h : pdivmod p (generatorPoly t) = .ok d) : d.2.length = t := by
  obtain ⟨-, -, -, hlen⟩ := pdivmod_ok h
  rw [hlen, length_generatorPoly, Nat.add_sub_cancel]

/-! ### Syndromes and valid words -/

theorem getD_syndromes (r : Poly) (t j : Nat) :
    (syndromes r t).getD j 0x00 = if j < t then peval r (alpha (j + 1)) else 0x00 := by
  split_ifs with h
  · simp [syndromes, List.getD_eq_getElem?_getD, h]
  · exact List.getD_eq_default _ _ (by simpa using h)

/-- The roots alpha^1 to alpha^t of the generator polynomial. -/
def generatorRoots (t : Nat) : List Byte := (List.range t).map (fun j => alpha (j + 1))

@[simp] theorem length_generatorRoots (t : Nat) : (generatorRoots t).length = t := by simp [generatorRoots]

theorem validWord_iff_generatorRoots (w : List Byte) (t : Nat) :
    ValidWord w t ↔ ∀ x ∈ generatorRoots t, peval w x = 0x00 := by
  rw [generatorRoots, List.forall_mem_map]
  constructor
  · exact fun h j hj => h (j + 1) (by omega) (List.mem_range.1 hj)
  · intro h i h1 h2
    have hroot := h (i - 1) (List.mem_range.2 (by omega))
    rwa [Nat.sub_add_cancel h1] at hroot

theorem syndromes_eq_map_generatorRoots (r : Poly) (t : Nat) : syndromes r t = (generatorRoots t).map (peval r) := by
  rw [generatorRoots, List.map_map]
  rfl

/-- All syndromes are zero exactly when the word is valid (R193, R197). -/
theorem allZero_syndromes_iff (r : Poly) (t : Nat) : allZero (syndromes r t) = true ↔ ValidWord r t := by
  rw [allZero_iff, syndromes_eq_map_generatorRoots, List.forall_mem_map, validWord_iff_generatorRoots]

theorem mod_eq_of_alpha_eq {i j : Nat} (h : alpha i = alpha j) : i % 255 = j % 255 := by
  rw [← logTable_gexp, ← logTable_gexp, ← alpha, h, alpha]

/-- The roots of the generator polynomial are distinct (41_field.md R132). -/
theorem nodup_generatorRoots {t : Nat} (ht : t ≤ 255) : (generatorRoots t).Nodup := by
  refine List.Nodup.map_on (fun i hi j hj h => ?_) List.nodup_range
  have := mod_eq_of_alpha_eq h
  rw [List.mem_range] at hi hj
  omega

/-- A WORD IS VALID EXACTLY WHEN THE GENERATOR POLYNOMIAL DIVIDES IT (R193): the word and its remainder have the same
values at the roots, and a remainder of t entries with t distinct roots is zero. -/
theorem validWord_iff_remainder_zero {w : List Byte} {t : Nat} (ht : t ≤ 255) {d : Poly × Poly}
    (h : pdivmod w (generatorPoly t) = .ok d) : ValidWord w t ↔ ∀ c ∈ d.2, c = 0x00 := by
  have hvalue : ∀ i, 1 ≤ i → i ≤ t → peval w (alpha i) = peval d.2 (alpha i) := fun i h1 h2 =>
    peval_eq_peval_remainder h (validWord_generatorPoly t i h1 h2)
  rw [← forall_coef_eq_zero_iff]
  constructor
  · intro hw
    refine coef_eq_zero_of_roots (nodup_generatorRoots ht) (by simp [length_remainder_generatorPoly h]) ?_
    exact (validWord_iff_generatorRoots _ _).1 fun i h1 h2 => (hvalue i h1 h2).symm.trans (hw i h1 h2)
  · exact fun hd i h1 h2 => (hvalue i h1 h2).trans (peval_of_coef_eq_zero hd _)

/-- A message with its remainder appended is valid (R195): at a root the remainder has the value of the raised message, and
the two cancel. -/
theorem validWord_append_remainder {m : List Byte} {t : Nat} {d : Poly × Poly}
    (h : pdivmod (m ++ List.replicate t 0x00) (generatorPoly t) = .ok d) : ValidWord (m ++ d.2) t := by
  intro i h1 h2
  rw [peval_append, length_remainder_generatorPoly h, ← peval_append_zeros,
    peval_eq_peval_remainder h (validWord_generatorPoly t i h1 h2), gadd_self]

end Sys2Proof.Machine
end

section
/-! SUPPORT. How a codec command ends (43_codec.md R191, R192; 30_encoding.md R91, R93): the configuration checks of a commit,
a commit of one buffer with or without a length, and the received word's coefficients. -/

namespace Sys2Proof.Machine

theorem afterT_ok {s : State} (h : s.count .t ≠ 0) (ws : Except Cause (List Write)) : afterT s ws = ws := if_neg h

theorem afterTN_ok {s : State} (ht : s.count .t ≠ 0) (hn : s.count .t ≤ s.count .n) (ws : Except Cause (List Write)) :
    afterTN s ws = ws := by rw [afterTN, afterT_ok ht, if_neg (by omega)]

theorem afterTN_fault {s : State} (h : s.count .t = 0 ∨ s.count .n < s.count .t) (ws : Except Cause (List Write)) :
    afterTN s ws = .error .configurationError := by
  rw [afterTN]
  by_cases ht : s.count .t = 0
  · exact afterT_fault ht _
  · rw [afterT_ok ht, if_pos (h.resolve_left ht)]

/-- A command that checks T and N faults with CONFIGURATION_ERROR when T = 0 or N < T (R191, R192). -/
theorem exec_misconfigured {i : Instr} {s : State} {ws : Except Cause (List Write)} (hi : commits i s = afterTN s ws)
    (h : s.count .t = 0 ∨ s.count .n < s.count .t) : ∃ u, exec i s = .next u ∧ FaultsWith 0x01 s u :=
  exec_faultsWith (hi.trans (afterTN_fault h ws))

/-- A command that commits one buffer succeeds, writes nothing else, and leaves the result there. -/
theorem exec_of_commits_buf {i : Instr} {s : State} {b : Buf} {vs : List Byte} (h : commits i s = .ok [.buf b vs])
    (hvs : vs.length ≤ 256) : ∃ u, exec i s = .next u ∧ Succeeds [] [b] s u ∧ BufHolds u b vs :=
  ⟨_, exec_of_commits_ok h, ((Frame.refl [] [b] s).setBuf (by simp) vs).succeeds, (bufHolds_setBuf s b hvs).complete⟩

/-- A command that commits one buffer and a count succeeds, writes nothing else, and leaves both. -/
theorem exec_of_commits_buf_count {i : Instr} {s : State} {b : Buf} {vs : List Byte} {r : Reg} {n : Nat}
    (h : commits i s = .ok [.buf b vs, .reg r (countByte n)]) (hvs : vs.length ≤ 256) (hn : n ≤ 255)
    (hr : r ≠ .status ∧ r ≠ .cause) :
    ∃ u, exec i s = .next u ∧ Succeeds [r] [b] s u ∧ BufHolds u b vs ∧ u.count r = n := by
  refine ⟨_, exec_of_commits_ok h,
    (((Frame.refl [r] [b] s).setBuf (b := b) (by simp) vs).setReg (r := r) (by simp) _).succeeds,
    ((bufHolds_setBuf s b hvs).setReg r _).complete, ?_⟩
  simp [State.put, hr.1, hr.2, toNat_countByte (show n < 256 by omega)]

/-- The coefficients of the received word are its entries, read from the low-order end (00_scope.md R15). -/
theorem coef_receivedWord (s : State) {j : Nat} (h : j < s.count .n) :
    coef (receivedWord s) j = s.entry .buf (s.count .n - 1 - j) := by
  rw [coef_of_lt (by rwa [length_receivedWord]), length_receivedWord, receivedWord, getD_entries s .buf (by omega)]

theorem boolByte_cases (c : Bool) : boolByte c = 0x01 ∨ boolByte c = 0x00 := by cases c <;> decide

theorem boolByte_eq_one_iff (c : Bool) : boolByte c = 0x01 ↔ c = true := by cases c <;> decide

/-- CHECK leaves in Y whether the received word is valid (R197). -/
theorem exec_check {s : State} (ht : s.count .t ≠ 0) (hn : s.count .t ≤ s.count .n) :
    ∃ u, exec .check s = .next u ∧ Succeeds [.y] [] s u ∧ (u.reg .y = 0x01 ∨ u.reg .y = 0x00) ∧
      (u.reg .y = 0x01 ↔ ValidWord (receivedWord s) (s.count .t)) := by
  obtain ⟨u, hexec, hsucc, hy⟩ := exec_of_commits_writesY (i := .check) (s := s) (afterTN_ok ht hn _)
  exact ⟨u, hexec, hsucc, hy ▸ boolByte_cases _, by rw [hy, boolByte_eq_one_iff, allZero_syndromes_iff]⟩

/-- The codeword of a message is its division's remainder appended (R195). -/
theorem encodeWord_of_pdivmod {m : List Byte} {t : Nat} {d : Poly × Poly}
    (h : pdivmod (m ++ List.replicate t 0x00) (generatorPoly t) = .ok d) : encodeWord m t = .ok (m ++ d.2) := by
  rw [encodeWord, h]
  rfl

end Sys2Proof.Machine
end

section
/-! PROOF. O35 to O40: the codec commands. -/

open Sys2Proof Sys2Proof.Machine

/-- Settles O35: GENPOLY commits the product of the factors, which is monic and has the root of each. -/
theorem genpolyResult : Obligations.GenpolyResult := by
  refine ⟨rfl, fun s => ⟨fun ht => ⟨_, exec_unconfigured (by decide) ht, raise_faultsWith _ s⟩, fun ht => ?_⟩⟩
  have hlen := length_generatorPoly (s.count .t)
  have hle := count_le s .t
  obtain ⟨u, hexec, hsucc, hgen⟩ := exec_of_commits_buf (i := .genpoly) (s := s) (afterT_ok ht _) (by omega)
  refine ⟨u, _, hexec, hsucc, hgen, hlen, ?_, validWord_generatorPoly _, ?_, rfl⟩
  · rw [hgen.2 0 (by decide), getD_zero_generatorPoly]
  · obtain ⟨k, hk⟩ := Nat.exists_eq_succ_of_ne_zero ht
    rw [hk]
    rfl

/-- Settles O36: ENCODE commits the message with its remainder appended, whose values at the roots cancel. -/
theorem encodeResult : Obligations.EncodeResult := by
  refine ⟨rfl, fun s => ⟨fun h => ?_, fun ht hle => ?_⟩⟩
  · refine exec_faultsWith (c := .configurationError) ?_
    by_cases ht : s.count .t = 0
    · exact afterT_fault ht _
    · rw [commits, afterT_ok ht, if_pos (h.resolve_left ht)]
  · obtain ⟨d, hd⟩ := exists_pdivmod_generatorPoly (message s ++ List.replicate (s.count .t) 0x00) (s.count .t)
    have hlen : (message s ++ d.2).length = s.count .k + s.count .t := by
      rw [List.length_append, length_message, length_remainder_generatorPoly hd]
    have hcommits : commits .encode s =
        .ok [.buf .buf (message s ++ d.2), .reg .n (countByte (s.count .k + s.count .t))] := by
      rw [commits, afterT_ok ht, if_neg (by omega), encodeWord_of_pdivmod hd]
      rfl
    obtain ⟨u, hexec, hsucc, hbuf, hn⟩ := exec_of_commits_buf_count hcommits (by omega) hle (by decide)
    refine ⟨u, _, hexec, hsucc, hbuf, hlen, hn, fun i hi => ?_, validWord_append_remainder hd, d, rfl, hd⟩
    rw [hbuf.2 i (by omega), List.getD_append _ _ _ _ (by simpa using hi), message, getD_entries s .buf hi]

/-- Settles O37: SYNDROMES commits the values at the powers of alpha, each the sum of the received word's terms. -/
theorem syndromesResult : Obligations.SyndromesResult := by
  refine ⟨rfl, fun s => ⟨exec_misconfigured rfl, fun ht hn => ?_⟩⟩
  have hle := count_le s .t
  obtain ⟨u, hexec, hsucc, -, hsyn⟩ :=
    exec_of_commits_buf (i := .syndromes) (s := s) (afterTN_ok ht hn _) (by rw [length_syndromes]; omega)
  refine ⟨u, hexec, hsucc, fun j hj => ?_⟩
  rw [hsyn j hj, getD_syndromes, peval_eq_xorSum, length_receivedWord]
  refine if_congr Iff.rfl (xorSum_congr fun d hd => ?_) rfl
  rw [coef_receivedWord s hd]

/-- Settles O38: CHECK commits whether all syndromes are zero, and they are the values at the powers of alpha. -/
theorem checkResult : Obligations.CheckResult :=
  ⟨rfl, rfl, fun _ => ⟨exec_misconfigured rfl, exec_check⟩⟩

/-- Settles O39: STRIP commits the first N - T entries of the received word and their number. -/
theorem stripResult : Obligations.StripResult := by
  refine ⟨rfl, fun s => ⟨exec_misconfigured rfl, fun ht hn => ?_⟩⟩
  have hle := count_le s .n
  have hlen : ((receivedWord s).take (s.count .n - s.count .t)).length = s.count .n - s.count .t := by simp
  obtain ⟨u, hexec, hsucc, ⟨-, hbuf⟩, hk⟩ :=
    exec_of_commits_buf_count (i := .strip) (s := s) (afterTN_ok ht hn _) (by omega) (by omega) (by decide)
  refine ⟨u, hexec, hsucc, hk, fun i hi => ?_⟩
  rw [hbuf i hi]
  split_ifs with h
  · rw [List.getD_eq_getElem?_getD, List.getElem?_take_of_lt h, ← List.getD_eq_getElem?_getD, receivedWord,
      getD_entries s .buf (by omega)]
  · exact List.getD_eq_default _ _ (by omega)

/-- Settles O40: the word is valid exactly when its remainder, of T entries and with T distinct roots if so, is zero. -/
theorem validExactlyWhenDivisible : Obligations.ValidExactlyWhenDivisible := by
  intro s u ht hn hu
  obtain ⟨v, hv, -, -, hy⟩ := exec_check ht hn
  obtain rfl : v = u := Host.Outcome.next.inj (hv.symm.trans hu)
  obtain ⟨d, hd⟩ := exists_pdivmod_generatorPoly (receivedWord s) (s.count .t)
  exact ⟨d.1, d.2, hd, hy.trans (validWord_iff_remainder_zero (count_le s .t) hd)⟩
end

section
/-! SUPPORT. Sums once more, and the convolution of two coefficient sequences (42_poly.md R164; 44_decoder.md R220, R224):
it is both the coefficient of a product and the discrepancy of Berlekamp-Massey. -/

namespace Sys2Proof.Machine

/-! ### Sums -/

theorem xorSum_succ_first (n : Nat) (f : Nat → Byte) :
    xorSum (n + 1) f = gadd (f 0) (xorSum n (fun j => f (j + 1))) := by
  induction n with
  | zero => rw [xorSum_succ, gadd_comm]; rfl
  | succ n ih => rw [xorSum_succ, ih, gadd_assoc, ← xorSum_succ]

theorem xorSum_reflect (n : Nat) (f : Nat → Byte) : xorSum n (fun j => f (n - 1 - j)) = xorSum n f := by
  induction n with
  | zero => rfl
  | succ n ih =>
    rw [xorSum_succ_first, xorSum_succ, gadd_comm, ← ih]
    exact congrArg₂ gadd (xorSum_congr fun j _ => congrArg f (by omega)) rfl

/-- A sum may stop where the terms left are zero. -/
theorem xorSum_eq_of_le {m n : Nat} (h : m ≤ n) {f : Nat → Byte} (hf : ∀ j, m ≤ j → j < n → f j = 0x00) :
    xorSum n f = xorSum m f := by
  induction n, h using Nat.le_induction with
  | base => rfl
  | succ n hn ih => rw [xorSum_succ, hf n hn (by omega), gadd_zero, ih fun j h1 h2 => hf j h1 (by omega)]

theorem xorSum_comm (m n : Nat) (f : Nat → Nat → Byte) :
    xorSum m (fun i => xorSum n (f i)) = xorSum n (fun j => xorSum m (fun i => f i j)) := by
  induction m with
  | zero => exact (xorSum_const_zero n).symm
  | succ m ih => rw [xorSum_succ, ih, ← xorSum_gadd]; exact xorSum_congr fun j _ => (xorSum_succ m _).symm

theorem xorSum_gmul (n : Nat) (f : Nat → Byte) (x : Byte) : gmul (xorSum n f) x = xorSum n (fun j => gmul (f j) x) := by
  rw [gmul_comm, gmul_xorSum]
  exact xorSum_congr fun j _ => gmul_comm x (f j)

/-! ### The convolution -/

/-- The convolution of two sequences of coefficients: the coefficient of x^k in the product of their series. -/
def conv (f g : Nat → Byte) (k : Nat) : Byte := xorSum (k + 1) (fun j => gmul (f j) (g (k - j)))

theorem pcoefat_eq_conv (p q : Poly) (k : Nat) : pcoefat p q k = conv (coef p) (coef q) k := rfl

theorem conv_congr {f f' g g' : Nat → Byte} {k : Nat} (hf : ∀ j, j ≤ k → f j = f' j) (hg : ∀ j, j ≤ k → g j = g' j) :
    conv f g k = conv f' g' k :=
  xorSum_congr fun j hj => by rw [hf j (by omega), hg (k - j) (by omega)]

theorem conv_comm (f g : Nat → Byte) (k : Nat) : conv f g k = conv g f k := by
  rw [conv, ← xorSum_reflect]
  refine xorSum_congr fun j hj => ?_
  rw [show k + 1 - 1 - j = k - j by omega, show k - (k - j) = j by omega, gmul_comm]

theorem conv_gadd_gmul (f h g : Nat → Byte) (c : Byte) (k : Nat) :
    conv (fun j => gadd (f j) (gmul c (h j))) g k = gadd (conv f g k) (gmul c (conv h g k)) := by
  rw [conv, conv, conv, gmul_xorSum, ← xorSum_gadd]
  exact xorSum_congr fun j _ => by rw [gadd_gmul, gmul_assoc]

theorem conv_gmul (f g : Nat → Byte) (c : Byte) (k : Nat) :
    conv (fun j => gmul (f j) c) g k = gmul (conv f g k) c := by
  rw [conv, conv, xorSum_gmul]
  exact xorSum_congr fun j _ => by rw [gmul_assoc, gmul_assoc, gmul_comm c]

/-- A first operand raised by one degree raises the convolution by one degree. -/
theorem conv_succ_of_raised {f h : Nat → Byte} (h0 : f 0 = 0x00) (hs : ∀ j, f (j + 1) = h j) (g : Nat → Byte)
    (k : Nat) : conv f g (k + 1) = conv h g k := by
  rw [conv, xorSum_succ_first, h0, zero_gmul, zero_gadd]
  exact xorSum_congr fun j _ => by rw [hs, Nat.add_sub_add_right]

/-- A second operand in geometric progression: the next coefficient from the one before. -/
theorem conv_succ_of_geometric {g : Nat → Byte} {x : Byte} (hg : ∀ j, g (j + 1) = gmul x (g j)) (f : Nat → Byte)
    (k : Nat) : conv f g (k + 1) = gadd (gmul (f (k + 1)) (g 0)) (gmul x (conv f g k)) := by
  rw [conv, xorSum_succ, Nat.sub_self, gadd_comm, conv, gmul_xorSum]
  refine congrArg (gadd _) (xorSum_congr fun j hj => ?_)
  rw [show k + 1 - j = (k - j) + 1 by omega, hg, ← gmul_assoc, gmul_comm _ x, gmul_assoc]

end Sys2Proof.Machine
end

section
/-! SUPPORT. Berlekamp-Massey (44_decoder.md R220, R221): the invariant of its iterations, on the sequences
of coefficients. -/

namespace Sys2Proof.Machine

/-! ### Coefficients in ascending order -/

/-- The coefficient of x^j of a polynomial held by degree, as Berlekamp-Massey holds Λ, B and the syndromes (R220). -/
def asc (p : List Byte) (j : Nat) : Byte := p.getD j 0x00

theorem discrepancy_eq_conv (lam syn : List Byte) (i : Nat) : discrepancy lam syn i = conv (asc lam) (asc syn) i := rfl

@[simp] theorem asc_cons_succ (c : Byte) (p : List Byte) (j : Nat) : asc (c :: p) (j + 1) = asc p j := rfl

theorem asc_replicate_zero (n j : Nat) : asc (List.replicate n 0x00) j = 0x00 :=
  List.getElem?_getD_replicate_default_eq ..

@[simp] theorem asc_shiftUp_zero (b : List Byte) : asc (shiftUp b) 0 = 0x00 := rfl

/-- The shift raises B by one degree, if the term of degree t that goes out is zero (R221). -/
theorem asc_shiftUp_succ {b : List Byte} {t : Nat} (hlen : b.length = t + 1) (ht : asc b t = 0x00) (j : Nat) :
    asc (shiftUp b) (j + 1) = asc b j := by
  rw [shiftUp, asc_cons_succ]
  rcases lt_trichotomy j t with h | rfl | h
  · simp only [asc, List.getD_eq_getElem?_getD, List.getElem?_dropLast, if_pos (show j < b.length - 1 by omega)]
  · rw [ht]
    exact List.getD_eq_default _ _ (by simp [hlen])
  · rw [asc, asc, List.getD_eq_default _ _ (by simp; omega), List.getD_eq_default _ _ (by omega)]

theorem getD_zipWith_gadd {p q : List Byte} (h : p.length = q.length) (i : Nat) :
    (List.zipWith gadd p q).getD i 0x00 = gadd (p.getD i 0x00) (q.getD i 0x00) := by
  simp only [List.getD_eq_getElem?_getD, List.getElem?_zipWith]
  by_cases hi : i < p.length
  · simp [hi, show i < q.length by omega]
  · simp [show p.length ≤ i by omega, show q.length ≤ i by omega]

theorem asc_zipWith {p q : List Byte} (h : p.length = q.length) (c : Byte) (j : Nat) :
    asc (List.zipWith (fun x y => gadd x (gmul c y)) p q) j = gadd (asc p j) (gmul c (asc q j)) := by
  have hzip : List.zipWith (fun x y => gadd x (gmul c y)) p q = List.zipWith gadd p (pscale q c) := by
    rw [← map_gmul_eq_pscale, List.zipWith_map_right]
  rw [hzip, asc, getD_zipWith_gadd (by rw [length_pscale, h]), getD_pscale, gmul_comm]
  rfl

theorem asc_map_gmul (p : List Byte) (c : Byte) (j : Nat) : asc (p.map (fun x => gmul x c)) j = gmul (asc p j) c :=
  getD_pscale p c j

/-! ### One iteration -/

section Step

variable {syn : List Byte} {st : BMState} {i : Nat}

theorem bmStep_of_zero (h : discrepancy st.lam syn i = 0x00) : bmStep syn st i = { st with b := shiftUp st.b } := if_pos h

/-- The new Λ of an iteration whose discrepancy is not zero. -/
def correctedLam (syn : List Byte) (st : BMState) (i : Nat) : List Byte :=
  List.zipWith (fun l c => gadd l (gmul (discrepancy st.lam syn i) c)) st.lam (shiftUp st.b)

theorem bmStep_of_swap (h : discrepancy st.lam syn i ≠ 0x00) (hlen : 2 * st.len ≤ i) :
    bmStep syn st i = {
      lam := correctedLam syn st i
      b := st.lam.map (fun c => gmul c (ginvOf (discrepancy st.lam syn i)))
      len := i + 1 - st.len } := (if_neg h).trans (if_pos hlen)

theorem bmStep_of_keep (h : discrepancy st.lam syn i ≠ 0x00) (hlen : ¬ 2 * st.len ≤ i) :
    bmStep syn st i = { lam := correctedLam syn st i, b := shiftUp st.b, len := st.len } :=
  (if_neg h).trans (if_neg hlen)

end Step

/-! ### Shift registers -/

/-- `f`, of degree at most `d`, generates the sequence `s` from S_(d+1) to S_i, and misses S_(i+1) by `v`. -/
structure Generates (s f : Nat → Byte) (d i : Nat) (v : Byte) : Prop where
  degree : ∀ j, d < j → f j = 0x00
  below : ∀ k, d ≤ k → k < i → conv f s k = 0x00
  miss : d ≤ i → conv f s i = v

section Generates

variable {s f g : Nat → Byte} {d e i : Nat} {v : Byte}

/-- The corrected register: what `f` misses is taken away by a register that misses 1 (R220). -/
theorem Generates.correct (hf : Generates s f d i v) (hg : Generates s g e i 0x01) {D : Nat} (hd : d ≤ D) (he : e ≤ D) :
    Generates s (fun j => gadd (f j) (gmul v (g j))) D i 0x00 where
  degree j hj := by rw [hf.degree j (by omega), hg.degree j (by omega), gmul_zero, gadd_zero]
  below k hk hi := by
    rw [conv_gadd_gmul, hf.below k (by omega) hi, hg.below k (by omega) hi, gmul_zero, gadd_zero]
  miss hi := by rw [conv_gadd_gmul, hf.miss (by omega), hg.miss (by omega), gmul_one, gadd_self]

/-- A register scaled by the inverse of what it misses misses 1. -/
theorem Generates.normalize (hf : Generates s f d i v) (hv : v ≠ 0x00) :
    Generates s (fun j => gmul (f j) (ginvOf v)) d i 0x01 where
  degree j hj := by rw [hf.degree j hj, zero_gmul]
  below k hk hi := by rw [conv_gmul, hf.below k hk hi, zero_gmul]
  miss hi := by rw [conv_gmul, hf.miss hi, gmul_ginvOf hv]

/-- A register raised by one degree is one for the next iteration. -/
theorem Generates.shift (hf : Generates s f d i v) (h0 : g 0 = 0x00) (hs : ∀ j, g (j + 1) = f j) :
    Generates s g (d + 1) (i + 1) v where
  degree j hj := by
    obtain ⟨j, rfl⟩ := Nat.exists_eq_succ_of_ne_zero (show j ≠ 0 by omega)
    exact (hs j).trans (hf.degree j (by omega))
  below k hk hi := by
    obtain ⟨k, rfl⟩ := Nat.exists_eq_succ_of_ne_zero (show k ≠ 0 by omega)
    exact (conv_succ_of_raised h0 hs s k).trans (hf.below k (by omega) (by omega))
  miss hi := (conv_succ_of_raised h0 hs s i).trans (hf.miss (by omega))

/-- A register that misses nothing goes on to the next iteration. -/
theorem Generates.next (hf : Generates s f d i 0x00) : Generates s f d (i + 1) (conv f s (i + 1)) where
  degree := hf.degree
  below k hk hi := by
    rcases Nat.lt_succ_iff_lt_or_eq.1 hi with h | rfl
    · exact hf.below k hk h
    · exact hf.miss hk
  miss _ := rfl

end Generates

/-! ### The invariant -/

/-- The invariant at the top of iteration `i` of `t` (R221): Λ, with Λ(0) = 1, generates the syndromes to S_i with degree
at most L, and B, once shifted, those to S_i with degree at most i + 1 - L, missing S_(i+1) by 1. After the last iteration
nothing is said of B. -/
structure BMInvariant (syn : List Byte) (t i : Nat) (st : BMState) : Prop where
  length_lam : st.lam.length = t + 1
  length_b : st.b.length = t + 1
  len_le : st.len ≤ i
  lam_zero : asc st.lam 0 = 0x01
  lam : Generates (asc syn) (asc st.lam) st.len i (discrepancy st.lam syn i)
  b : i < t → Generates (asc syn) (asc (shiftUp st.b)) (i + 1 - st.len) i 0x01

theorem bmInvariant_bmStart (syn : List Byte) (t : Nat) : BMInvariant syn t 0 (bmStart t) where
  length_lam := by simp [bmStart]
  length_b := by simp [bmStart]
  len_le := le_rfl
  lam_zero := rfl
  lam := {
    degree := fun j hj => by
      obtain ⟨j, rfl⟩ := Nat.exists_eq_succ_of_ne_zero (show j ≠ 0 from hj.ne')
      exact asc_replicate_zero t j
    below := fun k _ hk => absurd hk (by omega)
    miss := fun _ => rfl }
  b := fun ht => {
    degree := fun j hj => by
      obtain ⟨j, rfl⟩ : ∃ k, j = k + 2 := ⟨j - 2, by simp only [bmStart] at hj; omega⟩
      have htop : asc (bmStart t).b t = 0x00 := by
        obtain ⟨t, rfl⟩ := Nat.exists_eq_succ_of_ne_zero ht.ne'
        exact asc_replicate_zero _ t
      rw [asc_shiftUp_succ (by simp [bmStart]) htop]
      exact asc_replicate_zero t j
    below := fun k _ hk => absurd hk (by omega)
    miss := fun h => absurd h (by simp [bmStart]) }

section Step

variable {syn : List Byte} {st : BMState} {t i : Nat}

theorem BMInvariant.length_shiftUp (h : BMInvariant syn t i st) : (shiftUp st.b).length = t + 1 :=
  (Machine.length_shiftUp (List.ne_nil_of_length_pos (by rw [h.length_b]; omega))).trans h.length_b

theorem BMInvariant.asc_correctedLam (h : BMInvariant syn t i st) : asc (correctedLam syn st i) =
    fun j => gadd (asc st.lam j) (gmul (discrepancy st.lam syn i) (asc (shiftUp st.b) j)) :=
  funext fun j => asc_zipWith (h.length_lam.trans h.length_shiftUp.symm) _ j

/-- What an iteration has to show of its results to keep the invariant: the shift and the next discrepancy are the same for
its three branches. -/
theorem BMInvariant.next {st' : BMState} (hlam : st'.lam.length = t + 1) (hb : st'.b.length = t + 1)
    (hlen : st'.len ≤ i + 1) (h0 : asc st'.lam 0 = 0x01) (hgen : Generates (asc syn) (asc st'.lam) st'.len i 0x00)
    (hgenb : Generates (asc syn) (asc st'.b) (i + 1 - st'.len) i 0x01) : BMInvariant syn t (i + 1) st' where
  length_lam := hlam
  length_b := hb
  len_le := hlen
  lam_zero := h0
  lam := hgen.next
  b := fun ht => by
    rw [show i + 1 + 1 - st'.len = i + 1 - st'.len + 1 by omega]
    exact hgenb.shift (asc_shiftUp_zero _) (asc_shiftUp_succ hb (hgenb.degree t (by omega)))

/-- EVERY ITERATION KEEPS THE INVARIANT: with no discrepancy Λ stays; else it is corrected by B, and where its degree has
to grow B becomes the old Λ, scaled. -/
theorem BMInvariant.step (h : BMInvariant syn t i st) (hi : i < t) : BMInvariant syn t (i + 1) (bmStep syn st i) := by
  have hle := h.len_le
  have hlam := h.lam
  have hb := h.b hi
  have hlen : (correctedLam syn st i).length = t + 1 := by
    rw [correctedLam, List.length_zipWith, h.length_lam, h.length_shiftUp, min_self]
  have hzero : asc (correctedLam syn st i) 0 = 0x01 := by
    rw [h.asc_correctedLam]
    simp only [asc_shiftUp_zero, gmul_zero, gadd_zero, h.lam_zero]
  by_cases hd : discrepancy st.lam syn i = 0x00
  · rw [bmStep_of_zero hd]
    exact .next h.length_lam h.length_shiftUp (Nat.le_succ_of_le hle) h.lam_zero (hd ▸ hlam) hb
  by_cases hswap : 2 * st.len ≤ i
  · rw [bmStep_of_swap hd hswap]
    refine .next hlen (by simpa using h.length_lam) (Nat.sub_le _ _) hzero ?_ ?_
    · rw [h.asc_correctedLam]
      exact hlam.correct hb (show st.len ≤ i + 1 - st.len by omega) le_rfl
    · rw [show i + 1 - (i + 1 - st.len) = st.len by omega, funext (asc_map_gmul st.lam _)]
      exact hlam.normalize hd
  · rw [bmStep_of_keep hd hswap]
    refine .next hlen h.length_shiftUp (Nat.le_succ_of_le hle) hzero ?_ hb
    rw [h.asc_correctedLam]
    exact hlam.correct hb le_rfl (show i + 1 - st.len ≤ st.len by omega)

end Step

/-- The state at the top of iteration `i` of `bm(syn, t)`. -/
def bmAt (syn : List Byte) (t i : Nat) : BMState := (List.range i).foldl (bmStep syn) (bmStart t)

theorem bmAt_succ (syn : List Byte) (t i : Nat) : bmAt syn t (i + 1) = bmStep syn (bmAt syn t i) i := bm_succ syn t i

theorem bm_eq_bmAt (syn : List Byte) (t : Nat) : bm syn t = bmAt syn t t := rfl

/-- The invariant holds at the top of every iteration, and after the last one. -/
theorem bmInvariant_bmAt (syn : List Byte) {t i : Nat} (hi : i ≤ t) : BMInvariant syn t i (bmAt syn t i) := by
  induction i with
  | zero => exact bmInvariant_bmStart syn t
  | succ i ih => exact bmAt_succ syn t i ▸ (ih (by omega)).step hi

theorem bmInvariant_bm (syn : List Byte) (t : Nat) : BMInvariant syn t t (bm syn t) :=
  bm_eq_bmAt syn t ▸ bmInvariant_bmAt syn le_rfl

/-! ### The trimmed locator -/

theorem getD_trim (st : BMState) {i : Nat} (h : i ≤ st.len) : (trim st).getD i 0x00 = asc st.lam (st.len - i) := by
  simp [trim, asc, List.getD_eq_getElem?_getD, show i < st.len + 1 by omega]

/-- The trim drops zeros only (R221). -/
theorem BMInvariant.coef_trim {syn : List Byte} {t i : Nat} {st : BMState} (h : BMInvariant syn t i st) :
    coef (trim st) = asc st.lam := by
  funext j
  by_cases hj : j ≤ st.len
  · rw [coef_of_lt (by rw [length_trim]; omega), length_trim, getD_trim st (by omega),
      show st.len - (st.len + 1 - 1 - j) = j by omega]
  · rw [coef_of_length_le (by rw [length_trim]; omega), h.lam.degree j (by omega)]

theorem coef_zero_trim_bm (syn : List Byte) (t : Nat) : coef (trim (bm syn t)) 0 = 0x01 := by
  rw [(bmInvariant_bm syn t).coef_trim, (bmInvariant_bm syn t).lam_zero]

theorem len_bm_le (syn : List Byte) (t : Nat) : (bm syn t).len ≤ t := (bmInvariant_bm syn t).len_le

/-- THE SHIFT-REGISTER PROPERTY (00_scope.md R17): the locator generates the syndromes from S_(L+1) to S_t. -/
theorem conv_trim_bm (syn : List Byte) {t k : Nat} (hk : (bm syn t).len ≤ k) (ht : k < t) :
    conv (coef (trim (bm syn t))) (asc syn) k = 0x00 := by
  rw [(bmInvariant_bm syn t).coef_trim, (bmInvariant_bm syn t).lam.below k hk ht]

/-- The degree L is 0 exactly when all syndromes are zero (R221): without a discrepancy it stays 0, and Λ = 1 generates
zeros only. -/
theorem len_bm_eq_zero_iff (syn : List Byte) (t : Nat) : (bm syn t).len = 0 ↔ ∀ j, j < t → asc syn j = 0x00 := by
  constructor
  · intro hlen j hj
    have hinv := bmInvariant_bm syn t
    have hgen := hinv.lam.below j (by omega) hj
    rw [conv, xorSum_succ_first, hinv.lam_zero, one_gmul, Nat.sub_zero, xorSum_congr fun i _ => by
      rw [hinv.lam.degree (i + 1) (by omega), zero_gmul], xorSum_const_zero, gadd_zero] at hgen
    exact hgen
  · intro hsyn
    have hlen : ∀ i ≤ t, (bmAt syn t i).len = 0 := fun i hi => by
      induction i with
      | zero => rfl
      | succ i ih =>
        have hzero : discrepancy (bmAt syn t i).lam syn i = 0x00 := by
          rw [discrepancy_eq_conv, conv, xorSum_congr fun j hj => by rw [hsyn (i - j) (by omega), gmul_zero],
            xorSum_const_zero]
        rw [bmAt_succ, bmStep_of_zero hzero]
        exact ih (by omega)
    exact bm_eq_bmAt syn t ▸ hlen t le_rfl

/-- An iteration lengthens the register only from L to i + 1 - L, for a discrepancy (R220). -/
theorem len_bmStep_cases (syn : List Byte) (st : BMState) (i : Nat) : (bmStep syn st i).len = st.len ∨
    (discrepancy st.lam syn i ≠ 0x00 ∧ 2 * st.len ≤ i ∧ (bmStep syn st i).len = i + 1 - st.len) := by
  by_cases hd : discrepancy st.lam syn i = 0x00
  · exact .inl (by rw [bmStep_of_zero hd])
  by_cases hswap : 2 * st.len ≤ i
  · exact .inr ⟨hd, hswap, by rw [bmStep_of_swap hd hswap]⟩
  · exact .inl (by rw [bmStep_of_keep hd hswap])

end Sys2Proof.Machine
end

section
/-! SUPPORT. The roots of a locator and its derivative there (44_decoder.md R222, R224, R225): as many roots as its degree
are simple roots, and the value of the derivative at a root is that of the quotient by the root's factor. -/

namespace Sys2Proof.Machine

/-! ### The factor of a root -/

/-- The coefficients of a product with the factor x + a. -/
theorem coef_zero_pmul_linear (q : Poly) (a : Byte) : coef (pmul q [0x01, a]) 0 = gmul (coef q 0) a := by
  rw [coef_pmul, pcoefat, xorSum_succ, xorSum_zero, zero_gadd]
  rfl

theorem coef_succ_pmul_linear (q : Poly) (a : Byte) (j : Nat) :
    coef (pmul q [0x01, a]) (j + 1) = gadd (coef q j) (gmul (coef q (j + 1)) a) := by
  have hlow : ∀ i < j, gmul (coef q i) (coef [0x01, a] (j + 1 - i)) = 0x00 := fun i hi => by
    rw [coef_of_length_le (p := [0x01, a]) (show 2 ≤ j + 1 - i by omega), gmul_zero]
  rw [coef_pmul, pcoefat, xorSum_succ, xorSum_succ, xorSum_eq_of_le (Nat.zero_le j) fun i _ hi => hlow i hi, xorSum_zero,
    zero_gadd, Nat.add_sub_cancel_left, Nat.sub_self]
  exact congrArg₂ gadd (gmul_one _) rfl

/-- The terms of the sums in pairs. -/
theorem xorSum_two_mul (n : Nat) (f : Nat → Byte) :
    xorSum (2 * n) f = xorSum n (fun j => gadd (f (2 * j)) (f (2 * j + 1))) := by
  induction n with
  | zero => rfl
  | succ n ih => rw [xorSum_succ, ← ih, Nat.mul_succ, xorSum_succ, xorSum_succ, gadd_assoc]

/-- THE DERIVATIVE AT A ROOT is the value of the quotient by the root's factor: the coefficient of x^(2j+1) brings down the
quotient's terms of degree 2j and 2j + 1 (R166). -/
theorem peval_pderiv_of_root {p q : Poly} {a : Byte} (h : ∀ j, coef p j = coef (pmul q [0x01, a]) j) :
    peval (pderiv p) a = peval q a := by
  have hpair (j : Nat) : gmul (coef (pderiv p) (2 * j)) (gpow a (2 * j)) =
      gadd (gmul (coef q (2 * j)) (gpow a (2 * j))) (gmul (coef q (2 * j + 1)) (gpow a (2 * j + 1))) := by
    rw [coef_pderiv, if_pos (by omega), h, coef_succ_pmul_linear, gadd_gmul, gmul_assoc, gpow_succ]
  have hodd (j : Nat) : gmul (coef (pderiv p) (2 * j + 1)) (gpow a (2 * j + 1)) = 0x00 := by
    rw [coef_pderiv, if_neg (by omega), zero_gmul]
  have hle : (pderiv p).length ≤ 2 * (p.length + q.length) := by rw [length_pderiv]; omega
  rw [peval_eq_xorSum_of_le hle, peval_eq_xorSum_of_le (show q.length ≤ 2 * (p.length + q.length) by omega),
    xorSum_two_mul, xorSum_two_mul]
  exact xorSum_congr fun j _ => by rw [hodd, gadd_zero, hpair]

/-! ### Positions and their roots -/

theorem alpha_ne_zero (i : Nat) : alpha i ≠ 0x00 := gexp_ne_zero i

/-- The root α^(255-p) of a position is the inverse of its element (R222). -/
theorem gmul_gexp_root {p : Nat} (hp : p < 255) : gmul (gexp p) (alpha (255 - p)) = 0x01 := by
  rw [alpha, gmul_gexp, Nat.add_sub_cancel' hp.le]
  rfl

theorem ginvOf_alpha {p : Nat} (hp : p < 255) : ginvOf (alpha p) = alpha (255 - p) :=
  (eq_ginvOf_of_gmul_eq_one (alpha_ne_zero p) (gmul_gexp_root hp)).symm

theorem eq_of_positionRoot_eq {p q : Nat} (hp : p < 255) (hq : q < 255) (h : alpha (255 - p) = alpha (255 - q)) : p = q := by
  have := mod_eq_of_alpha_eq h
  omega

/-- The roots of a list of positions. -/
def positionRoots (ps : List Nat) : List Byte := ps.map (fun p => alpha (255 - p))

theorem nodup_positionRoots {ps : List Nat} (hps : ps.Nodup) (hlt : ∀ p ∈ ps, p < 255) : (positionRoots ps).Nodup :=
  hps.map_on fun p hp q hq h => eq_of_positionRoot_eq (hlt p hp) (hlt q hq) h

theorem nodup_findPositions (lam : Poly) : (findPositions lam).Nodup := (findPositions_sorted lam).imp Nat.ne_of_lt

/-- A polynomial that is zero at as many positions as it has entries is zero. -/
theorem coef_eq_zero_of_positions {ps : List Nat} (hps : ps.Nodup) (hlt : ∀ p ∈ ps, p < 255) {q : Poly}
    (hlen : q.length ≤ ps.length) (hroot : ∀ p ∈ ps, peval q (alpha (255 - p)) = 0x00) (j : Nat) : coef q j = 0x00 :=
  coef_eq_zero_of_roots (nodup_positionRoots hps hlt) (by rwa [positionRoots, List.length_map])
    (by rwa [positionRoots, List.forall_mem_map]) j

/-- A locator with Λ(0) = 1 has at most its degree of positions (R225). -/
theorem length_findPositions_lt {lam : Poly} (h0 : coef lam 0 = 0x01) : (findPositions lam).length < lam.length := by
  by_contra hle
  have hzero := coef_eq_zero_of_positions (nodup_findPositions lam) (fun p hp => (mem_findPositions.1 hp).1)
    (Nat.le_of_not_lt hle) (fun p hp => (mem_findPositions.1 hp).2) 0
  rw [h0] at hzero
  exact absurd hzero (by decide)

/-- WHERE THE POSITIONS ARE AS MANY AS THE DEGREE, THE DERIVATIVE IS ZERO AT NONE (R225): a zero there makes the quotient
by the root's factor zero at all the positions, hence zero, hence the locator zero. -/
theorem derivativeAt_ne_zero {lam : Poly} (h0 : coef lam 0 = 0x01) (hlen : (findPositions lam).length + 1 = lam.length)
    {p : Nat} (hp : p ∈ findPositions lam) : derivativeAt lam p ≠ 0x00 := by
  intro hder
  obtain ⟨hp255, hroot⟩ := mem_findPositions.1 hp
  obtain ⟨q, hq, hcoef⟩ := exists_quotient_of_root hroot
  rw [derivativeAt, peval_pderiv_of_root hcoef] at hder
  have hqroot : ∀ k ∈ findPositions lam, peval q (alpha (255 - k)) = 0x00 := fun k hk => by
    obtain ⟨hk255, hkroot⟩ := mem_findPositions.1 hk
    rw [peval_congr hcoef, peval_pmul, peval_linear, gmul_eq_zero_iff, gadd_eq_zero_iff] at hkroot
    refine hkroot.elim id fun h => ?_
    rwa [h]
  have hqzero := coef_eq_zero_of_positions (nodup_findPositions lam) (fun k hk => (mem_findPositions.1 hk).1)
    (by omega) hqroot 0
  rw [hcoef, coef_zero_pmul_linear, hqzero, zero_gmul] at h0
  exact absurd h0 (by decide)

end Sys2Proof.Machine
end

section
/-! SUPPORT. Forney and repair (44_decoder.md R223 to R225): which error word the magnitudes form, and the ends of
repair. -/

namespace Sys2Proof.Machine

/-! ### The position check -/

theorem positionsValid_iff {pos : List Nat} {npos ldeg n : Nat} :
    positionsValid pos npos ldeg n = true ↔ npos = ldeg ∧ ∀ p ∈ pos, p < n := by
  simp [positionsValid]

/-! ### The magnitudes -/

/-- The numerator of the magnitude at a position (R224). -/
theorem peval_errorEvaluator (syn : List Byte) (t : Nat) (lam : Poly) (p : Nat) :
    peval (errorEvaluator syn t lam) (alpha (255 - p)) = evaluatorAt syn t lam p := by
  have hlen : (errorEvaluator syn t lam).length = t := by simp [errorEvaluator]
  rw [peval_eq_xorSum, hlen, evaluatorAt]
  refine xorSum_congr fun j hj => congrArg (gmul · _) ?_
  rw [errorEvaluator, coef_map_range, if_pos hj, coef_pmul]

/-- `e` is the error word of n entries with the magnitudes of the positions `pos`: e·Λ' = Ω at X⁻¹ for each of them, and
zero elsewhere (R224). -/
structure IsErrorWord (syn : List Byte) (t : Nat) (lam : Poly) (pos : List Nat) (n : Nat) (e : List Byte) : Prop where
  length : e.length = n
  magnitude : ∀ p ∈ pos, gmul (e.getD (n - 1 - p) 0x00) (derivativeAt lam p) = evaluatorAt syn t lam p
  elsewhere : ∀ i, (∀ p ∈ pos, i ≠ n - 1 - p) → e.getD i 0x00 = 0x00

section Forney

variable {syn : List Byte} {t : Nat} {lam : Poly} {n : Nat}

/-- The magnitude of a position (R224). -/
def magnitude (syn : List Byte) (t : Nat) (lam : Poly) (p : Nat) : Byte :=
  gquot (evaluatorAt syn t lam p) (derivativeAt lam p)

theorem forneyLoop_cons {p : Nat} (hp : p < 255) (pos : List Nat) (e : List Byte) :
    forneyLoop (errorEvaluator syn t lam) (pderiv lam) n (p :: pos) e =
      if derivativeAt lam p = 0x00 then .error .magnitudeUndefined
      else forneyLoop (errorEvaluator syn t lam) (pderiv lam) n pos (e.set (n - 1 - p) (magnitude syn t lam p)) := by
  rw [magnitude, ← peval_errorEvaluator, derivativeAt, ← ginvOf_alpha hp]
  rfl

theorem forneyLoop_fault {pos : List Nat} (hpos : ∀ p ∈ pos, p < 255) (h : ∃ p ∈ pos, derivativeAt lam p = 0x00)
    (e : List Byte) :
    forneyLoop (errorEvaluator syn t lam) (pderiv lam) n pos e = .error .magnitudeUndefined := by
  induction pos generalizing e with
  | nil => obtain ⟨p, hp, -⟩ := h; cases hp
  | cons p pos ih =>
    obtain ⟨hp, hpos⟩ := List.forall_mem_cons.1 hpos
    rw [forneyLoop_cons hp]
    split_ifs with h0
    · rfl
    · exact ih hpos (((List.exists_mem_cons_iff ..).1 h).resolve_left h0) _

/-- Without a zero derivative the loop sets the magnitudes at their entries and nothing else. -/
theorem exists_forneyLoop_ok {pos : List Nat} (hpos : ∀ p ∈ pos, p < 255 ∧ p < n)
    (h : ∀ p ∈ pos, derivativeAt lam p ≠ 0x00) {e : List Byte} (he : e.length = n) :
    ∃ e', forneyLoop (errorEvaluator syn t lam) (pderiv lam) n pos e = .ok e' ∧ ∀ i,
      e'.getD i 0x00 = if ∃ p ∈ pos, i = n - 1 - p then magnitude syn t lam (n - 1 - i) else e.getD i 0x00 := by
  induction pos generalizing e with
  | nil => exact ⟨e, rfl, fun i => by simp⟩
  | cons p pos ih =>
    obtain ⟨⟨hp255, hpn⟩, hpos⟩ := List.forall_mem_cons.1 hpos
    obtain ⟨hp0, h⟩ := List.forall_mem_cons.1 h
    obtain ⟨e', hloop, hget⟩ := ih hpos h (e := e.set (n - 1 - p) (magnitude syn t lam p)) (by rwa [List.length_set])
    refine ⟨e', by rw [forneyLoop_cons hp255, if_neg hp0, hloop], fun i => ?_⟩
    rw [hget]
    by_cases hi : i = n - 1 - p
    · subst hi
      have hset : (e.set (n - 1 - p) (magnitude syn t lam p)).getD (n - 1 - p) 0x00 = magnitude syn t lam p := by
        simp [List.getD_eq_getElem?_getD, show n - 1 - p < e.length by omega]
      rw [hset, show n - 1 - (n - 1 - p) = p by omega, ite_self, if_pos ⟨p, List.mem_cons_self, rfl⟩]
    · have hset : (e.set (n - 1 - p) (magnitude syn t lam p)).getD i 0x00 = e.getD i 0x00 := by
        simp [List.getD_eq_getElem?_getD, Ne.symm hi]
      rw [hset]
      exact if_congr (by simp [hi]) rfl rfl

theorem forney_fault {pos : List Nat} (hpos : ∀ p ∈ pos, p < 255) (h : ∃ p ∈ pos, derivativeAt lam p = 0x00) :
    forney syn t lam pos n = .error .magnitudeUndefined := forneyLoop_fault hpos h _

/-- FORNEY GIVES THE ERROR WORD of the magnitudes where the derivative is zero at no position (R224). -/
theorem exists_forney_ok {pos : List Nat} (hpos : ∀ p ∈ pos, p < 255 ∧ p < n)
    (h : ∀ p ∈ pos, derivativeAt lam p ≠ 0x00) :
    ∃ e, forney syn t lam pos n = .ok e ∧ IsErrorWord syn t lam pos n e := by
  obtain ⟨e, hloop, hget⟩ := exists_forneyLoop_ok (syn := syn) (t := t) hpos h (List.length_replicate (n := n) (a := 0x00))
  refine ⟨e, hloop, (length_forneyLoop hloop).trans List.length_replicate, fun p hp => ?_, fun i hi => ?_⟩
  · rw [hget, if_pos ⟨p, hp, rfl⟩, show n - 1 - (n - 1 - p) = p by have := (hpos p hp).2; omega, gmul_comm, magnitude,
      gmul_gquot _ (h p hp)]
  · rw [hget, if_neg (by simpa using hi)]
    exact asc_replicate_zero n i

end Forney

/-! ### Repair -/

section Repair

variable {r : List Byte} {t : Nat}

theorem repairWord_of_valid (h : ValidWord r t) : repairWord r t = .ok r := if_pos ((allZero_syndromes_iff r t).2 h)

theorem positionsValid_repair_iff : positionsValid (repairPositions r t) (repairPositions r t).length
    (bm (syndromes r t) t).len r.length = true ↔ RepairPositionsValid r t := positionsValid_iff

theorem repairWord_of_not_positionsValid (h : ¬ ValidWord r t) (hpos : ¬ RepairPositionsValid r t) :
    repairWord r t = .error .uncorrectable := by
  rw [repairWord, if_neg (mt (allZero_syndromes_iff r t).1 h)]
  exact if_neg (mt positionsValid_repair_iff.1 hpos)

/-- Where the positions pass the check and Forney gives an error word, repair ends in the final check of it (R225). -/
theorem repairWord_of_forney_ok (h : ¬ ValidWord r t) (hpos : RepairPositionsValid r t) {e : List Byte}
    (he : forney (syndromes r t) t (repairLocator r t).2 (repairPositions r t) r.length = .ok e) :
    repairWord r t = finalCheck r t e := by
  rw [repairLocator, repairPositions, repairLocator] at he
  rw [repairWord, if_neg (mt (allZero_syndromes_iff r t).1 h)]
  dsimp only at he ⊢
  rw [he]
  exact if_pos (positionsValid_repair_iff.2 hpos)

/-- The derivative is zero at none of the positions that pass repair's check (R225). -/
theorem derivativeAt_repairLocator_ne_zero (hpos : RepairPositionsValid r t) {p : Nat} (hp : p ∈ repairPositions r t) :
    derivativeAt (repairLocator r t).2 p ≠ 0x00 :=
  derivativeAt_ne_zero (coef_zero_trim_bm _ _) ((congrArg (· + 1) hpos.1).trans (length_trim _).symm) hp

/-- Where the positions pass the check, repair ends in the final check of the one error word of the magnitudes (R225). -/
theorem exists_repairWord_eq_finalCheck (h : ¬ ValidWord r t) (hpos : RepairPositionsValid r t) :
    ∃ e, IsErrorWord (syndromes r t) t (repairLocator r t).2 (repairPositions r t) r.length e ∧
      repairWord r t = finalCheck r t e := by
  obtain ⟨e, hforney, he⟩ := exists_forney_ok (syn := syndromes r t) (t := t) (pos := repairPositions r t)
    (fun p hp => ⟨(mem_findPositions.1 hp).1, hpos.2 p hp⟩) (fun p hp => derivativeAt_repairLocator_ne_zero hpos hp)
  exact ⟨e, he, repairWord_of_forney_ok h hpos hforney⟩

theorem finalCheck_of_valid {e : List Byte} (h : ValidWord (List.zipWith gadd r e) t) :
    finalCheck r t e = .ok (List.zipWith gadd r e) := if_pos ((allZero_syndromes_iff _ t).2 h)

theorem finalCheck_of_not_valid {e : List Byte} (h : ¬ ValidWord (List.zipWith gadd r e) t) :
    finalCheck r t e = .error .uncorrectable := if_neg (mt (allZero_syndromes_iff _ t).1 h)

/-- Repair gives a valid word of its length, or faults with UNCORRECTABLE (R225). -/
theorem repairWord_cases (r : List Byte) (t : Nat) :
    (∃ c, repairWord r t = .ok c ∧ c.length = r.length ∧ ValidWord c t) ∨ repairWord r t = .error .uncorrectable := by
  rcases h : repairWord r t with x | c
  · exact .inr (by rw [repairWord_error h])
  · obtain ⟨hlen, hzero⟩ := repairWord_ok h
    exact .inl ⟨c, rfl, hlen, (allZero_syndromes_iff c t).1 hzero⟩

end Repair

end Sys2Proof.Machine
end

section
/-! SUPPORT. How a decoder command ends (44_decoder.md R226 to R230; 30_encoding.md R91): what each leaves, in the terms of
the decoder's functions. -/

namespace Sys2Proof.Machine

theorem Succeeds.count_eq {rs : List Reg} {bs : List Buf} {s u : State} (h : Succeeds rs bs s u) {r : Reg}
    (hr : r ∉ Reg.status :: .cause :: rs) : u.count r = s.count r := by
  obtain ⟨-, -, hregs, -⟩ := h
  exact congrArg BitVec.toNat (hregs r hr)

theorem Succeeds.entry_eq {rs : List Reg} {bs : List Buf} {s u : State} (h : Succeeds rs bs s u) {b : Buf} (hb : b ∉ bs)
    {i : Nat} (hi : i < 256) : u.entry b i = s.entry b i := by
  obtain ⟨-, -, -, hbytes, -⟩ := h
  refine hbytes _ fun c hc hin => ?_
  have hapart := Buf.base_apart (b := b) (c := c) (fun h => hb (h ▸ hc))
  rw [Buf.holds] at hin
  omega

theorem getD_receivedWord (s : State) {i : Nat} (h : i < s.count .n) : (receivedWord s).getD i 0x00 = s.entry .buf i :=
  getD_entries s .buf h

/-- The received word after a word of its length was written into BUF. -/
theorem BufHolds.receivedWord {u : State} {c : List Byte} (h : BufHolds u .buf c) (hlen : c.length = u.count .n) :
    receivedWord u = c := by rw [Machine.receivedWord, ← hlen, h.entries]

/-- The first entries of the received word. -/
theorem getD_take_receivedWord (s : State) {m : Nat} (hm : m ≤ s.count .n) (i : Nat) :
    ((receivedWord s).take m).getD i 0x00 = if i < m then s.entry .buf i else 0x00 := by
  split_ifs with h
  · rw [List.getD_eq_getElem?_getD, List.getElem?_take_of_lt h, ← List.getD_eq_getElem?_getD,
      getD_receivedWord s (by omega)]
  · exact List.getD_eq_default _ _ (by rw [List.length_take, length_receivedWord]; omega)

theorem length_trim_bm_le (syn : List Byte) (s : State) : (trim (bm syn (s.count .t))).length ≤ 256 := by
  have hlen := len_bm_le syn (s.count .t)
  have hle := count_le s .t
  rw [length_trim]
  omega

/-- LOCATOR leaves the trimmed locator of the syndromes and its degree (R226). -/
theorem exec_locator {s : State} (ht : s.count .t ≠ 0) :
    ∃ u, exec .locator s = .next u ∧ Succeeds [.ldeg] [.lam] s u ∧
      BufHolds u .lam (trim (bm (syndromeVector s) (s.count .t))) ∧
      u.count .ldeg = (bm (syndromeVector s) (s.count .t)).len := by
  have hlen := len_bm_le (syndromeVector s) (s.count .t)
  have hle := count_le s .t
  exact exec_of_commits_buf_count (i := .locator) (afterT_ok ht _) (length_trim_bm_le _ s) (by omega) (by decide)

/-- POSITIONS leaves the positions of the locator, their number and whether they are valid (R227). -/
theorem exec_positions (s : State) :
    ∃ u, exec .positions s = .next u ∧ Succeeds [.npos, .y] [.pos] s u ∧
      BufHolds u .pos ((findPositions (locatorPoly s)).map countByte) ∧
      u.count .npos = (findPositions (locatorPoly s)).length ∧
      u.reg .y = boolByte (positionsValid (findPositions (locatorPoly s)) (findPositions (locatorPoly s)).length
        (s.count .ldeg) (s.count .n)) := by
  have hlen := length_findPositions (locatorPoly s)
  refine ⟨_, exec_of_commits_ok rfl,
    (((Frame.refl _ _ s).setBuf (b := .pos) (by simp) _).setReg (r := .npos) (by simp) _).setReg (r := .y) (by simp) _
      |>.succeeds, (((bufHolds_setBuf s .pos (by rw [List.length_map]; omega)).setReg .npos _).setReg .y _).complete,
    ?_, rfl⟩
  exact toNat_countByte (by omega)

section Repair

variable {s : State} (ht : s.count .t ≠ 0) (hn : s.count .t ≤ s.count .n)
include ht hn

theorem commits_repair : commits .repair s =
    (repairWord (receivedWord s) (s.count .t)).map (fun c => [.buf .buf c]) := afterTN_ok ht hn _

theorem commits_decode : commits .decode s = (repairWord (receivedWord s) (s.count .t)).map (writesMessage s) :=
  afterTN_ok ht hn _

/-- REPAIR leaves the word that repair gives (R229). -/
theorem exec_repair_of_ok {c : List Byte} (h : repairWord (receivedWord s) (s.count .t) = .ok c) :
    ∃ u, exec .repair s = .next u ∧ Succeeds [] [.buf] s u ∧ BufHolds u .buf c := by
  have hlen := (repairWord_ok h).1
  have hle := count_le s .n
  rw [length_receivedWord] at hlen
  exact exec_of_commits_buf (by rw [commits_repair ht hn, h]; rfl) (by omega)

theorem exec_repair_of_error (h : repairWord (receivedWord s) (s.count .t) = .error .uncorrectable) :
    ∃ u, exec .repair s = .next u ∧ FaultsWith 0x02 s u :=
  exec_faultsWith (c := .uncorrectable) (by rw [commits_repair ht hn, h]; rfl)

/-- DECODE leaves the message of the word that repair gives (R230). -/
theorem exec_decode_of_ok {c : List Byte} (h : repairWord (receivedWord s) (s.count .t) = .ok c) :
    ∃ u, exec .decode s = .next u ∧ Succeeds [.k] [.buf] s u ∧ BufHolds u .buf (c.take (s.count .n - s.count .t)) ∧
      u.count .k = s.count .n - s.count .t := by
  have hle := count_le s .n
  exact exec_of_commits_buf_count (by rw [commits_decode ht hn, h]; rfl)
    (by rw [List.length_take]; omega) (by omega) (by decide)

theorem exec_decode_of_error (h : repairWord (receivedWord s) (s.count .t) = .error .uncorrectable) :
    ∃ u, exec .decode s = .next u ∧ FaultsWith 0x02 s u :=
  exec_faultsWith (c := .uncorrectable) (by rw [commits_decode ht hn, h]; rfl)

end Repair

/-- REPAIR and DECODE fault alike, or repair gives a word to both. -/
theorem commits_repair_cases (s : State) : (∃ x, commits .repair s = .error x ∧ commits .decode s = .error x) ∨
    (s.count .t ≠ 0 ∧ s.count .t ≤ s.count .n ∧ ∃ c, repairWord (receivedWord s) (s.count .t) = .ok c) := by
  by_cases hconf : s.count .t = 0 ∨ s.count .n < s.count .t
  · exact .inl ⟨_, afterTN_fault hconf _, afterTN_fault hconf _⟩
  · obtain ⟨ht, hn⟩ := not_or.1 hconf
    have hn := Nat.le_of_not_lt hn
    rcases hword : repairWord (receivedWord s) (s.count .t) with x | c
    · exact .inl ⟨x, by rw [commits_repair ht hn, hword]; rfl, by rw [commits_decode ht hn, hword]; rfl⟩
    · exact .inr ⟨ht, hn, c, rfl⟩

/-! ### The locator and the positions a command reads -/

theorem BufHolds.locatorPoly {u : State} {lam : Poly} (h : BufHolds u .lam lam) (hlen : lam.length = u.count .ldeg + 1) :
    locatorPoly u = lam := by rw [Machine.locatorPoly, ← hlen, h.entries]

theorem Succeeds.locatorPoly_eq {rs : List Reg} {bs : List Buf} {s u : State} (h : Succeeds rs bs s u)
    (hr : Reg.ldeg ∉ Reg.status :: .cause :: rs) (hb : Buf.lam ∉ bs) : locatorPoly u = locatorPoly s := by
  have hle := count_le s .ldeg
  rw [locatorPoly, h.count_eq hr]
  exact entries_congr fun i hi => h.entry_eq hb (by omega)

/-- The positions that POSITIONS left, as MAGNITUDES reads them. -/
theorem BufHolds.positionList {u : State} {pos : List Nat} (h : BufHolds u .pos (pos.map countByte))
    (hnum : u.count .npos = pos.length) (hlt : ∀ p ∈ pos, p < 255) : positionList u = pos := by
  rw [Machine.positionList, hnum, ← List.length_map (f := countByte), h.entries, List.map_map]
  exact (List.map_congr_left fun p hp => toNat_countByte (by have := hlt p hp; omega)).trans (List.map_id _)

theorem mem_positionList {s : State} {p : Nat} :
    p ∈ positionList s ↔ ∃ k < s.count .npos, (s.entry .pos k).toNat = p := by
  simp [positionList, State.entries]

theorem forall_mem_positionList {s : State} {q : Nat → Prop} :
    (∀ p ∈ positionList s, q p) ↔ ∀ k, k < s.count .npos → q (s.entry .pos k).toNat := by
  simp [positionList, State.entries]

theorem evaluatorAt_syndromeVector (s : State) (lam : Poly) (p : Nat) :
    evaluatorAt (syndromeVector s) (s.count .t) lam p = xorSum (s.count .t) (fun j => gmul
      (pcoefat ((List.range (s.count .t)).map (fun i => s.entry .syn (s.count .t - 1 - i))) lam j)
      (gpow (alpha (255 - p)) j)) := by
  have hsyn : (List.range (s.count .t)).map (fun i => (syndromeVector s).getD (s.count .t - 1 - i) 0x00) =
      (List.range (s.count .t)).map (fun i => s.entry .syn (s.count .t - 1 - i)) :=
    List.map_congr_left fun i hi => getD_entries s .syn (by have := List.mem_range.1 hi; omega)
  rw [evaluatorAt, hsyn]

section Magnitudes

variable {s : State} (ht : s.count .t ≠ 0) (hn : s.count .t ≤ s.count .n)
include ht hn

theorem commits_magnitudes : commits .magnitudes s =
    if positionsValid (positionList s) (s.count .npos) (s.count .ldeg) (s.count .n) then
      (forney (syndromeVector s) (s.count .t) (locatorPoly s) (positionList s) (s.count .n)).map (fun e => [.buf .emag e])
    else .error .uncorrectable := afterTN_ok ht hn _

/-- MAGNITUDES leaves the error word of its positions where they pass the check and the derivative is zero at none
(R228). -/
theorem exec_magnitudes (hpos : s.count .npos = s.count .ldeg ∧ ∀ p ∈ positionList s, p < s.count .n)
    (hden : ∀ p ∈ positionList s, derivativeAt (locatorPoly s) p ≠ 0x00) :
    ∃ u e, exec .magnitudes s = .next u ∧ Succeeds [] [.emag] s u ∧ BufHolds u .emag e ∧
      IsErrorWord (syndromeVector s) (s.count .t) (locatorPoly s) (positionList s) (s.count .n) e := by
  have hle := count_le s .n
  obtain ⟨e, hforney, he⟩ := exists_forney_ok (syn := syndromeVector s) (t := s.count .t) (pos := positionList s)
    (fun p hp => ⟨by have := hpos.2 p hp; omega, hpos.2 p hp⟩) hden
  obtain ⟨u, hexec, hsucc, hbuf⟩ := exec_of_commits_buf (i := .magnitudes) (s := s) (b := .emag) (vs := e)
    (by rw [commits_magnitudes ht hn, if_pos (positionsValid_iff.2 hpos), hforney]; rfl) (by rw [he.length]; omega)
  exact ⟨u, e, hexec, hsucc, hbuf, he⟩

end Magnitudes

/-! ### A buffer written twice -/

/-- A filter that keeps no cell of the window sees nothing of what fills it. -/
theorem Memory.filter_fill {p : Host.Cell → Bool} {base : Nat}
    (hp : ∀ c, base ≤ c.1 → c.1 < base + Config.bufferSize → p c = false) (m : Memory) (vs : List Byte) :
    (Memory.fill m base vs).filter p = (m.filter (fun c => decide (c.1 < base))).filter p ++
      (m.filter (fun c => decide (base + Config.bufferSize ≤ c.1))).filter p := by
  have hmid : (Memory.listed base (vs.take Config.bufferSize)).filter p = [] :=
    List.filter_eq_nil_iff.2 fun c hc => by
      have hin := Memory.mem_listed hc
      have hlen : (vs.take Config.bufferSize).length ≤ Config.bufferSize := by simp
      rw [hp c hin.1 (by omega)]
      decide
  rw [Memory.fill, List.filter_append, List.filter_append, hmid, List.nil_append]

/-- A fill of a window leaves no trace of a fill of it before. -/
theorem Memory.fill_fill (m : Memory) (base : Nat) (vs ws : List Byte) :
    Memory.fill (Memory.fill m base vs) base ws = Memory.fill m base ws := by
  have hapart : ∀ c : Host.Cell, ¬ (c.1 < base ∧ base + Config.bufferSize ≤ c.1) := fun c => by omega
  have hlowhigh : (m.filter (fun c => decide (c.1 < base))).filter
      (fun c => decide (base + Config.bufferSize ≤ c.1)) = [] :=
    List.filter_eq_nil_iff.2 fun c hc h => hapart c ⟨by simpa using (List.mem_filter.1 hc).2, by simpa using h⟩
  have hhighlow : (m.filter (fun c => decide (base + Config.bufferSize ≤ c.1))).filter
      (fun c => decide (c.1 < base)) = [] :=
    List.filter_eq_nil_iff.2 fun c hc h => hapart c ⟨by simpa using h, by simpa using (List.mem_filter.1 hc).2⟩
  rw [Memory.fill, Memory.filter_fill (fun c h _ => by simpa using h), Memory.filter_fill (fun c _ h => by simpa using h),
    hlowhigh, hhighlow, List.filter_filter, List.filter_filter]
  simp only [Bool.and_self, List.append_nil, List.nil_append]
  rfl

/-- A success that writes a buffer and a register leaves no trace of a success before it that wrote the same buffer. -/
theorem complete_setBuf_setReg_complete (s : State) (b : Buf) (vs ws : List Byte) (r : Reg) (v : Byte) :
    complete (((complete (s.setBuf b vs)).setBuf b ws).setReg r v) = complete ((s.setBuf b ws).setReg r v) := by
  refine State.ext_reg (fun q => ?_) ?_ ?_ ?_ ?_ ?_ ?_
  · simp only [reg_complete, reg_setReg, reg_setBuf]
    split_ifs <;> rfl
  · simp only [mem_complete, mem_setReg, mem_setBuf, Memory.fill_fill]
  all_goals simp

/-- STRIP on a repaired word leaves what DECODE leaves on the received one (R230). -/
theorem exec_strip_repaired {s : State} (ht : s.count .t ≠ 0) (hn : s.count .t ≤ s.count .n) {c : List Byte}
    (hlen : c.length = s.count .n) :
    exec .strip (complete (s.setBuf .buf c)) = .next (complete (s.commit (writesMessage s c))) := by
  have hle := count_le s .n
  have hrecv : receivedWord (complete (s.setBuf .buf c)) = c := (bufHolds_setBuf s .buf (by omega)).receivedWord hlen
  have hcommits : commits .strip (complete (s.setBuf .buf c)) = .ok (writesMessage s c) :=
    (afterTN_ok (s := complete (s.setBuf .buf c)) ht hn _).trans (by rw [hrecv]; rfl)
  rw [exec_of_commits_ok hcommits]
  exact congrArg Host.Outcome.next (complete_setBuf_setReg_complete s .buf c _ .k _)

end Sys2Proof.Machine
end

section
/-! PROOF. O41 to O43: the locator and the positions. -/

open Sys2Proof Sys2Proof.Machine

/-- Settles O41: the invariant of Berlekamp-Massey at its end. -/
theorem locatorResult : Obligations.LocatorResult := by
  refine ⟨rfl, fun s => ⟨fun ht => ⟨_, exec_unconfigured (by decide) ht, raise_faultsWith _ s⟩, fun ht => ?_⟩⟩
  have hinv := bmInvariant_bm (syndromeVector s) (s.count .t)
  obtain ⟨u, hexec, hsucc, hlam, hldeg⟩ := exec_locator ht
  have hlen := len_bm_le (syndromeVector s) (s.count .t)
  have hle := count_le s .t
  refine ⟨u, hexec, hsucc, hlam, hldeg, hldeg ▸ hlen, by rw [hldeg, length_trim], ?_, hldeg ▸ hinv.lam.degree, ?_⟩
  · rw [hldeg, hlam.2 _ (by omega), getD_trim _ le_rfl, Nat.sub_self, hinv.lam_zero]
  · rw [hldeg, len_bm_eq_zero_iff]
    exact forall₂_congr fun j hj => by rw [asc, syndromeVector, getD_entries s .syn hj]

/-- Settles O42: the convolution of the locator with the syndromes, which ends at the locator's degree. -/
theorem locatorGeneratesSyndromes : Obligations.LocatorGeneratesSyndromes := by
  intro s u ht hu i hi hit
  obtain ⟨v, hv, -, hlam, hldeg⟩ := exec_locator ht
  obtain rfl : v = u := Host.Outcome.next.inj (hv.symm.trans hu)
  have hinv := bmInvariant_bm (syndromeVector s) (s.count .t)
  have hlen := hinv.len_le
  have hle := count_le s .t
  rw [hldeg] at hi ⊢
  refine (xorSum_congr fun j hj => ?_).trans ((xorSum_eq_of_le (by omega) fun j hj _ => ?_).symm.trans
    (hinv.lam.below i hi hit))
  · rw [hlam.2 _ (by omega), getD_trim _ (Nat.sub_le _ _), Nat.sub_sub_self (by omega)]
    exact congrArg (gmul _) (getD_entries s .syn (show i - j < s.count .t by omega)).symm
  · rw [hinv.lam.degree j (by omega), zero_gmul]

/-- Settles O43: POSITIONS commits the sweep over 0..254, filtered in order, and the check of what it found. -/
theorem positionsResult : Obligations.PositionsResult := by
  refine ⟨rfl, fun s => ?_⟩
  obtain ⟨u, hexec, hsucc, hpos, hnpos, hy⟩ := exec_positions s
  refine ⟨u, _, hexec, hsucc, hpos, hnpos, findPositions_sorted _, fun p => mem_findPositions, hy ▸ boolByte_cases _, ?_⟩
  rw [hy, boolByte_eq_one_iff, positionsValid_iff]
end

section
/-! PROOF. O44: the magnitudes. -/

open Sys2Proof Sys2Proof.Machine

/-- Settles O44: the checks in their order, and the error word of the positions. -/
theorem magnitudesResult : Obligations.MagnitudesResult := by
  refine ⟨rfl, fun s => ⟨exec_misconfigured rfl, fun ht hn hpos => ?_, fun ht hn hnpos hlt hden => ?_,
    fun ht hn hnpos hlt hden => ?_⟩⟩
  · rw [← forall_mem_positionList (q := (· < s.count .n)), ← positionsValid_iff] at hpos
    exact exec_faultsWith (c := .uncorrectable) (by rw [commits_magnitudes ht hn, if_neg hpos])
  · have hle := count_le s .n
    have hlt := (forall_mem_positionList (q := (· < s.count .n))).2 hlt
    have hzero : ∃ p ∈ positionList s, derivativeAt (locatorPoly s) p = 0x00 := by
      obtain ⟨k, hk, hden⟩ := hden
      exact ⟨_, mem_positionList.2 ⟨k, hk, rfl⟩, hden⟩
    refine exec_faultsWith (c := .magnitudeUndefined) ?_
    rw [commits_magnitudes ht hn, if_pos (positionsValid_iff.2 ⟨hnpos, hlt⟩),
      forney_fault (fun p hp => by have := hlt p hp; omega) hzero]
    rfl
  · have hle := count_le s .n
    obtain ⟨u, e, hexec, hsucc, ⟨-, hemag⟩, he⟩ := exec_magnitudes ht hn
      ⟨hnpos, forall_mem_positionList.2 hlt⟩ (forall_mem_positionList.2 hden)
    refine ⟨u, hexec, hsucc, fun k hk => ?_, fun i hi hother => ?_⟩
    · rw [hemag _ (by omega)]
      exact (he.magnitude _ (mem_positionList.2 ⟨k, hk, rfl⟩)).trans (evaluatorAt_syndromeVector s _ _)
    · rw [hemag i hi]
      exact he.elsewhere i (forall_mem_positionList.2 hother)
end

section
/-! PROOF. O50, O53: the derivative is zero at no position that passes the check. -/

open Sys2Proof Sys2Proof.Machine

/-- Settles O53: the locator has Λ(0) = 1 and as many positions as its degree, so all its roots are simple. -/
theorem repairNeverUndefined : Obligations.RepairNeverUndefined :=
  fun _ _ hpos _ hp => derivativeAt_repairLocator_ne_zero hpos hp

/-- Settles O50: the locator and the positions that MAGNITUDES reads are those that LOCATOR and POSITIONS left. -/
theorem stepChainNeverUndefined : Obligations.StepChainNeverUndefined := by
  intro s u w x ht hn hu hw hy hx
  obtain ⟨u', hu', hsu, hlam, hldeg⟩ := exec_locator ht
  obtain rfl : u' = u := Host.Outcome.next.inj (hu'.symm.trans hu)
  obtain ⟨w', hw', hsw, hpos, hnpos, hyw⟩ := exec_positions u'
  obtain rfl : w' = w := Host.Outcome.next.inj (hw'.symm.trans hw)
  have hlocu : locatorPoly u' = trim (bm (syndromeVector s) (s.count .t)) :=
    hlam.locatorPoly (by rw [length_trim, hldeg])
  have hlocw : locatorPoly w' = locatorPoly u' := hsw.locatorPoly_eq (by decide) (by decide)
  have hposw : positionList w' = findPositions (locatorPoly u') :=
    hpos.positionList hnpos fun p hp => (mem_findPositions.1 hp).1
  rw [hyw, boolByte_eq_one_iff, positionsValid_iff] at hy
  obtain ⟨hnum, hlt⟩ := hy
  have htw : w'.count .t = s.count .t := (hsw.count_eq (by decide)).trans (hsu.count_eq (by decide))
  have hnw : w'.count .n = u'.count .n := hsw.count_eq (by decide)
  have hnu : u'.count .n = s.count .n := hsu.count_eq (by decide)
  obtain ⟨y, -, hy, ⟨hstatus, hcause, -⟩, -⟩ := exec_magnitudes (s := w') (by omega) (by omega)
    ⟨by rw [hnpos, hnum, hsw.count_eq (by decide)], by rwa [hposw, hnw]⟩ fun p hp => by
      rw [hposw] at hp
      rw [hlocw]
      refine derivativeAt_ne_zero ?_ ?_ hp
      · rw [hlocu, coef_zero_trim_bm]
      · rw [hnum, length_locatorPoly]
  obtain rfl : y = x := Host.Outcome.next.inj (hy.symm.trans hx)
  exact ⟨hstatus, hcause⟩
end

section
/-! PROOF. O45 to O47: REPAIR and DECODE. -/

open Sys2Proof Sys2Proof.Machine

/-- Settles O45: the ends of repair, each with the end of the command. -/
theorem repairResult : Obligations.RepairResult := by
  refine ⟨rfl, fun s => ⟨exec_misconfigured rfl, fun ht hn hvalid => ?_, fun ht hn _ => ?_, fun ht hn hvalid hpos => ?_,
    fun ht hn hvalid hpos _ => ?_⟩⟩
  · exact exec_repair_of_ok ht hn (repairWord_of_valid hvalid)
  · rcases repairWord_cases (receivedWord s) (s.count .t) with ⟨c, hc, hlen, hvalid⟩ | herr
    · obtain ⟨u, hexec, hsucc, hbuf⟩ := exec_repair_of_ok ht hn hc
      have hu := hbuf.receivedWord (hlen.trans ((length_receivedWord s).trans (hsucc.count_eq (by decide)).symm))
      exact ⟨u, hexec, .inl ⟨hsucc, hu ▸ hbuf, hu ▸ hvalid⟩⟩
    · obtain ⟨u, hexec, hfault⟩ := exec_repair_of_error ht hn herr
      exact ⟨u, hexec, .inr hfault⟩
  · exact exec_repair_of_error ht hn (repairWord_of_not_positionsValid hvalid hpos)
  · obtain ⟨e, he, hrepair⟩ := exists_repairWord_eq_finalCheck hvalid hpos
    rw [length_receivedWord] at he
    have hlen : (List.zipWith gadd (receivedWord s) e).length = s.count .n := by
      rw [List.length_zipWith, length_receivedWord, he.length, min_self]
    have hget : ∀ i, i < s.count .n →
        (List.zipWith gadd (receivedWord s) e).getD i 0x00 = s.entry .buf i ^^^ e.getD i 0x00 := fun i hi => by
      rw [getD_zipWith_gadd (by rw [length_receivedWord, he.length]), getD_receivedWord s hi]
      rfl
    by_cases hc : ValidWord (List.zipWith gadd (receivedWord s) e) (s.count .t)
    · obtain ⟨u, hexec, hsucc, hbuf⟩ := exec_repair_of_ok ht hn (hrepair.trans (finalCheck_of_valid hc))
      exact ⟨e, _, u, hexec, he.length, he.magnitude, he.elsewhere, hlen, hget, .inl ⟨hc, hsucc, hbuf⟩⟩
    · obtain ⟨u, hexec, hfault⟩ := exec_repair_of_error ht hn (hrepair.trans (finalCheck_of_not_valid hc))
      exact ⟨e, _, u, hexec, he.length, he.magnitude, he.elsewhere, hlen, hget, .inr ⟨hc, hfault⟩⟩

/-- Settles O46: DECODE commits the first entries of the word that repair gives, and faults where repair does. -/
theorem decodeResult : Obligations.DecodeResult := by
  refine ⟨rfl, fun s => ⟨exec_misconfigured rfl, fun ht hn hvalid => ?_, fun ht hn _ => ?_⟩⟩
  · obtain ⟨u, hexec, hsucc, ⟨-, hbuf⟩, hk⟩ := exec_decode_of_ok ht hn (repairWord_of_valid hvalid)
    refine ⟨u, hexec, hsucc, hk, fun i hi => ?_⟩
    rw [hbuf i hi, getD_take_receivedWord s (Nat.sub_le _ _)]
  · rcases repairWord_cases (receivedWord s) (s.count .t) with ⟨c, hc, hlen, hvalid⟩ | herr
    · obtain ⟨u, hexec, hsucc, hbuf, hk⟩ := exec_decode_of_ok ht hn hc
      exact ⟨u, hexec, .inl ⟨c, hc, hlen.trans (length_receivedWord s), hvalid, hsucc, hk, hbuf⟩⟩
    · obtain ⟨u, hexec, hfault⟩ := exec_decode_of_error ht hn herr
      exact ⟨u, hexec, .inr ⟨herr, hfault⟩⟩

/-- Settles O47: STRIP after a REPAIR that succeeded reads the repaired word and overwrites it as DECODE writes it; the
faults of both are the same. -/
theorem decodeIsRepairThenStrip : Obligations.DecodeIsRepairThenStrip := by
  intro s u hu
  rcases commits_repair_cases s with ⟨x, hrepair, hdecode⟩ | ⟨ht, hn, c, hword⟩
  · obtain rfl := Host.Outcome.next.inj ((exec_of_commits_error hrepair).symm.trans hu)
    exact ⟨fun h => absurd h (by rw [reg_raise, if_pos rfl]; decide), fun _ => exec_of_commits_error hdecode⟩
  · have hrepair := exec_of_commits_ok (i := .repair) (s := s) (by rw [commits_repair ht hn, hword]; rfl)
    have hdecode := exec_of_commits_ok (i := .decode) (s := s) (by rw [commits_decode ht hn, hword]; rfl)
    obtain rfl := Host.Outcome.next.inj (hrepair.symm.trans hu)
    refine ⟨fun _ => hdecode.trans (exec_strip_repaired ht hn ?_).symm, fun h => absurd (reg_complete ..) h⟩
    exact (repairWord_ok hword).1.trans (length_receivedWord s)
end

section
/-! SUPPORT. ENCODE's result as a received word (43_codec.md R195). -/

namespace Sys2Proof.Machine

/-- ENCODE leaves a valid received word that begins with the message (R195). -/
theorem exec_encode {s : State} (ht : s.count .t ≠ 0) (hk : s.count .k + s.count .t ≤ 255) :
    ∃ u, exec .encode s = .next u ∧ Succeeds [.n] [.buf] s u ∧ BufHolds u .buf (receivedWord u) ∧
      u.count .n = s.count .k + s.count .t ∧ (∀ i, i < s.count .k → u.entry .buf i = s.entry .buf i) ∧
      ValidWord (receivedWord u) (u.count .t) := by
  obtain ⟨-, hencode⟩ := encodeResult
  obtain ⟨u, c, hu, hsucc, hbuf, hlen, hn, hkeep, hvalid, -⟩ := (hencode s).2 ht hk
  have hrecv := hbuf.receivedWord (hlen.trans hn.symm)
  rw [← hsucc.count_eq (r := .t) (by decide), ← hrecv] at hvalid
  exact ⟨u, hu, hsucc, hrecv ▸ hbuf, hn, hkeep, hvalid⟩

end Sys2Proof.Machine
end

section
/-! PROOF. O48, O49: DECODE and REPAIR after ENCODE. -/

open Sys2Proof Sys2Proof.Machine

/-- Settles O48: the encoded word is valid, so DECODE keeps its first K entries, which are the message. -/
theorem encodeDecodeRoundTrip : Obligations.EncodeDecodeRoundTrip := by
  intro s ht hk
  obtain ⟨u, hu, hsu, -, hn, hkeep, hvalid⟩ := exec_encode ht hk
  have htu : u.count .t = s.count .t := hsu.count_eq (by decide)
  obtain ⟨w, hw, ⟨hstatus, -⟩, ⟨-, hbuf⟩, hwk⟩ := exec_decode_of_ok (s := u) (by omega) (by omega)
    (repairWord_of_valid hvalid)
  refine ⟨u, w, hu, hw, hstatus, BitVec.eq_of_toNat_eq (hwk.trans ?_), fun i hi => ?_⟩
  · exact (show u.count .n - u.count .t = s.count .k by omega)
  · rw [hbuf i (by omega), getD_take_receivedWord u (Nat.sub_le _ _), if_pos (by omega), hkeep i hi]

/-- Settles O49: the encoded word is valid, so REPAIR writes it again. -/
theorem encodeRepairUnchanged : Obligations.EncodeRepairUnchanged := by
  intro s ht hk
  obtain ⟨u, hu, hsu, ⟨-, hubuf⟩, hn, -, hvalid⟩ := exec_encode ht hk
  have htu : u.count .t = s.count .t := hsu.count_eq (by decide)
  obtain ⟨hustatus, hucause, -⟩ := hsu
  obtain ⟨w, hw, ⟨hwstatus, hwcause, hregs, hbytes, -⟩, -, hwbuf⟩ := exec_repair_of_ok (s := u) (by omega) (by omega)
    (repairWord_of_valid hvalid)
  refine ⟨u, w, hu, hw, fun r => ?_, fun a => ?_⟩
  · by_cases hst : r = .status
    · rw [hst, hwstatus, hustatus]
    by_cases hca : r = .cause
    · rw [hca, hwcause, hucause]
    exact hregs r (by simp [hst, hca])
  · by_cases ha : Buf.holds .buf a
    · obtain ⟨h1, h2⟩ := ha
      obtain ⟨i, rfl⟩ := Nat.exists_eq_add_of_le h1
      exact (hwbuf i (by omega)).trans (hubuf i (by omega)).symm
    · exact hbytes a (by simpa using ha)
end

section
/-! SUPPORT. Errors and syndromes (44_decoder.md R225, R231 c). The syndromes of a valid word with errors are the power
sums of the errors at their positions' elements. Few power sums determine few errors; so Berlekamp-Massey never needs a longer
register than there are errors, its locator is zero at all of them, and Forney's equation gives their values. -/

namespace Sys2Proof.Machine

theorem gmul_right_cancel {x y z : Byte} (hz : z ≠ 0x00) (h : gmul x z = gmul y z) : x = y := by
  rw [← gmul_one x, ← gmul_ginvOf hz, ← gmul_assoc, h, gmul_assoc, gmul_ginvOf hz, gmul_one]

/-! ### Power sums -/

/-- The sum of e_d·(α^d)^k over the positions d below `n`. -/
def powerSum (n : Nat) (e : Nat → Byte) (k : Nat) : Byte := xorSum n (fun d => gmul (e d) (gexp (d * k)))

theorem gpow_gexp (i p : Nat) : gpow (gexp i) p = gexp (i * p) := by
  rw [gpow_of_ne_zero (gexp_ne_zero i), logTable_gexp]
  exact gexp_congr (Nat.mod_mul_mod i p 255)

/-- The value of a polynomial at a power of alpha is a power sum of its coefficients. -/
theorem peval_alpha (p : Poly) (i : Nat) : peval p (alpha i) = powerSum p.length (coef p) i := by
  rw [peval_eq_xorSum]
  exact xorSum_congr fun d _ => by rw [alpha, gpow_gexp, Nat.mul_comm]

theorem powerSum_eq_zero {n : Nat} {e : Nat → Byte} (h : ∀ d < n, e d = 0x00) (k : Nat) : powerSum n e k = 0x00 :=
  (xorSum_congr fun d hd => by rw [h d hd, zero_gmul]).trans (xorSum_const_zero n)

/-- Weights multiplied by α^d + α^p: the next power sum and the present one, scaled. -/
theorem powerSum_gmul_gadd (n : Nat) (e : Nat → Byte) (p k : Nat) :
    powerSum n (fun d => gmul (e d) (gadd (gexp d) (gexp p))) k =
      gadd (powerSum n e (k + 1)) (gmul (gexp p) (powerSum n e k)) := by
  rw [powerSum, powerSum, powerSum, gmul_xorSum, ← xorSum_gadd]
  refine xorSum_congr fun d _ => ?_
  rw [gmul_gadd, gadd_gmul, gmul_assoc, gmul_gexp, Nat.mul_succ, Nat.add_comm d, gmul_comm (e d) (gexp p), gmul_assoc]

/-- The power sums of a single weight. -/
theorem powerSum_of_single {n p : Nat} (hp : p < n) {e : Nat → Byte} (h : ∀ d < n, d ≠ p → e d = 0x00) (k : Nat) :
    powerSum n e k = gmul (e p) (gexp (p * k)) := by
  have hterm : ∀ d < n, gmul (e d) (gexp (d * k)) = if d = p then gmul (e d) (gexp (d * k)) else 0x00 := fun d hd => by
    split_ifs with hdp
    · rfl
    · rw [h d hd hdp, zero_gmul]
  rw [powerSum, xorSum_congr hterm, xorSum_ite_eq n p (fun d => gmul (e d) (gexp (d * k))), if_pos hp]

/-- FEW POWER SUMS DETERMINE FEW ERRORS: weights that are zero outside the positions `ps` are zero everywhere if as many
power sums in a row are zero as there are positions in `ps`. One position after the other is taken out. -/
theorem eq_zero_of_powerSum {n : Nat} (hn : n ≤ 255) {ps : List Nat} (hps : ∀ p ∈ ps, p < n) {e : Nat → Byte}
    (he : ∀ d < n, d ∉ ps → e d = 0x00) {a : Nat} (hsum : ∀ k, a ≤ k → k < a + ps.length → powerSum n e k = 0x00) :
    ∀ d < n, e d = 0x00 := by
  induction ps generalizing e with
  | nil => exact fun d hd => he d hd List.not_mem_nil
  | cons p ps ih =>
    obtain ⟨hp, hps⟩ := List.forall_mem_cons.1 hps
    rw [List.length_cons] at hsum
    have hothers : ∀ d < n, d ≠ p → e d = 0x00 := fun d hd hdp => by
      have hprod := ih hps (e := fun d => gmul (e d) (gadd (gexp d) (gexp p))) (fun d hd hmem => by
          by_cases hdp : d = p
          · rw [hdp, gadd_self, gmul_zero]
          · rw [he d hd (by simp [hdp, hmem]), zero_gmul]) (fun k h1 h2 => by
        rw [powerSum_gmul_gadd, hsum k h1 (by omega), hsum (k + 1) (by omega) (by omega), gmul_zero, gadd_zero]) d hd
      refine (gmul_eq_zero_iff.1 hprod).resolve_right fun h => hdp ?_
      have := mod_eq_of_alpha_eq (gadd_eq_zero_iff.1 h)
      omega
    have hlast : e p = 0x00 := by
      have hsingle := hsum a le_rfl (by omega)
      rw [powerSum_of_single hp hothers] at hsingle
      exact (gmul_eq_zero_iff.1 hsingle).resolve_right (gexp_ne_zero _)
    intro d hd
    by_cases hdp : d = p
    · rw [hdp, hlast]
    · exact hothers d hd hdp

/-! ### A locator on the syndromes of errors -/

/-- The syndromes of a single error of value 1 at position `d`, from S_1 on. -/
def unitSyndromes (d i : Nat) : Byte := gexp (d * (i + 1))

theorem unitSyndromes_succ (d i : Nat) : unitSyndromes d (i + 1) = gmul (gexp d) (unitSyndromes d i) := by
  rw [unitSyndromes, Nat.mul_succ, Nat.add_comm, ← gmul_gexp, unitSyndromes]

/-- The convolution with the syndromes of errors is the sum over the errors. -/
theorem conv_powerSum (f : Nat → Byte) (n : Nat) (e : Nat → Byte) (k : Nat) :
    conv f (fun i => powerSum n e (i + 1)) k = xorSum n (fun d => gmul (e d) (conv f (unitSyndromes d) k)) := by
  simp only [conv, powerSum, gmul_xorSum]
  rw [xorSum_comm]
  refine xorSum_congr fun d _ => xorSum_congr fun j _ => ?_
  rw [← gmul_assoc, gmul_comm (f j), gmul_assoc, unitSyndromes]

/-- From its degree on, a locator's convolution with the syndromes of an error is its value at the error's root, scaled. -/
theorem conv_unitSyndromes {lam : Poly} {k : Nat} (hk : lam.length ≤ k + 1) {d : Nat} (hd : d < 255) :
    conv (coef lam) (unitSyndromes d) k = gmul (peval lam (alpha (255 - d))) (gexp (d * (k + 1))) := by
  rw [peval_eq_xorSum_of_le hk, conv, xorSum_gmul]
  refine xorSum_congr fun j hj => ?_
  rw [gmul_assoc, alpha, gpow_gexp, gmul_gexp, unitSyndromes]
  refine congrArg (gmul _) (gexp_congr ?_)
  have hexp : (255 - d) * j + d * (k + 1) = d * (k - j + 1) + 255 * j := by
    obtain ⟨m, rfl⟩ := Nat.exists_eq_add_of_le (Nat.le_of_lt_succ hj)
    obtain ⟨c, hc⟩ := Nat.exists_eq_add_of_le hd.le
    rw [Nat.add_sub_cancel_left, hc, Nat.add_sub_cancel_left]
    ring
  rw [hexp, Nat.add_mul_mod_self_left]

/-- So the convolution of a locator with the syndromes of errors is a power sum of the errors times its values. -/
theorem conv_powerSum_of_length_le {lam : Poly} {k : Nat} (hk : lam.length ≤ k + 1) {n : Nat} (hn : n ≤ 255)
    (e : Nat → Byte) : conv (coef lam) (fun i => powerSum n e (i + 1)) k =
      powerSum n (fun d => gmul (e d) (peval lam (alpha (255 - d)))) (k + 1) := by
  rw [conv_powerSum, powerSum]
  exact xorSum_congr fun d hd => by rw [conv_unitSyndromes hk (by omega), gmul_assoc]

/-- With the factor of an error's root taken out, a locator's convolution with the error's syndromes is the quotient. -/
theorem conv_unitSyndromes_of_root {lam q : Poly} {d : Nat} (hd : d < 255)
    (h : ∀ j, coef lam j = coef (pmul q [0x01, alpha (255 - d)]) j) (k : Nat) :
    conv (coef lam) (unitSyndromes d) k = coef q k := by
  have hinv (x : Byte) : gmul (gmul x (alpha (255 - d))) (gexp d) = x := by
    rw [gmul_assoc, gmul_comm (alpha _), gmul_gexp_root hd, gmul_one]
  have hfirst : unitSyndromes d 0 = gexp d := by rw [unitSyndromes, Nat.zero_add, Nat.mul_one]
  induction k with
  | zero => rw [conv, xorSum_succ, xorSum_zero, zero_gadd, h, coef_zero_pmul_linear, hfirst, hinv]
  | succ k ih =>
    rw [conv_succ_of_geometric (unitSyndromes_succ d), ih, h, coef_succ_pmul_linear, hfirst, gadd_gmul, hinv,
      gmul_comm (coef q k), gadd_comm (gmul _ _), gadd_assoc, gadd_self, gadd_zero]

/-- The share of an error at position `d` in Ω at a root of the locator: Λ' there at its own root, nothing at another. -/
theorem evaluate_conv_unitSyndromes {lam : Poly} {t : Nat} (hlen : lam.length ≤ t + 1) {d p : Nat} (hd : d < 255)
    (hp : p < 255) (hdroot : peval lam (alpha (255 - d)) = 0x00) (hproot : peval lam (alpha (255 - p)) = 0x00) :
    xorSum t (fun j => gmul (conv (coef lam) (unitSyndromes d) j) (gpow (alpha (255 - p)) j)) =
      if d = p then derivativeAt lam p else 0x00 := by
  obtain ⟨q, hq, hquot⟩ := exists_quotient_of_root hdroot
  simp only [conv_unitSyndromes_of_root hd hquot]
  rw [← peval_eq_xorSum_of_le (by omega)]
  split_ifs with hdp
  · rw [hdp] at hquot
    rw [derivativeAt, peval_pderiv_of_root hquot]
  · rw [peval_congr hquot, peval_pmul, peval_linear, gmul_eq_zero_iff, gadd_eq_zero_iff] at hproot
    exact hproot.resolve_right fun h => hdp (eq_of_positionRoot_eq hp hd h).symm

section Evaluator

variable {syn : List Byte} {t n : Nat} {e : Nat → Byte} (hsyn : ∀ i < t, asc syn i = powerSum n e (i + 1))
include hsyn

/-- The coefficients of Ω on the syndromes of errors (R224). -/
theorem pcoefat_syndromes (lam : Poly) {j : Nat} (hj : j < t) :
    pcoefat ((List.range t).map (fun i => syn.getD (t - 1 - i) 0x00)) lam j =
      xorSum n (fun d => gmul (e d) (conv (coef lam) (unitSyndromes d) j)) := by
  rw [pcoefat_eq_conv, conv_comm, ← conv_powerSum]
  refine conv_congr (fun _ _ => rfl) fun i hi => ?_
  rw [coef_map_range t (fun i => syn.getD i 0x00), if_pos (by omega)]
  exact hsyn i (by omega)

/-- FORNEY'S EQUATION (R224): at a root of a locator that is zero at every error, Ω is the error's value times Λ'. -/
theorem evaluatorAt_eq (hn : n ≤ 255) {lam : Poly} (hlen : lam.length ≤ t + 1)
    (hroots : ∀ d < n, e d ≠ 0x00 → peval lam (alpha (255 - d)) = 0x00) {p : Nat} (hp : p < n)
    (hproot : peval lam (alpha (255 - p)) = 0x00) : evaluatorAt syn t lam p = gmul (e p) (derivativeAt lam p) := by
  have hterm : ∀ d < n, gmul (e d) (xorSum t (fun j => gmul (conv (coef lam) (unitSyndromes d) j)
      (gpow (alpha (255 - p)) j))) = if d = p then gmul (e d) (derivativeAt lam p) else 0x00 := fun d hd => by
    by_cases he : e d = 0x00
    · rw [he, zero_gmul, zero_gmul, ite_self]
    · rw [evaluate_conv_unitSyndromes hlen (by omega) (by omega) (hroots d hd he) hproot, apply_ite (gmul _), gmul_zero]
  calc evaluatorAt syn t lam p
      = xorSum t (fun j => xorSum n (fun d => gmul (e d) (gmul (conv (coef lam) (unitSyndromes d) j)
          (gpow (alpha (255 - p)) j)))) := xorSum_congr fun j hj => by
        rw [pcoefat_syndromes hsyn lam hj, xorSum_gmul]
        exact xorSum_congr fun d _ => gmul_assoc ..
    _ = xorSum n (fun d => if d = p then gmul (e d) (derivativeAt lam p) else 0x00) := by
        rw [xorSum_comm]
        exact xorSum_congr fun d hd => by rw [← gmul_xorSum, hterm d hd]
    _ = gmul (e p) (derivativeAt lam p) := by
        rw [xorSum_ite_eq n p (fun d => gmul (e d) (derivativeAt lam p)), if_pos hp]

end Evaluator

end Sys2Proof.Machine
end

section
/-! SUPPORT. The decoder on a valid word with at most t/2 errors (44_decoder.md R225, R231 c): Berlekamp-Massey finds a
locator whose positions are the errors', and repair gives the valid word back. -/

namespace Sys2Proof.Machine

/-! ### The locator of few errors -/

section Errors

/-- Errors `e` by position, those not zero at the positions `ps` below `n`, no position twice; `syn` holds their `t`
syndromes, and there are at most t/2 of them. -/
structure FewErrors (syn : List Byte) (t n : Nat) (e : Nat → Byte) (ps : List Nat) : Prop where
  le_255 : n ≤ 255
  mem_iff : ∀ d, d ∈ ps ↔ d < n ∧ e d ≠ 0x00
  nodup : ps.Nodup
  syndromes : ∀ i < t, asc syn i = powerSum n e (i + 1)
  few : 2 * ps.length ≤ t

variable {syn : List Byte} {t n : Nat} {e : Nat → Byte} {ps : List Nat}

theorem FewErrors.lt (h : FewErrors syn t n e ps) {p : Nat} (hp : p ∈ ps) : p < n := ((h.mem_iff p).1 hp).1

theorem FewErrors.eq_zero (h : FewErrors syn t n e ps) {d : Nat} (hd : d < n) (hmem : d ∉ ps) : e d = 0x00 := by
  by_contra he
  exact hmem ((h.mem_iff d).2 ⟨hd, he⟩)

theorem FewErrors.conv_eq (h : FewErrors syn t n e ps) {lam : Poly} {k : Nat} (hk : lam.length ≤ k + 1) (ht : k < t) :
    conv (coef lam) (asc syn) k = powerSum n (fun d => gmul (e d) (peval lam (alpha (255 - d)))) (k + 1) := by
  rw [← conv_powerSum_of_length_le hk h.le_255]
  exact conv_congr (fun _ _ => rfl) fun i hi => h.syndromes i (by omega)

/-- A register that generates as many syndromes in a row as there are errors is zero at all of them. -/
theorem FewErrors.gmul_peval_eq_zero (h : FewErrors syn t n e ps) {lam : Poly} {a : Nat} (ha : lam.length ≤ a + 1)
    (hat : a + ps.length ≤ t) (hgen : ∀ k, a ≤ k → k < a + ps.length → conv (coef lam) (asc syn) k = 0x00) :
    ∀ d < n, gmul (e d) (peval lam (alpha (255 - d))) = 0x00 := by
  refine eq_zero_of_powerSum (a := a + 1) h.le_255 (fun p => h.lt) (fun d hd hmem => ?_) fun k h1 h2 => ?_
  · rw [h.eq_zero hd hmem, zero_gmul]
  · obtain ⟨k, rfl⟩ := Nat.exists_eq_succ_of_ne_zero (show k ≠ 0 by omega)
    exact (h.conv_eq (by omega) (by omega)).symm.trans (hgen k (by omega) (by omega))

/-- BERLEKAMP-MASSEY NEEDS NO LONGER REGISTER THAN THERE ARE ERRORS: were i + 1 - L longer, Λ would have generated as many
syndromes in a row as there are errors, and would not miss the next. -/
theorem FewErrors.len_bm_le (h : FewErrors syn t n e ps) : (bm syn t).len ≤ ps.length := by
  have hfew := h.few
  have hlen : ∀ i ≤ t, (bmAt syn t i).len ≤ ps.length := fun i hi => by
    induction i with
    | zero => exact Nat.zero_le _
    | succ i ih =>
      have hinv := bmInvariant_bmAt syn (show i ≤ t by omega)
      have hle := ih (by omega)
      rw [bmAt_succ]
      rcases len_bmStep_cases syn (bmAt syn t i) i with hsame | ⟨hmiss, -, hnew⟩
      · rwa [hsame]
      · rw [hnew]
        by_contra hlong
        have htrim := length_trim (bmAt syn t i)
        have hzero := h.gmul_peval_eq_zero (lam := trim (bmAt syn t i)) (a := (bmAt syn t i).len) htrim.le (by omega)
          fun k h1 h2 => by rw [hinv.coef_trim, hinv.lam.below k h1 (by omega)]
        refine hmiss ?_
        rw [discrepancy_eq_conv, ← hinv.coef_trim, h.conv_eq (by omega) (by omega)]
        exact powerSum_eq_zero hzero _
  exact bm_eq_bmAt syn t ▸ hlen t le_rfl

/-- The locator is zero at every error. -/
theorem FewErrors.peval_trim_bm (h : FewErrors syn t n e ps) {p : Nat} (hp : p ∈ ps) :
    peval (trim (bm syn t)) (alpha (255 - p)) = 0x00 := by
  have hlen := h.len_bm_le
  have hfew := h.few
  obtain ⟨hpn, hep⟩ := (h.mem_iff p).1 hp
  have hzero := h.gmul_peval_eq_zero (lam := trim (bm syn t)) (a := (bm syn t).len) (length_trim _).le (by omega)
    (fun k h1 h2 => conv_trim_bm syn h1 (by omega)) p hpn
  exact (gmul_eq_zero_iff.1 hzero).resolve_left hep

/-- THE POSITIONS FOUND ARE THE ERRORS', AS MANY AS THE LOCATOR'S DEGREE: the errors are among them, and there are no more
than the degree, which is no more than the errors. -/
theorem FewErrors.findPositions_eq (h : FewErrors syn t n e ps) :
    (findPositions (trim (bm syn t))).length = (bm syn t).len ∧ ∀ p, p ∈ findPositions (trim (bm syn t)) ↔ p ∈ ps := by
  have hn := h.le_255
  have hlen := h.len_bm_le
  have hroots := length_findPositions_lt (coef_zero_trim_bm syn t)
  rw [length_trim] at hroots
  have hsub : ps.Subperm (findPositions (trim (bm syn t))) := List.subperm_of_subset h.nodup fun p hp =>
    mem_findPositions.2 ⟨by have := h.lt hp; omega, h.peval_trim_bm hp⟩
  have hle := hsub.length_le
  exact ⟨by omega, fun p => (hsub.perm_of_length_le (by omega)).mem_iff.symm⟩

/-- Forney's equation for the locator found. -/
theorem FewErrors.evaluatorAt_eq (h : FewErrors syn t n e ps) {p : Nat} (hp : p ∈ ps) :
    evaluatorAt syn t (trim (bm syn t)) p = gmul (e p) (derivativeAt (trim (bm syn t)) p) := by
  have hlen := Machine.len_bm_le syn t
  refine Machine.evaluatorAt_eq h.syndromes h.le_255 (by rw [length_trim]; omega) (fun d hd he => ?_) (h.lt hp)
    (h.peval_trim_bm hp)
  exact h.peval_trim_bm ((h.mem_iff d).2 ⟨hd, he⟩)

/-- THE MAGNITUDES FOUND ARE THE ERRORS: both solve Forney's equation, in which the derivative is not zero. -/
theorem FewErrors.coef_errorWord (h : FewErrors syn t n e ps) {w : List Byte}
    (hw : IsErrorWord syn t (trim (bm syn t)) (findPositions (trim (bm syn t))) n w) {j : Nat} (hj : j < n) :
    coef w j = e j := by
  obtain ⟨hnum, hmem⟩ := h.findPositions_eq
  rw [coef_of_lt (by rwa [hw.length]), hw.length]
  by_cases hjps : j ∈ ps
  · have hder := derivativeAt_ne_zero (coef_zero_trim_bm syn t) (by rw [hnum, length_trim]) ((hmem j).2 hjps)
    exact gmul_right_cancel hder ((hw.magnitude j ((hmem j).2 hjps)).trans (h.evaluatorAt_eq hjps))
  · rw [h.eq_zero hj hjps]
    refine hw.elsewhere _ fun p hp heq => hjps ?_
    have hpn := h.lt ((hmem p).1 hp)
    rwa [show j = p by omega, ← hmem]

end Errors

/-! ### Repair of few errors -/

/-- The positions where two words differ. -/
def differingPositions (r c : List Byte) : List Nat := (List.range r.length).filter (fun d => coef r d != coef c d)

section Words

variable {r c : List Byte} {t : Nat}

theorem mem_differingPositions {d : Nat} : d ∈ differingPositions r c ↔ d < r.length ∧ coef r d ≠ coef c d := by
  simp [differingPositions]

/-- The power sums of the difference of two words are the differences of their values. -/
theorem powerSum_padd (hlen : c.length = r.length) (k : Nat) :
    powerSum r.length (coef (padd r c)) k = gadd (peval r (alpha k)) (peval c (alpha k)) := by
  rw [← peval_padd, peval_alpha, length_padd, hlen, max_self]

/-- The word received for a valid word `c`: its syndromes are those of the difference. -/
theorem fewErrors_of_differingPositions (hr : r.length ≤ 255) (hlen : c.length = r.length) (hc : ValidWord c t)
    (hfew : 2 * (differingPositions r c).length ≤ t) :
    FewErrors (syndromes r t) t r.length (coef (padd r c)) (differingPositions r c) where
  le_255 := hr
  mem_iff d := by rw [mem_differingPositions, coef_padd, ne_eq (gadd _ _), gadd_eq_zero_iff]
  nodup := List.nodup_range.filter _
  syndromes i hi := by
    rw [powerSum_padd hlen, hc (i + 1) (by omega) (by omega), gadd_zero, asc, getD_syndromes, if_pos hi]
  few := hfew

/-- Two words of one length whose difference is zero are the same. -/
theorem eq_of_coef_padd_eq_zero (hlen : c.length = r.length) (h : ∀ d < r.length, coef (padd r c) d = 0x00) : r = c := by
  refine poly_ext hlen.symm fun d => ?_
  by_cases hd : d < r.length
  · rw [← gadd_eq_zero_iff, ← coef_padd, h d hd]
  · rw [coef_of_length_le (by omega), coef_of_length_le (by omega)]

theorem coef_zipWith_gadd (hlen : c.length = r.length) (j : Nat) :
    coef (List.zipWith gadd r c) j = gadd (coef r j) (coef c j) := by
  have hzip : (List.zipWith gadd r c).length = r.length := by rw [List.length_zipWith, hlen, min_self]
  by_cases hj : j < r.length
  · rw [coef_of_lt (by omega), coef_of_lt hj, coef_of_lt (by omega), hzip, hlen, getD_zipWith_gadd hlen.symm]
  · rw [coef_of_length_le (by omega), coef_of_length_le (by omega), coef_of_length_le (by omega), gadd_zero]

/-- REPAIR CORRECTS UP TO t/2 ERRORS (R231 c): a valid received word has none, and in any other the error word found is the
difference. -/
theorem repairWord_of_few_errors (hr : r.length ≤ 255) (hlen : c.length = r.length) (hc : ValidWord c t)
    (hfew : 2 * (differingPositions r c).length ≤ t) : repairWord r t = .ok c := by
  have h := fewErrors_of_differingPositions hr hlen hc hfew
  by_cases hvalid : ValidWord r t
  · have hzero : ∀ d < r.length, coef (padd r c) d = 0x00 :=
      eq_zero_of_powerSum (a := 1) hr (fun p => h.lt) (fun d => h.eq_zero) fun k h1 h2 => by
        rw [powerSum_padd hlen, hvalid k h1 (by omega), hc k h1 (by omega), gadd_zero]
    rw [repairWord_of_valid hvalid, eq_of_coef_padd_eq_zero hlen hzero]
  · obtain ⟨hnum, hmem⟩ := h.findPositions_eq
    obtain ⟨e, he, hrepair⟩ := exists_repairWord_eq_finalCheck hvalid ⟨hnum, fun p hp => h.lt ((hmem p).1 hp)⟩
    have hcorrected : List.zipWith gadd r e = c := by
      refine poly_ext (by rw [List.length_zipWith, he.length, min_self, hlen]) fun d => ?_
      rw [coef_zipWith_gadd he.length]
      by_cases hd : d < r.length
      · rw [h.coef_errorWord he hd, coef_padd, ← gadd_assoc, gadd_self, zero_gadd]
      · rw [coef_of_length_le (by omega), coef_of_length_le (by rw [he.length]; omega), coef_of_length_le (by omega),
          gadd_zero]
    rw [hrepair, finalCheck_of_valid (hcorrected ▸ hc), hcorrected]

end Words

/-! ### Received words with few errors -/

/-- A state differs from itself with one entry of BUF written in one entry at most. -/
theorem errorCount_setEntry_le {s : State} (hm : Memory.wf s.mem = true) (n k : Nat) (v : Byte) :
    errorCount n s (s.setEntry .buf k v) ≤ 1 := by
  have hsub : ∀ i ∈ (List.range n).filter (fun i => s.entry .buf i != (s.setEntry .buf k v).entry .buf i), i ∈ [k] := by
    intro i hi
    by_contra hik
    rw [List.mem_singleton] at hik
    have hsame : (s.setEntry .buf k v).entry .buf i = s.entry .buf i := by
      rw [State.entry, mem_setEntry, Memory.read_write hm, if_neg (by omega), State.entry]
    simp [hsame] at hi
  exact (List.subperm_of_subset (List.nodup_range.filter _) hsub).length_le

/-- The positions where two received words differ are as many as the entries, counted from the other end (00_scope.md
R15). -/
theorem length_differingPositions {s s' : State} (hn : s'.count .n = s.count .n) :
    (differingPositions (receivedWord s') (receivedWord s)).length = errorCount (s.count .n) s s' := by
  have hreverse : (List.range (s.count .n)).reverse = (List.range (s.count .n)).map (fun d => s.count .n - 1 - d) := by
    rw [List.range_eq_range', List.reverse_range', List.range_eq_range', Nat.zero_add]
  rw [differingPositions, errorCount, ← List.countP_eq_length_filter, ← List.countP_eq_length_filter,
    ← List.countP_reverse (l := List.range (s.count .n)), hreverse, List.countP_map, length_receivedWord, hn]
  refine List.countP_congr fun d hd => ?_
  rw [List.mem_range] at hd
  rw [coef_receivedWord s hd, coef_receivedWord s' (by omega), hn, Function.comp_apply, bne_iff_ne, bne_iff_ne]
  exact ne_comm

/-- Repair gives back a received word that is valid, from one that differs in at most T/2 entries. -/
theorem repairWord_receivedWord {s s' : State} (ht : s'.count .t = s.count .t) (hn : s'.count .n = s.count .n)
    (hvalid : ValidWord (receivedWord s) (s.count .t)) (hfew : 2 * errorCount (s.count .n) s s' ≤ s.count .t) :
    repairWord (receivedWord s') (s'.count .t) = .ok (receivedWord s) := by
  rw [← length_differingPositions hn] at hfew
  rw [ht]
  exact repairWord_of_few_errors (by rw [length_receivedWord]; exact count_le s' .n)
    (by rw [length_receivedWord, length_receivedWord, hn]) hvalid hfew

end Sys2Proof.Machine
end

section
/-! PROOF. O51, O52: few errors are corrected. -/

open Sys2Proof Sys2Proof.Machine

/-- Settles O52: repair gives the valid word back, and DECODE keeps its first N - T entries. -/
theorem boundedCorrection : Obligations.BoundedCorrection := by
  intro s s' ht0 hn0 ht hn hvalid hfew
  have ht : s'.count .t = s.count .t := congrArg BitVec.toNat ht
  have hn : s'.count .n = s.count .n := congrArg BitVec.toNat hn
  have hle := count_le s .n
  obtain ⟨u, hu, ⟨hstatus, -⟩, ⟨-, hbuf⟩, hk⟩ := exec_decode_of_ok (s := s') (by omega) (by omega)
    (repairWord_receivedWord ht hn hvalid hfew)
  refine ⟨u, hu, hstatus, by rw [hk, hn, ht], fun i hi => ?_⟩
  rw [hbuf i (by omega), hn, ht, getD_take_receivedWord s (Nat.sub_le _ _), if_pos hi]

/-- Settles O51: one changed entry is one error, and T is at least 2. -/
theorem singleErrorRepaired : Obligations.SingleErrorRepaired := by
  intro s p v hmem ht2 hn0 hvalid hp _
  have hle := count_le s .n
  have ht : (s.setEntry .buf (s.count .n - 1 - p) v).count .t = s.count .t := by simp [State.count]
  have hn : (s.setEntry .buf (s.count .n - 1 - p) v).count .n = s.count .n := by simp [State.count]
  have hone := errorCount_setEntry_le hmem.1 (s.count .n) (s.count .n - 1 - p) v
  obtain ⟨u, hu, ⟨hstatus, -⟩, -, hbuf⟩ := exec_repair_of_ok (s := s.setEntry .buf (s.count .n - 1 - p) v)
    (by omega) (by omega) (repairWord_receivedWord ht hn hvalid (by omega))
  exact ⟨u, hu, hstatus, fun i hi => by rw [hbuf i (by omega), getD_receivedWord s hi]⟩
end

section
/-! SUPPORT. Which causes a command faults with, said once for every command: its rows of the table of causes
(60_exceptions.md R302). -/

namespace Sys2Proof.Machine

/-- A computation that faults does so with a cause whose code is among `codes`. -/
def FaultsAmong {α : Type} (codes : List Byte) (x : Except Cause α) : Prop := ∀ c, x = .error c → c.code ∈ codes

section FaultsAmong

variable {α : Type} {codes : List Byte}

theorem FaultsAmong.ok (a : α) : FaultsAmong codes (.ok a) := fun _ h => by cases h

theorem FaultsAmong.error {c : Cause} (hc : c.code ∈ codes) : FaultsAmong codes (.error c : Except Cause α) :=
  fun _ h => by cases h; exact hc

theorem FaultsAmong.mono {codes' : List Byte} {x : Except Cause α} (hx : FaultsAmong codes x) (h : codes ⊆ codes') :
    FaultsAmong codes' x := fun c hc => h (hx c hc)

theorem FaultsAmong.map {β : Type} {x : Except Cause α} (hx : FaultsAmong codes x) (f : α → β) :
    FaultsAmong codes (x.map f) := by
  cases x with
  | error c => exact .error (hx c rfl)
  | ok a => exact .ok (f a)

theorem FaultsAmong.ite {p : Prop} [Decidable p] {x y : Except Cause α} (hx : FaultsAmong codes x)
    (hy : FaultsAmong codes y) : FaultsAmong codes (if p then x else y) := by split <;> assumption

/-- A check of T before a commit adds CONFIGURATION_ERROR to its causes (R303). -/
theorem FaultsAmong.afterT {s : State} {x : Except Cause (List Write)} (hx : FaultsAmong codes x)
    (hcode : 0x01 ∈ codes) : FaultsAmong codes (afterT s x) := .ite (.error hcode) hx

theorem FaultsAmong.afterTN {s : State} {x : Except Cause (List Write)} (hx : FaultsAmong codes x)
    (hcode : 0x01 ∈ codes) : FaultsAmong codes (afterTN s x) := .afterT (.ite (.error hcode) hx) hcode

end FaultsAmong

/-! ### The functions that fault -/

theorem faultsAmong_gdiv (x y : Byte) : FaultsAmong [0x03] (gdiv x y) :=
  .ite (.ok _) (.ite (.error (by decide)) (.ok _))

theorem faultsAmong_ginv (x : Byte) : FaultsAmong [0x03] (ginv x) := .ite (.error (by decide)) (.ok _)

theorem faultsAmong_glog (x : Byte) : FaultsAmong [0x05] (glog x) := .ite (.error (by decide)) (.ok _)

theorem faultsAmong_pdivmod (p q : Poly) : FaultsAmong [0x03] (pdivmod p q) := by
  by_cases hq : q.getD 0 0x00 = 0x00
  · rw [pdivmod_fault p hq]
    exact .error (by decide)
  · obtain ⟨d, hd⟩ := exists_pdivmod_ok p hq
    rw [hd]
    exact .ok d

/-- The division inside ENCODE never faults, for the generator polynomial is monic (R305). -/
theorem faultsAmong_encodeWord (m : List Byte) (t : Nat) : FaultsAmong [] (encodeWord m t) := by
  obtain ⟨d, hd⟩ := exists_pdivmod_generatorPoly (m ++ List.replicate t 0x00) t
  rw [encodeWord_of_pdivmod hd]
  exact .ok _

theorem faultsAmong_forney (syn : List Byte) (t : Nat) (lam : Poly) (pos : List Nat) (n : Nat) :
    FaultsAmong [0x04] (forney syn t lam pos n) := fun _ h => by
  rw [forneyLoop_error h]
  decide

theorem faultsAmong_repairWord (r : List Byte) (t : Nat) : FaultsAmong [0x02] (repairWord r t) := fun _ h => by
  rw [repairWord_error h]
  decide

/-! ### The commands -/

/-- A COMMAND'S COMMIT FAULTS WITH ITS OWN CAUSES (R302): its checks' and those of the function it computes. -/
theorem commits_faultsAmong (i : Instr) (s : State) : FaultsAmong (causesOf i) (commits i s) := by
  cases i with
  | fdiv => exact (faultsAmong_gdiv _ _).map _
  | finv => exact (faultsAmong_ginv _).map _
  | flog => exact (faultsAmong_glog _).map _
  | pdiv => exact (faultsAmong_pdivmod _ _).map _
  | pmul => exact .ite (.error (by decide)) (.ok _)
  | genpoly | locator => exact .afterT (.ok _) (by decide)
  | encode =>
    have hword := (faultsAmong_encodeWord (message s) (s.count .t)).mono (List.nil_subset (causesOf .encode))
    exact .afterT (.ite (.error (by decide)) (hword.map _)) (by decide)
  | syndromes | check | strip => exact .afterTN (.ok _) (by decide)
  | magnitudes =>
    have hforney := (faultsAmong_forney (syndromeVector s) (s.count .t) (locatorPoly s) (positionList s)
      (s.count .n)).mono (show [0x04] ⊆ causesOf .magnitudes by decide)
    exact .afterTN (.ite (hforney.map _) (.error (by decide))) (by decide)
  | repair | decode =>
    have hrepair := (faultsAmong_repairWord (receivedWord s) (s.count .t)).mono
      (show [0x02] ⊆ [0x01, 0x02] by decide)
    exact .afterTN (hrepair.map _) (by decide)
  | nop | sreset | fadd | fmul | fpow | fexp | peval | pcoef | pscale | padd | pderiv | positions => exact .ok _

/-- The codes that a command can raise are 0x01 to 0x06: 0x07 is the bus's, for a reserved byte (R302, R309). -/
theorem causesOf_bounds (i : Instr) : ∀ code ∈ causesOf i, 1 ≤ code.toNat ∧ code.toNat ≤ 6 := by
  cases i <;> decide

end Sys2Proof.Machine
end

section
/-! PROOF. O12, O13: how every command ends, and the causes it raises. -/

open Sys2Proof Sys2Proof.Machine

/-- Settles O13: a success leaves CAUSE 0x00, and a fault the code of a cause of the command's commit. -/
theorem causesOfEachCommand : Obligations.CausesOfEachCommand := by
  intro i s u h
  rcases exec_next_cases h with ⟨ws, -, rfl⟩ | ⟨c, hc, rfl⟩
  · exact .inl rfl
  · exact .inr (commits_faultsAmong i s c hc)

/-- Settles O12: a command whose commit gives writes succeeds; one whose commit gives a cause faults with its code, which
the table of causes bounds. -/
theorem everyCommandSucceedsOrFaults : Obligations.EveryCommandSucceedsOrFaults := by
  intro i s
  rcases hc : commits i s with c | ws
  · obtain ⟨u, hu, hfault⟩ := exec_faultsWith hc
    obtain ⟨hpos, hle⟩ := causesOf_bounds i c.code (commits_faultsAmong i s c hc)
    exact ⟨u, hu, .inr ⟨c.code, hpos, hle, hfault⟩⟩
  · exact ⟨_, exec_of_commits_ok hc, .inl ⟨rfl, rfl⟩⟩
end

section
/-! SUPPORT. What BUSY admits, said once: which accesses read STATUS, and when a step is refused
(70_reset_and_hazards.md R345). -/

namespace Sys2Proof.Machine

theorem ofAddr_eq_status_iff (a : Addr) : Loc.ofAddr a = .reg .status ↔ a = 0x003 :=
  ofAddr_eq_iff (ofAddr_reg .status) (by simp) a

/-- The accesses that do not read STATUS: every write, and every read of another address. -/
theorem readsStatus_eq_false_iff (x : Transaction) :
    x.readsStatus = false ↔ (∃ a v, x = .write a v) ∨ ∃ a, x = .read a ∧ a ≠ 0x003 := by
  cases x with
  | write a v => simp [Transaction.readsStatus]
  | read a => simp [Transaction.readsStatus, ofAddr_eq_status_iff]
  | wait => simp [Transaction.readsStatus]

theorem admitted_ne_notAdmitted (x : Transaction) (rest : List Transaction) (s : State) :
    admitted x rest s ≠ .notAdmitted := by
  cases x with
  | write a v => simp only [admitted]; split <;> simp
  | read a => simp [admitted]
  | wait => simp only [admitted]; split <;> simp

/-- An access is turned away exactly when a command executes and the access does not read STATUS (R345). -/
theorem hostAccess_eq_notAdmitted_iff (s : State) :
    hostAccess s = .notAdmitted ↔ s.busy ≠ 0 ∧ ∃ x rest, s.bus = x :: rest ∧ x.readsStatus = false := by
  constructor
  · intro h
    rcases hbus : s.bus with _ | ⟨x, rest⟩
    · simp [hostAccess_idle hbus] at h
    · have hnot : ¬ (s.busy = 0 ∨ x.readsStatus = true) := by
        rintro (hb | hx)
        · exact admitted_ne_notAdmitted x rest s ((hostAccess_ready hb hbus).symm.trans h)
        · exact admitted_ne_notAdmitted x rest s ((hostAccess_status hx hbus).symm.trans h)
      rw [not_or, Bool.not_eq_true] at hnot
      exact ⟨hnot.1, x, rest, rfl, hnot.2⟩
  · rintro ⟨hb, x, rest, hbus, hx⟩
    exact hostAccess_busy hb hx hbus

/-- The bus alone refuses: no command does, a reserved one included (R91, R94). -/
theorem step_eq_refused_iff (s : State) (r : Refusal) :
    step s = .refused r ↔ r = .busyAccess ∧ hostAccess s = .notAdmitted := by
  rcases step_cases s with ⟨u, ha, he⟩ | ⟨v, u, i, ha, -, he⟩ | ⟨v, u, e, ha, -, he⟩ | ⟨ha, he⟩ <;> rw [ha, he]
  · simp
  · obtain ⟨w, hw, -⟩ := everyCommandSucceedsOrFaults i u
    simp [hw]
  · simp
  · simp [eq_comm]

/-- A read of STATUS while BUSY = 1 returns 0x01 and takes one cycle (R345). -/
theorem step_read_status_busy {s : State} {rest : List Transaction} (hb : s.busy ≠ 0)
    (hbus : s.bus = .read 0x003 :: rest) :
    step s = .next { s with bus := rest, reads := 0x01 :: s.reads, busy := s.busy - 1 } := by
  have hview : s.statusView = 0x01 := if_neg hb
  have hread : busRead 0x003 { s with bus := rest } = { s with bus := rest, reads := s.statusView :: s.reads } := rfl
  refine step_done ((hostAccess_status rfl hbus).trans ?_)
  rw [admitted, hread, hview, State.tick]

end Sys2Proof.Machine
end

section
/-! PROOF. O7: what BUSY admits. -/

open Sys2Proof Sys2Proof.Machine

/-- Settles O7: a read or a poll of STATUS passes a cycle, an idle bus too; the rest is turned away, and nothing else is. -/
theorem busyAccessRefused : Obligations.BusyAccessRefused := by
  refine ⟨fun s rest => step_read_status_busy, fun s rest hb hbus => ?_, fun s hbus => step_done (hostAccess_idle hbus),
    fun s r => ?_⟩
  · exact step_wait_busy (by omega) hbus
  · rw [step_eq_refused_iff, hostAccess_eq_notAdmitted_iff]
    refine and_congr_right fun _ => and_congr_right fun _ => ?_
    constructor
    · rintro ⟨x, rest, hbus, hx⟩
      rcases (readsStatus_eq_false_iff x).1 hx with ⟨a, v, rfl⟩ | ⟨a, rfl, ha⟩
      · exact .inl ⟨a, v, rest, hbus⟩
      · exact .inr ⟨a, rest, hbus, ha⟩
    · rintro (⟨a, v, rest, hbus⟩ | ⟨a, rest, hbus, ha⟩)
      · exact ⟨_, rest, hbus, rfl⟩
      · exact ⟨_, rest, hbus, (readsStatus_eq_false_iff _).2 (.inr ⟨a, rfl, ha⟩)⟩
end

section
/-! SUPPORT. The state after power-on reset (70_reset_and_hazards.md R341): what its registers hold. -/

namespace Sys2Proof.Machine

variable (contents : Memory) (latencies : List Nat) (program : List Transaction)

@[simp] theorem reg_powerOn (r : Reg) : (State.powerOn contents latencies program).reg r = 0x00 := by
  cases r <;> rfl

@[simp] theorem busy_powerOn : (State.powerOn contents latencies program).busy = 0 := rfl

@[simp] theorem readReg_powerOn (r : Reg) : (State.powerOn contents latencies program).readReg r = 0x00 := by
  simp [State.readReg, State.statusView]

/-- Every address of the register page but those of ID and VER reads as 0x00 (R341, 20_memory.md R64). -/
theorem hostView_powerOn_registerPage {a : Addr} (hid : a ≠ 0x000) (hver : a ≠ 0x001) (hpage : a.toNat < 0x100) :
    hostView (State.powerOn contents latencies program) a = 0x00 := by
  have hat := standsAt_ofAddr a
  unfold hostView
  cases hl : Loc.ofAddr a <;> rw [hl] at hat
  case ident => exact absurd hat hid
  case version => exact absurd hat hver
  case reg r => exact readReg_powerOn ..
  case entry b i => have := b.base_bounds; have := hat.2; omega
  case expt i | logt i => have := hat.2; omega
  case reserved => rfl

end Sys2Proof.Machine
end

section
/-! PROOF. O9: the state after power-on reset. -/

open Sys2Proof Sys2Proof.Machine

/-- Settles O9: range by range of the address map. -/
theorem powerOnState : Obligations.PowerOnState := by
  intro contents latencies program a s
  refine ⟨rfl, rfl, rfl, rfl, ?_⟩
  split_ifs with hid hver hpage hbuf hexpt hlogt0 hlogt
  · exact hid ▸ rfl
  · exact hver ▸ rfl
  · exact hostView_powerOn_registerPage contents latencies program hid hver hpage
  · exact hostView_buffers s (by omega) hbuf
  · exact hostView_expt s (by omega) hexpt
  · exact hlogt0 ▸ rfl
  · have hne : a.toNat ≠ 0xC00 := fun h => hlogt0 (BitVec.eq_of_toNat_eq h)
    exact hostView_logt s (by omega) hlogt
  · exact hostView_reserved s (.inr (by omega))
end

section
/-! PROOF. O10: the invariant holds at reset. -/

namespace Sys2Proof.Machine

theorem inv_powerOn {contents : Memory} (h : Memory.Inv contents) (latencies : List Nat) (program : List Transaction) :
    Inv (State.powerOn contents latencies program) :=
  ⟨h, .inl rfl, Nat.zero_le 7, iff_of_true rfl (by decide : (0x00 : Byte) ≠ 0x06)⟩

theorem SoftReset.inv {s : State} (h : SoftReset s) : Inv s := by
  obtain ⟨-, -, hstatus, hzero, hmem⟩ := h
  have hcause : s.reg .cause = 0x00 := hzero .cause (by decide) (by decide)
  simp only [State.reg] at hstatus hcause
  refine ⟨hmem, ?_⟩
  rw [RecordInv, hstatus, hcause]
  decide

theorem CleanReset.inv {s : State} (h : CleanReset s) : Inv s := by
  rcases h with ⟨contents, latencies, program, hmem, rfl⟩ | h
  · exact inv_powerOn hmem latencies program
  · exact h.inv

theorem memoryInv_nil : Memory.Inv [] := ⟨rfl, fun _ h => by cases h⟩

end Sys2Proof.Machine

open Sys2Proof Sys2Proof.Machine

/-- Settles O10: a reset's record is 0x00 or 0x02 with CAUSE 0x00, and its memory is canonical by assumption or empty. -/
theorem resetMeetsInvariant : Obligations.ResetMeetsInvariant :=
  ⟨fun _ => CleanReset.inv, inv_powerOn memoryInv_nil [] []⟩
end

section
/-! PROOF. O54: SRESET leads to a clean reset. -/

namespace Sys2Proof.Machine

/-- The state a write of SRESET's opcode to CMD leaves, the accesses after it being `rest` (R342). -/
def State.sresetDone (s : State) (rest : List Transaction) : State :=
  complete (clearRegisters (State.issued { s with bus := rest } 0x01))

theorem step_sreset {s : State} {rest : List Transaction} (hb : s.busy = 0) (hbus : s.bus = .write 0x002 0x01 :: rest) :
    step s = .next (s.sresetDone rest) :=
  (step_cmd hb hbus (decode_encode .sreset)).trans (exec_sreset _)

theorem reg_sresetDone (s : State) (rest : List Transaction) (r : Reg) :
    (s.sresetDone rest).reg r = if r = .cmd then 0x01 else if r = .status then 0x02 else 0x00 := by
  cases r <;> rfl

/-- Once no command executes, the registers and the memory that SRESET leaves are a clean reset in its SRESET form
(R342, R353). -/
theorem softReset_of_sresetDone {s w : State} {rest : List Transaction} (hmem : Memory.Inv s.mem) (hb : w.busy = 0)
    (hregs : ∀ r, w.reg r = (s.sresetDone rest).reg r) (hbytes : w.mem = s.mem) : SoftReset w := by
  simp only [reg_sresetDone] at hregs
  refine ⟨hb, hregs .cmd, hregs .status, fun r hcmd hstatus => ?_, hbytes ▸ hmem⟩
  rw [hregs, if_neg hcmd, if_neg hstatus]

end Sys2Proof.Machine

open Sys2Proof Sys2Proof.Machine

/-- Settles O54: SRESET's step leaves the registers and the memory of a clean reset, and WAIT changes neither but ends
with BUSY = 0. -/
theorem sresetLeavesCleanReset : Obligations.SresetLeavesCleanReset := by
  constructor
  · intro s rest hmem hb hbus
    refine ⟨s.sresetDone rest, step_sreset hb hbus, ?_, rfl, fun hbusy => ?_, rfl, rfl, rfl⟩
    · exact softReset_of_sresetDone hmem rfl (fun r => by cases r <;> rfl) rfl
    · exact .inr (softReset_of_sresetDone hmem hbusy (fun _ => rfl) rfl)
  · intro s rest k ls hmem hb hlat hbus
    have hbusy : (s.sresetDone (.wait :: rest)).busy = k := congrArg (·.headD 0) hlat
    have hsoft : SoftReset ((s.sresetDone (.wait :: rest)).waited rest) :=
      softReset_of_sresetDone hmem rfl (reg_waited _ rest) rfl
    refine ⟨_, ?_, hsoft, .inr hsoft, rfl, rfl⟩
    rw [run_succ (step_sreset hb hbus), ← hbusy, run_wait rfl doneBit_statusDone]
end

section
/-! PROOF. O55: a run of which no command faulted shows no fault at its end. -/

namespace Sys2Proof.Machine

theorem commandIssued_of_issue {s u : State} {v : Byte} (h : hostAccess s = .issue v u) : commandIssued s = true := by
  simp [commandIssued, h]

/-- A step keeps ERR = 0 if the command it issues, where it issues one, ends with ERR = 0: no other access writes the
record (R57, R62, R65). -/
theorem errBit_step {s u : State} (herr : errBit (s.reg .status) = false) (hstep : step s = .next u)
    (hcmd : commandIssued s = true → errBit (u.reg .status) = false) : errBit (u.reg .status) = false := by
  rcases step_cases s with ⟨w, ha, he⟩ | ⟨v, w, i, ha, -, -⟩ | ⟨v, w, e, ha, -, -⟩ | ⟨-, he⟩
  · rw [he] at hstep
    cases hstep
    rwa [(record_hostAccess ha).1]
  · exact hcmd (commandIssued_of_issue ha)
  · exact hcmd (commandIssued_of_issue (u := w) ha)
  · simp [he] at hstep

/-- A run of which no command faulted keeps the invariant and ERR = 0 (R352, R353). -/
theorem NoFaultRecorded.keeps_inv {k : Nat} {s u : State} (h : NoFaultRecorded k s) (hinv : Inv s)
    (herr : errBit (s.reg .status) = false) (hrun : Host.Core.run core k s = .next u) :
    Inv u ∧ errBit (u.reg .status) = false := by
  induction k generalizing s with
  | zero => cases hrun; exact ⟨hinv, herr⟩
  | succ k ih =>
    obtain ⟨w, hstep, hcmd, hrest⟩ := h
    rw [run_succ hstep] at hrun
    exact ih hrest (everyStepKeepsInvariant s w hinv hstep) (errBit_step herr hstep hcmd) hrun

/-- Where ERR = 0 the record names no cause (10_state.md R26). -/
theorem RecordInv.cause_of_errBit {s : State} (h : RecordInv s) (herr : errBit (s.reg .status) = false) :
    s.reg .cause = 0x00 := by
  obtain ⟨-, -, hcause⟩ := h
  refine hcause.2 fun hfault => ?_
  rw [State.reg, hfault] at herr
  exact absurd herr (by decide)

theorem CleanReset.errBit_status {s : State} (h : CleanReset s) : errBit (s.reg .status) = false := by
  rcases h with ⟨contents, latencies, program, -, rfl⟩ | ⟨-, -, hstatus, -⟩
  · rw [reg_powerOn]
    rfl
  · rw [hstatus]
    rfl

end Sys2Proof.Machine

open Sys2Proof Sys2Proof.Machine

/-- Settles O55: a clean reset has ERR = 0 and meets the invariant, the run keeps both, and together they leave no cause. -/
theorem noFaultRecordedLeavesNoCause : Obligations.NoFaultRecordedLeavesNoCause := by
  intro k s u hreset hnofault hrun
  obtain ⟨⟨-, hrecord⟩, herr⟩ := hnofault.keeps_inv hreset.inv hreset.errBit_status hrun
  exact ⟨herr, hrecord.cause_of_errBit herr⟩
end
